-- ==== Sys2Proof/Word.lean ====
section
/-!
DEFINITION. The word types of HUFB (spec/00_scope.md R6 to R8). Every value is unsigned.
-/

namespace Sys2Proof

/-- A register, a host-bus word, a command word, a FREQ entry (R6, R7). -/
abbrev Word := BitVec 32

/-- A byte of BUF, and a symbol: "an integer in [0, 255]" (R6 SYMBOL_W). -/
abbrev Byte := BitVec 8

/-- A node weight (R6 WEIGHT_W). -/
abbrev Weight := BitVec 40

/-- A node index, 0 to 510 (R6 NODE_IDX_W). -/
abbrev NodeIndex := BitVec 9

/-- A byte offset in the 128 KiB register window, 0x00000 to 0x1FFFF (spec/20_memory.md R34). -/
abbrev Offset := BitVec 17

/-- A bit string, first character first, '0' as false and '1' as true (R8). -/
abbrev Codeword := List Bool

end Sys2Proof
end

