-- ==== Sys2Proof/Syntax.lean ====
section
/-!
DEFINITION. The instructions of HUFB: the commands of spec/30_encoding.md R53 and the illegal words of R54,
one constructor per row of spec/opcode_table.json.
-/

namespace Sys2Proof

/-- A command. It has no immediate and no register field; its operands are SRC, DST, LEN, FREQ, the tree and
BUF at its completion (R52, R56). -/
inductive Instr where
  /-- Clear the frequency table (R60). -/
  | clrfreq
  /-- Count the bytes of BUF[SRC, SRC+LEN) into FREQ (R61). -/
  | count
  /-- Build the tree and the code table from FREQ (R67). -/
  | build
  /-- Encode BUF[SRC, SRC+LEN) to a packed stream at DST (R81). -/
  | encode
  /-- Decode WEIGHT(ROOT) symbols from the stream at SRC to DST (R84). -/
  | decode
  /-- Every other command word; the word is kept because ERRCODE and ERRINFO report it (R54). -/
  | illegal (w : Word)
deriving DecidableEq, Repr

end Sys2Proof
end

