-- ==== Sys2Proof/WellFormed.lean ====
section
/-!
DEFINITION. Which terms of Instr stand for a command word: the word of an illegal command is none of the
five legal words (spec/30_encoding.md R53, R54).
-/

namespace Sys2Proof

/-- The five legal command words are 0x00000001 to 0x00000005 (R53). -/
def legalWord (w : Word) : Bool := decide (1 ≤ w.toNat) && decide (w.toNat ≤ 5)

/-- A legal command is always well formed; an illegal one carries a word that is not legal. -/
def Instr.wellFormed : Instr → Bool
  | .clrfreq => true
  | .count => true
  | .build => true
  | .encode => true
  | .decode => true
  | .illegal w => !legalWord w

end Sys2Proof
end

