-- ==== Sys2Proof/Decode.lean ====
section
/-!
DEFINITION. Decoding and encoding of command words (spec/30_encoding.md R52 to R55). Every command is exactly
one 32-bit word, so the decoder is total on words: a reserved word is not refused but is the command ILLEGAL,
which carries the word (R54).
-/

namespace Sys2Proof

/-- The operation a command word selects, "by comparing the whole word" (R53). -/
def decode (w : Word) : Instr :=
  if w = 0x00000001#32 then .clrfreq
  else if w = 0x00000002#32 then .count
  else if w = 0x00000003#32 then .build
  else if w = 0x00000004#32 then .encode
  else if w = 0x00000005#32 then .decode
  else .illegal w

/-- The command word of an instruction: OP in bits [3:0], RSV = 0 in bits [31:4] (R52, R53). -/
def encode : Instr → Word
  | .clrfreq => 0#28 ++ 0x1#4
  | .count => 0#28 ++ 0x2#4
  | .build => 0#28 ++ 0x3#4
  | .encode => 0#28 ++ 0x4#4
  | .decode => 0#28 ++ 0x5#4
  | .illegal w => w

/-- The OP field of a command word, bits [3:0] (R52). -/
def opField (w : Word) : BitVec 4 := w.extractLsb' 0 4

/-- The RSV field of a command word, bits [31:4] (R52). -/
def rsvField (w : Word) : BitVec 28 := w.extractLsb' 4 28

/-- The command word whose low `nbits` bits are those of `w`, its other bits 0. A command word has 32 bits, no
more (R55), so a longer row is refused. -/
def tableWord (nbits w : Nat) : Option Word :=
  if nbits ≤ 32 then some (BitVec.ofNat 32 (w % 2 ^ nbits)) else none

/-- The instruction the decoder reads from a row of the opcode table: the row's bits are the word's own bits,
numbered as R52 numbers them. -/
def decodeTableWord (nbits w : Nat) : Option Instr := (tableWord nbits w).map decode

end Sys2Proof
end

