-- ==== Sys2Proof/Config.lean ====
section
/-!
DEFINITION. The parameters of HUFB (spec/00_scope.md R6) and its one free value, the contents of BUF after
reset (spec/10_state.md R29).
-/

namespace Sys2Proof

/-- The parameters a model takes: BUF_BYTES and BASE (R6). LATENCY is the place of the completion in the order
of turns, which the state holds. -/
structure Config where
  /-- BUF_BYTES / 4 - 1. BUF_BYTES is a multiple of 4 with 4 <= BUF_BYTES <= 65536 (R6), so every value of this
  field is a legal parameter and every legal parameter is a value of it. -/
  bufWordsLessOne : Fin 16384
  /-- BASE, the bus address of the register window, the platform's choice (R6, spec/20_memory.md R34). -/
  base : Nat
deriving DecidableEq, Repr

/-- BUF_BYTES (R6). -/
def Config.bufBytes (c : Config) : Nat := 4 * (c.bufWordsLessOne.val + 1)

/-- The default: BUF_BYTES = 65536 (R6). DESIGN CHOICE (log entry 5), unsafe for a claim about an absolute bus
address: BASE is open and is 0 here. -/
def Config.default : Config := { bufWordsLessOne := 16383, base := 0 }

/-- The byte that reset number `epoch` leaves at BUF offset `a`: "an arbitrary value (a draw) that stays fixed
until written" (spec/10_state.md R29, spec/70_reset_and_hazards.md R99). A free value: nothing constrains it
(log entry 3). -/
opaque Config.bufDraw (epoch a : Nat) : Byte

end Sys2Proof
end

