-- ==== Sys2Proof/Machine/State.lean ====
section
/-!
DEFINITION. The state of HUFB (spec/10_state.md R15 to R31), its reset value (spec/70_reset_and_hazards.md
R99), and the reasons a step can stop.
-/

namespace Sys2Proof.Machine

/-- No step of HUFB faults, so there is no constructor: "HUFB has no traps: an error ends a command and is
reported" (spec/60_exceptions.md), an access is "never answered with a bus error" (spec/20_memory.md R36). -/
inductive Fault where
deriving DecidableEq, Repr

/-- The reasons an instruction may be refused. -/
inductive Refusal where
  /-- Raised by an arm of exec that has no meaning yet; no arm raises it. Safe: the machine stops. -/
  | notModelled (mnemonic : String)
deriving DecidableEq, Repr

/-- The causes of spec/60_exceptions.md R87. Codes 9 to 15 are never produced, so they have no constructor. -/
inductive Cause where
  /-- 0 NONE: the command succeeded. -/
  | noError
  /-- 1 ILLEGAL_CMD. -/
  | illegalCmd
  /-- 2 NO_TREE. -/
  | noTree
  /-- 3 RANGE. -/
  | range
  /-- 4 OVERLAP. -/
  | overlap
  /-- 5 ABSENT_SYMBOL. -/
  | absentSymbol
  /-- 6 TRUNCATED. -/
  | truncated
  /-- 7 BAD_CODE. -/
  | badCode
  /-- 8 FREQ_OVERFLOW. -/
  | freqOverflow
deriving DecidableEq, Repr

/-- A rooted tree of node records (spec/10_state.md R26). A leaf's index is its symbol, so it is not stored.
An internal node holds its index and its two children: LEFT and RIGHT are the indices of these. The document:
"Exactly one of {both children present, both absent}", "strict hierarchy; no shared or back references". -/
inductive CodeTree where
  /-- LEAF = 1: SYM and WEIGHT. -/
  | leaf (sym : Byte) (weight : Weight)
  /-- LEAF = 0: the node's index, SYM, WEIGHT, LEFT and RIGHT. -/
  | node (index : NodeIndex) (sym : Byte) (weight : Weight) (left right : CodeTree)
deriving DecidableEq, Repr

/-- A table with one entry per symbol, 0 to 255. -/
abbrev Table (α : Type) := Vector α 256

/-- What BUILD leaves: TREE = VALID(NODES, ROOT), ROOT being NONE for the empty tree (spec/10_state.md R26),
and the code table CODE (R28). DEDUCED (log entry 8), safe: while TREE is INVALID neither is held, as
spec/42_code_table.md R80 allows. -/
structure Built where
  root : Option CodeTree
  code : Table Codeword
deriving DecidableEq, Repr

/-- The bytes of BUF written since the last reset, as cells of strictly rising offset (log entry 3). -/
abbrev Memory := List Host.Cell

/-- What happens next, as the outside decides it (spec/20_memory.md R47, spec/70_reset_and_hazards.md R99).
Addresses are bus addresses (R34). -/
inductive Turn where
  /-- A host read of one word (R36). -/
  | read (addr : Nat)
  /-- A host write of one word (R36). -/
  | write (addr : Nat) (value : Word)
  /-- The command engine takes its step, completion (spec/60_exceptions.md R89). -/
  | engine
  /-- The reset input is asserted (spec/70_reset_and_hazards.md R99, R100). -/
  | reset
deriving DecidableEq, Repr

/-- The state of HUFB. BUSY, TREE_VALID, TREE_NONEMPTY, TREE_ROOT, TOTAL_LO, TOTAL_HI, NSYM and IRQ are views
of it (spec/10_state.md R19, R27, R30, R32). -/
structure State where
  /-- The parameters of spec/00_scope.md R6; no step changes them. -/
  config : Config
  /-- CTRL bit 0 (R18). -/
  doneIE : Bool
  /-- CTRL bit 1 (R18). -/
  errIE : Bool
  /-- STATUS bit 1 (R19). -/
  done : Bool
  /-- STATUS bit 2 (R19). -/
  err : Bool
  /-- STATUS bit 3 (R19). -/
  ovr : Bool
  /-- The last accepted command word (R20). -/
  cmd : Word
  /-- The byte offset in BUF of a command's input (R21). -/
  src : Word
  /-- The byte offset in BUF of a command's output (R21). -/
  dst : Word
  /-- The input length in bytes (R21). -/
  len : Word
  /-- ERRCODE.CAUSE (R22). -/
  errCause : Cause
  /-- ERRCODE.OP (R22). -/
  errOp : BitVec 4
  /-- ERRINFO (R23). -/
  errInfo : Word
  /-- RES_BITS (R24). -/
  resBits : Word
  /-- RES_BYTES (R24). -/
  resBytes : Word
  /-- The frequency table FREQ (R25). -/
  freq : Table Word
  /-- TREE and CODE; none is INVALID (R26, R28). -/
  tree : Option Built
  /-- BUF (R29): the bytes written since reset. -/
  buf : Memory
  /-- PENDING; none is NONE (R30). -/
  pending : Option Word
  /-- The model's own: how many resets there were, the argument of the free value Config.bufDraw. -/
  epoch : Nat
  /-- The model's own: what the host, the engine and the reset input do next. -/
  turns : List Turn
  /-- The model's own: the words the host's reads returned, latest first. -/
  got : List Word
deriving DecidableEq, Repr

/-- HUFB after reset (spec/70_reset_and_hazards.md R99), with the default BUF_BYTES. DESIGN CHOICE (log entries
1, 3, 5, 6): the model's own fields and BASE, which the spec gives no value, are 0 or empty. -/
def State.reset : State where
  config := Config.default
  doneIE := false
  errIE := false
  done := false
  err := false
  ovr := false
  cmd := 0#32
  src := 0#32
  dst := 0#32
  len := 0#32
  errCause := .noError
  errOp := 0#4
  errInfo := 0#32
  resBits := 0#32
  resBytes := 0#32
  freq := Vector.replicate 256 0#32
  tree := none
  buf := []
  pending := none
  epoch := 0
  turns := []
  got := []

/-- A raise (spec/00_scope.md R9): the cause and the information word. -/
structure CmdError where
  cause : Cause
  info : Word
deriving DecidableEq, Repr

/-- A command run "to its end or to a raise" (spec/60_exceptions.md R89): the state it reached, with every write
made before a raise, and the raise if there was one. -/
structure Ran where
  state : State
  error : Option CmdError
deriving DecidableEq, Repr

/-- What a window offset leads to (spec/20_memory.md R35). -/
inductive Target where
  | id | config | ctrl | status | cmd | src | dst | len
  | errcode | errinfo | resBits | resBytes | treeRoot | totalLo | totalHi | nsym
  /-- FREQ[s]. -/
  | freq (s : Byte)
  /-- The CODE_LEN word of symbol s. -/
  | codeLen (s : Byte)
  /-- Word k of the CODE_BITS words of symbol s, 0 <= k <= 7. -/
  | codeBits (s : Byte) (k : Nat)
  /-- Word k of node n, 0 <= k <= 3. -/
  | node (n : NodeIndex) (k : Nat)
  /-- The BUF-window word that starts at BUF byte a, a multiple of 4. -/
  | buf (a : Nat)
  /-- A reserved offset, or a BUF-window word that does not exist (R37, R41). -/
  | reserved
deriving DecidableEq, Repr

end Sys2Proof.Machine
end

