-- ==== Sys2Proof/Machine/Ops.lean ====
section
/-!
DEFINITION. The named operations over tables, BUF and registers (spec/00_scope.md R9, R10; spec/20_memory.md
R40, R44, R50, R51), the acceptance and completion of a command (spec/60_exceptions.md R88, R89) and reset
(spec/70_reset_and_hazards.md R99).
-/

namespace Sys2Proof.Machine

/-! Tables indexed by symbol. -/

/-- Entry `s` of a table. -/
def Table.at {α : Type} (t : Table α) (s : Byte) : α := t[s.toNat]'s.isLt

/-- The table with entry `s` replaced. -/
def Table.put {α : Type} (t : Table α) (s : Byte) (v : α) : Table α := t.set s.toNat v s.isLt

/-- The table whose entry `s` is `f s`. -/
def Table.tabulate {α : Type} (f : Byte → α) : Table α := Vector.ofFn fun i : Fin 256 => f (BitVec.ofNat 8 i.val)

/-- The symbols 0 to 255, ascending. -/
def symbols : List Byte := (List.range 256).map (BitVec.ofNat 8)

/-! BUF (R29): the bytes written since reset, in one canonical form. -/

/-- The byte written last at `a` since reset, if there is one. -/
def Memory.get : Memory → Nat → Option Byte
  | [], _ => none
  | (k, v) :: m, a => if k = a then some v else if a < k then none else Memory.get m a

/-- The bytes with `v` written at `a`, in rising order of offset. -/
def Memory.set : Memory → Nat → Byte → Memory
  | [], a, v => [(a, v)]
  | (k, u) :: m, a, v =>
    if a < k then (a, v) :: (k, u) :: m
    else if a = k then (a, v) :: m
    else (k, u) :: Memory.set m a v

/-- The canonical form: offsets strictly rise. An unlisted offset has no byte written, so no entry can equal
what an unlisted offset holds (log entry 3). -/
def Memory.wf (m : Memory) : Bool := decide (m.Pairwise fun x y => x.1 < y.1)

/-- `MemRead(a, 1)` (R9): the byte written last at `a`, or the draw of the last reset, which stays "fixed until
written" (spec/10_state.md R29). -/
def State.readByte (s : State) (a : Nat) : Byte := (Memory.get s.buf a).getD (Config.bufDraw s.epoch a)

/-- `MemWrite(a, 1, v)` (R9). -/
def State.writeByte (s : State) (a : Nat) (v : Byte) : State := { s with buf := Memory.set s.buf a v }

/-- The bytes of BUF[a, a+n), ascending. -/
def State.bytesAt (s : State) (a n : Nat) : List Byte := (List.range n).map fun i => s.readByte (a + i)

/-- MemWrite of the given bytes at `a`, `a + 1`, and so on, in this order. -/
def State.writeBytes : State → Nat → List Byte → State
  | s, _, [] => s
  | s, a, v :: vs => (s.writeByte a v).writeBytes (a + 1) vs

/-! Words and bytes. -/

/-- The number whose `n` bits are `f 0`, `f 1`, ..., the first one the most significant. -/
def msbFirst : Nat → (Nat → Bool) → Nat
  | 0, _ => 0
  | n + 1, f => (f 0).toNat * 2 ^ n + msbFirst n fun j => f (j + 1)

/-- The four bytes of a word in little-endian order, bits [7:0] first (R40). -/
def bytesOfWord (w : Word) : List Byte :=
  [w.extractLsb' 0 8, w.extractLsb' 8 8, w.extractLsb' 16 8, w.extractLsb' 24 8]

/-- The word of BUF bytes a to a + 3, byte a in bits [7:0] (R40). -/
def State.readBufWord (s : State) (a : Nat) : Word :=
  s.readByte (a + 3) ++ s.readByte (a + 2) ++ s.readByte (a + 1) ++ s.readByte a

/-- A host write of a BUF-window word sets all four bytes (R40). -/
def State.writeBufWord (s : State) (a : Nat) (w : Word) : State := s.writeBytes a (bytesOfWord w)

/-! Packed bit streams (R50, R51) and ranges (R10). -/

/-- `ceil(x / 8)` (R10). -/
def ceilDiv8 (x : Nat) : Nat := (x + 7) / 8

/-- Byte `j` of the packed form of `c`: bit 7 - b is bit 8j + b of `c`, and 0 past its end (R50). -/
def packedByte (c : Codeword) (j : Nat) : Byte := BitVec.ofNat 8 (msbFirst 8 fun b => c.getD (8 * j + b) false)

/-- The bytes that hold `c`, as many as ceil(len(c) / 8) (R50). -/
def packedBytes (c : Codeword) : List Byte := (List.range (ceilDiv8 c.length)).map (packedByte c)

/-- `PutBits(base, c)` (R50). -/
def State.putBits (s : State) (base : Nat) (c : Codeword) : State := s.writeBytes base (packedBytes c)

/-- `BitAt(base, t)` (R51). -/
def State.bitAt (s : State) (base t : Nat) : Bool := (s.readByte (base + t / 8)).getLsbD (7 - t % 8)

/-- `Overlap(a, m, b, n)` (R10). -/
def overlap (a m b n : Nat) : Bool := decide (0 < m ∧ 0 < n ∧ a < b + n ∧ b < a + m)

/-- The input bytes BUF[SRC, SRC+LEN). -/
def State.input (s : State) : List Byte := s.bytesAt s.src.toNat s.len.toNat

/-- SRC + LEN > BUF_BYTES, without wrap-around (spec/60_exceptions.md R87). -/
def State.inputOut (s : State) : Bool := decide (s.config.bufBytes < s.src.toNat + s.len.toNat)

/-- DST + n > BUF_BYTES, without wrap-around (R87). -/
def State.outputOut (s : State) (n : Nat) : Bool := decide (s.config.bufBytes < s.dst.toNat + n)

/-- The input range and the `n` output bytes share a byte (R87). -/
def State.overlaps (s : State) (n : Nat) : Bool := overlap s.src.toNat s.len.toNat s.dst.toNat n

/-! Registers. -/

/-- STATUS.BUSY = 1 exactly when PENDING is not NONE (spec/10_state.md R30). -/
def State.busy (s : State) : Bool := s.pending.isSome

/-- `RES_BITS <- bits; RES_BYTES <- bytes` (spec/10_state.md R24). -/
def State.setResult (s : State) (bits bytes : Nat) : State :=
  { s with resBits := BitVec.ofNat 32 bits, resBytes := BitVec.ofNat 32 bytes }

/-- The whole frequency table replaced (spec/10_state.md R25). -/
def State.setFreq (s : State) (f : Table Word) : State := { s with freq := f }

/-- `TREE <- INVALID` (spec/40_frequency.md R59 to R61). -/
def State.invalidate (s : State) : State := { s with tree := none }

/-- `TREE <- VALID(...); CODE <- ...` (spec/41_tree_build.md R67). -/
def State.setTree (s : State) (b : Built) : State := { s with tree := some b }

/-- SRC, DST, LEN written by the host (spec/10_state.md R21). -/
def State.setSrc (s : State) (w : Word) : State := { s with src := w }
/-- DST written by the host (R21). -/
def State.setDst (s : State) (w : Word) : State := { s with dst := w }
/-- LEN written by the host (R21). -/
def State.setLen (s : State) (w : Word) : State := { s with len := w }

/-- A refused access: nothing but OVR changes (spec/20_memory.md R43, spec/60_exceptions.md R90). -/
def State.overrun (s : State) : State := { s with ovr := true }

/-- Acceptance of a command word (spec/60_exceptions.md R88). -/
def State.accept (s : State) (w : Word) : State := { s with cmd := w, pending := some w, done := false }

/-! The end of a command: HUFB's one way of taking an error (spec/60_exceptions.md R89, R93). -/

/-- A command that runs to its end. -/
def Ran.ok (s : State) : Ran := ⟨s, none⟩

/-- `raise CmdError(cause, info)`: the state reached stays (R9). -/
def Ran.raised (s : State) (c : Cause) (info : Word) : Ran := ⟨s, some ⟨c, info⟩⟩

/-- Completion of the command word `w` (R89): ERRCODE, ERRINFO, ERR, DONE and PENDING, on the state the command
left. -/
def Ran.complete (r : Ran) (w : Word) : State :=
  match r.error with
  | some e =>
    { r.state with
      errCause := e.cause, errOp := w.extractLsb' 0 4, errInfo := e.info, err := true, done := true, pending := none }
  | none =>
    { r.state with errCause := .noError, errOp := w.extractLsb' 0 4, errInfo := 0#32, done := true, pending := none }

/-- The acknowledgement, which stands where a return from an error would (R94): a host write of `w` to STATUS
clears each of DONE, ERR and OVR whose written bit is 1 and changes nothing else (spec/20_memory.md R39). -/
def State.acknowledge (s : State) (w : Word) : State :=
  { s with done := s.done && !w.getLsbD 1, err := s.err && !w.getLsbD 2, ovr := s.ovr && !w.getLsbD 3 }

/-! The outside. -/

/-- Reset (spec/70_reset_and_hazards.md R99, R100): every piece of the block's state takes its reset value,
whatever ran, and BUF is drawn anew. What the outside does next and what it has read are not the block's. -/
def State.resetBlock (s : State) : State :=
  { State.reset with config := s.config, epoch := s.epoch + 1, turns := s.turns, got := s.got }

/-- The word a host read returned is given to the host. -/
def State.give (s : State) (w : Word) : State := { s with got := w :: s.got }

/-- The rest of the turns, after the first one is taken. -/
def State.setTurns (s : State) (ts : List Turn) : State := { s with turns := ts }

end Sys2Proof.Machine
end

