-- ==== Sys2Proof/Machine/TreeBuild.lean ====
section
/-!
DEFINITION. The tree builder's ordered sequence and its merges (spec/41_tree_build.md R63 to R67).
-/

namespace Sys2Proof.Machine

/-- SYM(n) (spec/10_state.md R26). -/
def CodeTree.sym : CodeTree → Byte
  | .leaf s _ => s
  | .node _ s _ _ _ => s

/-- WEIGHT(n) (R26). -/
def CodeTree.weight : CodeTree → Weight
  | .leaf _ w => w
  | .node _ _ w _ _ => w

/-- The node's index: "a leaf's index is its symbol, the k-th internal node built has index 256 + k" (R26). -/
def CodeTree.index : CodeTree → NodeIndex
  | .leaf s _ => s.zeroExtend 9
  | .node i _ _ _ _ => i

/-- key(a) < key(b) (R63). -/
def keyLt (a b : CodeTree) : Bool := decide (a.weight < b.weight) || (a.weight == b.weight && decide (a.sym < b.sym))

/-- key(a) == key(b) (R63). -/
def keyEq (a b : CodeTree) : Bool := a.weight == b.weight && a.sym == b.sym

/-- `Insert(n)` on the sequence, and whether it was inserted (R65). DESIGN CHOICE (log entry 9), safe: the
reject branch keeps R65's own effect; R69 says BUILD never reaches it. -/
def insertNode (n : CodeTree) : List CodeTree → Bool × List CodeTree
  | [] => (true, [n])
  | x :: seq =>
    if keyLt x n then ((insertNode n seq).1, x :: (insertNode n seq).2)
    else if keyEq x n then (false, x :: seq)
    else (true, n :: x :: seq)

/-- The smaller of two ordering-symbols (R67). -/
def minSym (a b : Byte) : Byte := if a ≤ b then a else b

/-- The k-th internal node, of index 256 + k: `first` is LEFT and `second` is RIGHT (R67 step 2). -/
def mergeNode (k : Nat) (first second : CodeTree) : CodeTree :=
  .node (BitVec.ofNat 9 (256 + k)) (minSym first.sym second.sym)
    (BitVec.ofNat 40 (first.weight.toNat + second.weight.toNat)) first second

/-- The sequence of the leaves: one for each of `xs` whose entry is not 0, inserted in the order of `xs` (R67
step 1). -/
def leafSeq (freq : Table Word) (xs : List Byte) : List CodeTree :=
  xs.foldl (fun seq x => if freq.at x = 0#32 then seq else (insertNode (.leaf x ((freq.at x).zeroExtend 40)) seq).2) []

/-- At most `fuel` merges, the first one making internal node number `k`: remove the two lowest, insert their
parent (R66, R67 step 2). -/
def mergeSeq : (fuel k : Nat) → List CodeTree → List CodeTree
  | fuel + 1, k, first :: second :: seq => mergeSeq fuel (k + 1) (insertNode (mergeNode k first second) seq).2
  | _, _, seq => seq

/-- The sequence when at most one item is left. Each merge shortens it, so its length is fuel enough. -/
def finalSeq (freq : Table Word) : List CodeTree :=
  mergeSeq (leafSeq freq symbols).length 0 (leafSeq freq symbols)

/-- ROOT: the one item left, or NONE (R67 step 3). -/
def buildRoot (freq : Table Word) : Option CodeTree :=
  match finalSeq freq with
  | [t] => some t
  | _ => none

end Sys2Proof.Machine
end

