-- ==== Sys2Proof/Machine/CodeTable.lean ====
section
/-!
DEFINITION. The code derivation (spec/42_code_table.md R74, R75), BUILD's result (spec/41_tree_build.md R67),
and the words in which the host reads the code table and the tree (spec/42_code_table.md R76, R77, R79;
spec/10_state.md R27).
-/

namespace Sys2Proof.Machine

/-- `Walk(n, p)` on the code table (R74). -/
def walk : CodeTree → Codeword → Table Codeword → Table Codeword
  | .leaf s _, p, code => code.put s p
  | .node _ _ _ l r, p, code => walk r (p ++ [true]) (walk l (p ++ [false]) code)

/-- The code table before the walk: every code empty (R74). -/
def emptyCode : Table Codeword := Vector.replicate 256 []

/-- `Codes(TREE)` of a valid tree with this ROOT (R74); a single leaf gets "1" (R75). -/
def codes : Option CodeTree → Table Codeword
  | none => emptyCode
  | some (.leaf s _) => emptyCode.put s [true]
  | some (.node i s w l r) => walk (.node i s w l r) [] emptyCode

/-- The tree and the code table BUILD makes of a frequency table (R67). -/
def buildTree (freq : Table Word) : Built := { root := buildRoot freq, code := codes (buildRoot freq) }

/-- How many leaves the tree has (spec/10_state.md R27). -/
def CodeTree.numLeaves : CodeTree → Nat
  | .leaf _ _ => 1
  | .node _ _ _ l r => l.numLeaves + r.numLeaves

/-- NODE(n): the node of index `n`, if n is in NODES (spec/10_state.md R26). -/
def CodeTree.findNode (n : NodeIndex) : CodeTree → Option CodeTree
  | .leaf s w => if (CodeTree.leaf s w).index = n then some (.leaf s w) else none
  | .node i s w l r =>
    if i = n then some (.node i s w l r)
    else match l.findNode n with
      | some t => some t
      | none => r.findNode n

/-- LEAF(n) (R26). -/
def CodeTree.isLeaf : CodeTree → Bool
  | .leaf _ _ => true
  | .node _ _ _ _ _ => false

/-- LEFT(n), 0 for a leaf (R26). -/
def CodeTree.leftIndex : CodeTree → NodeIndex
  | .leaf _ _ => 0
  | .node _ _ _ l _ => l.index

/-- RIGHT(n), 0 for a leaf (R26). -/
def CodeTree.rightIndex : CodeTree → NodeIndex
  | .leaf _ _ => 0
  | .node _ _ _ _ r => r.index

/-- Word k of a present node (R79). -/
def nodeWord (t : CodeTree) (isRoot : Bool) : Nat → Word
  | 0 => 1#1 ++ 0#21 ++ BitVec.ofBool isRoot ++ BitVec.ofBool t.isLeaf ++ t.sym
  | 1 => 0#7 ++ t.rightIndex ++ 0#7 ++ t.leftIndex
  | 2 => t.weight.extractLsb' 0 32
  | _ => 0#24 ++ t.weight.extractLsb' 32 8

/-- The NODE region's word k of node n (R79); 0 when the tree is INVALID or empty or has no such node. -/
def State.nodeRead (s : State) (n : NodeIndex) (k : Nat) : Word :=
  match s.tree with
  | some ⟨some root, _⟩ =>
    match root.findNode n with
    | some t => nodeWord t (decide (n = root.index)) k
    | none => 0#32
  | _ => 0#32

/-- CODE[x], empty while TREE is INVALID, when every read of it is 0 (R80). -/
def State.codeAt (s : State) (x : Byte) : Codeword :=
  match s.tree with
  | some b => b.code.at x
  | none => []

/-- The CODE_LEN word of a codeword: bits [7:0] its length, the others 0 (R76). -/
def codeLenWord (c : Codeword) : Word := 0#24 ++ BitVec.ofNat 8 c.length

/-- Word k of the CODE_BITS words of a codeword: bit 31 - j is its bit 32k + j, and 0 past its end (R77). -/
def codeBitsWord (c : Codeword) (k : Nat) : Word := BitVec.ofNat 32 (msbFirst 32 fun j => c.getD (32 * k + j) false)

/-- TREE_ROOT, 0 when the tree is INVALID or empty (spec/10_state.md R27). -/
def State.treeRootWord (s : State) : Word :=
  match s.tree with
  | some ⟨some root, _⟩ => 0#23 ++ root.index
  | _ => 0#32

/-- TOTAL_LO: WEIGHT(ROOT)[31:0], or 0 (R27). -/
def State.totalLoWord (s : State) : Word :=
  match s.tree with
  | some ⟨some root, _⟩ => root.weight.extractLsb' 0 32
  | _ => 0#32

/-- TOTAL_HI: WEIGHT(ROOT)[39:32] in bits [7:0], or 0 (R27). -/
def State.totalHiWord (s : State) : Word :=
  match s.tree with
  | some ⟨some root, _⟩ => 0#24 ++ root.weight.extractLsb' 32 8
  | _ => 0#32

/-- NSYM: the number of leaves in bits [8:0], or 0 (R27). -/
def State.nsymWord (s : State) : Word :=
  match s.tree with
  | some ⟨some root, _⟩ => 0#23 ++ BitVec.ofNat 9 root.numLeaves
  | _ => 0#32

end Sys2Proof.Machine
end

