-- ==== Sys2Proof/Machine/Build.lean ====
section
/-!
DEFINITION. BUILD (spec/41_tree_build.md R67).
-/

namespace Sys2Proof.Machine

/-- BUILD's pseudocode (R67): it reads FREQ and nothing else (R73). -/
def buildBody (s : State) : Ran := .ok ((s.setResult 0 0).setTree (buildTree s.freq))

/-- BUILD (R67). -/
def execBuild (s : State) : Host.Outcome State Fault Refusal := .next ((buildBody s).complete (encode .build))

end Sys2Proof.Machine
end

