-- ==== Sys2Proof/Machine/Decoder.lean ====
section
/-!
DEFINITION. DECODE (spec/44_decode.md R84).
-/

namespace Sys2Proof.Machine

/-- The descent from a node, next bit `t`: a 1 goes right and a 0 goes left, until a leaf; then its symbol and
the next bit. A bit at index `limit` or beyond raises TRUNCATED (R84). -/
def descend (s : State) (src limit : Nat) : CodeTree → Nat → Except CmdError (Byte × Nat)
  | .leaf x _, t => .ok (x, t)
  | .node _ _ _ l r, t =>
    if limit ≤ t then .error ⟨.truncated, BitVec.ofNat 32 t⟩
    else if s.bitAt src t then descend s src limit r (t + 1)
    else descend s src limit l (t + 1)

/-- One symbol: from a root that is a leaf exactly one bit, which must be 1 (R84, spec/90_conflicts.md C7). -/
def nextSymbol (s : State) (src limit : Nat) : CodeTree → Nat → Except CmdError (Byte × Nat)
  | .leaf x _, t =>
    if limit ≤ t then .error ⟨.truncated, BitVec.ofNat 32 t⟩
    else if s.bitAt src t then .ok (x, t + 1)
    else .error ⟨.badCode, BitVec.ofNat 32 t⟩
  | .node i y w l r, t => descend s src limit (.node i y w l r) t

/-- The decoding loop: `n` symbols to go, `i` done, next bit `t`. Each symbol is written and counted before the
next is read, so a raise keeps them (R84). -/
def decodeLoop (src limit dst : Nat) (root : CodeTree) : (n i t : Nat) → State → Ran
  | 0, _, _, s => .ok s
  | n + 1, i, t, s =>
    match nextSymbol s src limit root t with
    | .error e => ⟨s, some e⟩
    | .ok (x, t') => decodeLoop src limit dst root n (i + 1) t' ((s.writeByte (dst + i) x).setResult t' (i + 1))

/-- The body after the tree and input checks, for ROOT = NONE (N = 0) or a root (N = WEIGHT(ROOT)). -/
def decodeRooted (s : State) : Option CodeTree → Ran
  | none =>
    if s.outputOut 0 then .raised (s.setResult 0 0) .range 1#32
    else if s.overlaps 0 then .raised (s.setResult 0 0) .overlap 0#32
    else .ok (s.setResult 0 0)
  | some root =>
    if s.outputOut root.weight.toNat then .raised (s.setResult 0 0) .range 1#32
    else if s.overlaps root.weight.toNat then .raised (s.setResult 0 0) .overlap 0#32
    else decodeLoop s.src.toNat (8 * s.len.toNat) s.dst.toNat root root.weight.toNat 0 0 (s.setResult 0 0)

/-- DECODE's pseudocode (R84), its checks in the order of spec/60_exceptions.md R91. DEDUCED (log
entry 21): the range checks hold for an empty input or output too. -/
def decodeBody (s : State) : Ran :=
  match s.tree with
  | none => .raised (s.setResult 0 0) .noTree 0#32
  | some b => if s.inputOut then .raised (s.setResult 0 0) .range 0#32 else decodeRooted s b.root

/-- DECODE (R84). -/
def execDecode (s : State) : Host.Outcome State Fault Refusal := .next ((decodeBody s).complete (encode .decode))

end Sys2Proof.Machine
end

