-- ==== Sys2Proof/Machine/Encoder.lean ====
section
/-!
DEFINITION. ENCODE (spec/43_encode.md R81).
-/

namespace Sys2Proof.Machine

/-- The sizing pass over the input bytes from offset `i` on, `t` bits so far: T, or ABSENT_SYMBOL for the first
byte whose codeword is empty, ERRINFO = the symbol * 2^24 + its offset (R81). -/
def sizing (code : Table Codeword) : (i t : Nat) → List Byte → Except CmdError Nat
  | _, t, [] => .ok t
  | i, t, x :: xs =>
    if (code.at x).length = 0 then .error ⟨.absentSymbol, BitVec.ofNat 32 (x.toNat * 2 ^ 24 + i)⟩
    else sizing code (i + 1) (t + (code.at x).length) xs

/-- The emit pass: the concatenation of the codewords of the input bytes (R81). -/
def emit (code : Table Codeword) : List Byte → Codeword
  | [] => []
  | x :: xs => code.at x ++ emit code xs

/-- ENCODE's pseudocode (R81), its checks in the order of spec/60_exceptions.md R91. DEDUCED (log
entry 21): the range checks hold for an empty input or output too. -/
def encodeBody (s : State) : Ran :=
  match s.tree with
  | none => .raised (s.setResult 0 0) .noTree 0#32
  | some b =>
    if s.inputOut then .raised (s.setResult 0 0) .range 0#32
    else match sizing b.code 0 0 s.input with
      | .error e => ⟨s.setResult 0 0, some e⟩
      | .ok t =>
        if s.outputOut (ceilDiv8 t) then .raised (s.setResult 0 0) .range 1#32
        else if s.overlaps (ceilDiv8 t) then .raised (s.setResult 0 0) .overlap 0#32
        else .ok (((s.setResult 0 0).putBits s.dst.toNat (emit b.code s.input)).setResult t (ceilDiv8 t))

/-- ENCODE (R81). -/
def execEncode (s : State) : Host.Outcome State Fault Refusal := .next ((encodeBody s).complete (encode .encode))

end Sys2Proof.Machine
end

