-- ==== Sys2Proof/Machine/Frequency.lean ====
section
/-!
DEFINITION. The frequency table: the host's FREQ write, CLRFREQ and COUNT (spec/40_frequency.md R59 to R62).
-/

namespace Sys2Proof.Machine

/-- A host write of FREQ[x] while BUSY is 0: the entry, and TREE to INVALID (R59). -/
def State.writeFreq (s : State) (x : Byte) (w : Word) : State := (s.setFreq (s.freq.put x w)).invalidate

/-- CLRFREQ's pseudocode (R60). -/
def clrfreqBody (s : State) : Ran := .ok ((s.setResult 0 0).setFreq (Vector.replicate 256 0#32)).invalidate

/-- `c[x]` of COUNT: how many input bytes equal `x` (R61). -/
def State.countOf (s : State) (x : Byte) : Nat := s.input.count x

/-- FREQ[x] + c[x], on unbounded naturals (R7, R61). -/
def State.countedFreq (s : State) (x : Byte) : Nat := (s.freq.at x).toNat + s.countOf x

/-- The lowest symbol whose entry would pass 2^32 - 1 (R61). -/
def State.overflowing (s : State) : Option Byte := symbols.find? fun x => decide (2 ^ 32 - 1 < s.countedFreq x)

/-- COUNT's pseudocode (R61). DEDUCED (log entry 21): the range check holds for an empty input too. -/
def countBody (s : State) : Ran :=
  if s.inputOut then .raised (s.setResult 0 0) .range 0#32
  else match s.overflowing with
    | some x => .raised (s.setResult 0 0) .freqOverflow (x.zeroExtend 32)
    | none =>
      .ok (((s.setResult 0 0).setFreq (Table.tabulate fun x => BitVec.ofNat 32 (s.countedFreq x))).invalidate.setResult
        0 s.len.toNat)

/-- CLRFREQ (R60). -/
def execClrfreq (s : State) : Host.Outcome State Fault Refusal := .next ((clrfreqBody s).complete (encode .clrfreq))

/-- COUNT (R61). -/
def execCount (s : State) : Host.Outcome State Fault Refusal := .next ((countBody s).complete (encode .count))

end Sys2Proof.Machine
end

