-- ==== Sys2Proof/Machine/Illegal.lean ====
section
/-!
DEFINITION. The illegal command words (spec/30_encoding.md R54).
-/

namespace Sys2Proof.Machine

/-- `ILLEGAL(w)` (R54). -/
def illegalBody (w : Word) (s : State) : Ran := .raised (s.setResult 0 0) .illegalCmd w

/-- A reserved command word: it completes with ILLEGAL_CMD and performs no operation (R54). -/
def execIllegal (w : Word) (s : State) : Host.Outcome State Fault Refusal :=
  .next ((illegalBody w s).complete (encode (.illegal w)))

end Sys2Proof.Machine
end

