-- ==== Sys2Proof/Machine/Flags.lean ====
section
/-!
DEFINITION. The flag and field computations: STATUS, CTRL, ERRCODE as words and the interrupt line
(spec/10_state.md R18, R19, R22, R32; spec/60_exceptions.md R87).
-/

namespace Sys2Proof.Machine

/-- STATUS.TREE_VALID = 1 exactly when TREE is VALID (spec/10_state.md R26). -/
def State.treeValid (s : State) : Bool := s.tree.isSome

/-- The root of a valid tree that has one. -/
def State.root (s : State) : Option CodeTree := s.tree.bind Built.root

/-- STATUS.TREE_NONEMPTY = 1 exactly when TREE is VALID and ROOT is not NONE (R26). -/
def State.treeNonempty (s : State) : Bool := s.root.isSome

/-- STATUS as read (R19): bits 0 BUSY, 1 DONE, 2 ERR, 3 OVR, 4 TREE_VALID, 5 TREE_NONEMPTY. -/
def State.statusWord (s : State) : Word :=
  0#26 ++ BitVec.ofBool s.treeNonempty ++ BitVec.ofBool s.treeValid ++ BitVec.ofBool s.ovr ++ BitVec.ofBool s.err
    ++ BitVec.ofBool s.done ++ BitVec.ofBool s.busy

/-- CTRL as read (R18): bit 0 DONE_IE, bit 1 ERR_IE, the others 0. -/
def State.ctrlWord (s : State) : Word := 0#30 ++ BitVec.ofBool s.errIE ++ BitVec.ofBool s.doneIE

/-- A host write of CTRL stores its two fields (R18, R33). -/
def State.writeCtrl (s : State) (w : Word) : State := { s with doneIE := w.getLsbD 0, errIE := w.getLsbD 1 }

/-- The codes of the causes (spec/60_exceptions.md R87). -/
def Cause.code : Cause → BitVec 4
  | .noError => 0
  | .illegalCmd => 1
  | .noTree => 2
  | .range => 3
  | .overlap => 4
  | .absentSymbol => 5
  | .truncated => 6
  | .badCode => 7
  | .freqOverflow => 8

/-- ERRCODE as read (R22): bits [3:0] CAUSE, bits [7:4] OP, the others 0. -/
def State.errCodeWord (s : State) : Word := 0#24 ++ s.errOp ++ s.errCause.code

/-- The interrupt output (R32). -/
def State.irq (s : State) : Bool := (s.done && s.doneIE) || ((s.err || s.ovr) && s.errIE)

end Sys2Proof.Machine
end

