-- ==== Sys2Proof/Machine/Operands.lean ====
section
/-!
DEFINITION. Where a host access goes: the register window's map (spec/20_memory.md R34 to R37, R40 to R43). The
operands of a command, SRC, DST, LEN and the ranges they name, are in Ops.lean.
-/

namespace Sys2Proof.Machine

/-- The offset in the register window of a bus address: "The host reaches offset o at bus address BASE + o"
(R34). DESIGN CHOICE (log entry 10): another address does not reach HUFB. -/
def busOffset (c : Config) (addr : Nat) : Option Offset :=
  if c.base ≤ addr ∧ addr < c.base + 0x20000 then some (BitVec.ofNat 17 (addr - c.base)) else none

/-- The sixteen registers, at offsets 0x000, 0x004, ..., 0x03C in this order (spec/10_state.md R15). -/
def registers : List Target :=
  [.id, .config, .ctrl, .status, .cmd, .src, .dst, .len,
   .errcode, .errinfo, .resBits, .resBytes, .treeRoot, .totalLo, .totalHi, .nsym]

/-- The word-aligned offset of an access: "Offset bits [1:0] are ignored" (R36). -/
def alignedOffset (o : Offset) : Nat := 4 * (o.toNat / 4)

/-- What the word at aligned window offset `a` is (R35). A BUF-window word past BUF_BYTES does not exist, and
acts as a reserved offset does (R37, R41). -/
def targetAt (c : Config) (a : Nat) : Target :=
  if a < 0x00040 then registers.getD (a / 4) .reserved
  else if a < 0x00400 then .reserved
  else if a < 0x00800 then .freq (BitVec.ofNat 8 ((a - 0x00400) / 4))
  else if a < 0x00C00 then .codeLen (BitVec.ofNat 8 ((a - 0x00800) / 4))
  else if a < 0x02000 then .reserved
  else if a < 0x04000 then .codeBits (BitVec.ofNat 8 ((a - 0x02000) / 32)) ((a - 0x02000) / 4 % 8)
  else if a < 0x05FF0 then .node (BitVec.ofNat 9 ((a - 0x04000) / 16)) ((a - 0x04000) / 4 % 4)
  else if a < 0x10000 then .reserved
  else if a - 0x10000 < c.bufBytes then .buf (a - 0x10000)
  else .reserved

/-- What a host access at window offset `o` reaches (R35, R36). -/
def target (c : Config) (o : Offset) : Target := targetAt c (alignedOffset o)

/-- Writes refused while BUSY (R43): CMD, SRC, DST, LEN, FREQ and the BUF words that exist. -/
def Target.writeRefused : Target → Bool
  | .cmd => true
  | .src => true
  | .dst => true
  | .len => true
  | .freq _ => true
  | .buf _ => true
  | _ => false

/-- Reads that return 0 while BUSY (R43): FREQ, CODE_LEN, CODE_BITS, NODE and the BUF window. -/
def Target.readMasked : Target → Bool
  | .freq _ => true
  | .codeLen _ => true
  | .codeBits _ _ => true
  | .node _ _ => true
  | .buf _ => true
  | _ => false

end Sys2Proof.Machine
end

