-- ==== Sys2Proof/Machine/HostAccess.lean ====
section
/-!
DEFINITION. The host's reads and writes of the register window (spec/20_memory.md R36 to R43).
-/

namespace Sys2Proof.Machine

/-- ID (spec/10_state.md R16). -/
def idWord : Word := 0x48554642#32

/-- What a target reads while BUSY is 0 (spec/20_memory.md R35). -/
def State.readTarget (s : State) : Target → Word
  | .id => idWord
  | .config => BitVec.ofNat 32 s.config.bufBytes
  | .ctrl => s.ctrlWord
  | .status => s.statusWord
  | .cmd => s.cmd
  | .src => s.src
  | .dst => s.dst
  | .len => s.len
  | .errcode => s.errCodeWord
  | .errinfo => s.errInfo
  | .resBits => s.resBits
  | .resBytes => s.resBytes
  | .treeRoot => s.treeRootWord
  | .totalLo => s.totalLoWord
  | .totalHi => s.totalHiWord
  | .nsym => s.nsymWord
  | .freq x => s.freq.at x
  | .codeLen x => codeLenWord (s.codeAt x)
  | .codeBits x k => codeBitsWord (s.codeAt x) k
  | .node n k => s.nodeRead n k
  | .buf a => s.readBufWord a
  | .reserved => 0#32

/-- The word a host read at offset `o` returns (R38, R43): masked reads give 0 while BUSY. -/
def hostRead (s : State) (o : Offset) : Word :=
  if s.busy && (target s.config o).readMasked then 0#32 else s.readTarget (target s.config o)

/-- What a host write of `w` that is not refused does to a target (R39). Read-only targets do not change (R37). -/
def State.writeTarget (s : State) (w : Word) : Target → State
  | .ctrl => s.writeCtrl w
  | .status => s.acknowledge w
  | .cmd => s.accept w
  | .src => s.setSrc w
  | .dst => s.setDst w
  | .len => s.setLen w
  | .freq x => s.writeFreq x w
  | .buf a => s.writeBufWord a w
  | .id => s
  | .config => s
  | .errcode => s
  | .errinfo => s
  | .resBits => s
  | .resBytes => s
  | .treeRoot => s
  | .totalLo => s
  | .totalHi => s
  | .nsym => s
  | .codeLen _ => s
  | .codeBits _ _ => s
  | .node _ _ => s
  | .reserved => s

/-- A host write of `w` at offset `o` (R39, R43): refused while BUSY, with OVR set, or performed. -/
def hostWrite (s : State) (o : Offset) (w : Word) : State :=
  if s.busy && (target s.config o).writeRefused then s.overrun else s.writeTarget w (target s.config o)

end Sys2Proof.Machine
end

