-- ==== Sys2Proof/Machine/Turns.lean ====
section
/-!
DEFINITION. What one turn does (spec/20_memory.md R47): a host access, the engine's completion or reset.
-/

namespace Sys2Proof.Machine

/-- The command word the engine's next step runs: PENDING (spec/60_exceptions.md R89). -/
def State.fetch (s : State) : Option Word := s.pending

/-- The engine's step: completion when a command is pending. Otherwise no step of the engine is enabled and
nothing changes (R89; log entry 11). -/
def engineStep (s : State) : Host.Outcome State Fault Refusal :=
  match s.fetch with
  | some w => exec (decode w) s
  | none => .next s

/-- A host read at a bus address: the word goes to the host, and nothing else changes (R38). -/
def readStep (s : State) (addr : Nat) : State :=
  match busOffset s.config addr with
  | some o => s.give (hostRead s o)
  | none => s

/-- A host write at a bus address. -/
def writeStep (s : State) (addr : Nat) (w : Word) : State :=
  match busOffset s.config addr with
  | some o => hostWrite s o w
  | none => s

/-- One turn (R47). -/
def takeTurn (s : State) : Turn → Host.Outcome State Fault Refusal
  | .read addr => .next (readStep s addr)
  | .write addr w => .next (writeStep s addr w)
  | .engine => engineStep s
  | .reset => .next s.resetBlock

/-- The state in which the very next step runs the command word `w`: it has been accepted, as a host write to CMD
accepts it (R88), and the next turn is the engine's. -/
def State.withCommand (s : State) (w : Word) : State := (s.accept w).setTurns (.engine :: s.turns)

end Sys2Proof.Machine
end

