-- ==== Sys2Proof/Machine/Step.lean ====
section
/-!
DEFINITION. One step of HUFB: the next turn; with no turn left, the completion that is still owed, or nothing.
-/

namespace Sys2Proof.Machine

/-- Every step is one host access, one completion or a reset (spec/20_memory.md R47). With no turn left, a
pending command completes (weak fairness, spec/70_reset_and_hazards.md R108) and an idle block waits (R101);
log entry 2. -/
def step (s : State) : Host.Outcome State Fault Refusal :=
  match s.turns with
  | [] => engineStep s
  | t :: ts => takeTurn (s.setTurns ts) t

/-- `s` with the instruction of an opcode-table row about to run. HUFB fetches no instruction from memory
(spec/10_state.md R14): a command comes from a host write to CMD, and this is the state after its acceptance
with the engine's turn next (log entry 7). A row longer than a command word changes nothing. -/
def State.withFetchWord (s : State) (nbits w : Nat) : State :=
  match tableWord nbits w with
  | some c => s.withCommand c
  | none => s

end Sys2Proof.Machine
end

