-- ==== Sys2Proof/Machine/HostProgram.lean ====
section
/-!
DEFINITION. The host-program notation as turns (spec/30_encoding.md R57, R58). Offsets are window offsets, at bus
address BASE + offset.
-/

namespace Sys2Proof.Machine

/-- `W off, val` (R57). -/
def hostW (c : Config) (off : Nat) (val : Word) : List Turn := [.write (c.base + off) val]

/-- `R off` (R57). -/
def hostR (c : Config) (off : Nat) : List Turn := [.read (c.base + off)]

/-- `CMD m` (R57): `W 0x010, word`. -/
def hostCmd (c : Config) (i : Instr) : List Turn := hostW c 0x010 (encode i)

/-- `WAIT` (R58): STATUS is read until BUSY is 0. `polls` reads come before the completion step, one after it. -/
def hostWait (c : Config) (polls : Nat) : List Turn :=
  (List.replicate polls (hostR c 0x00C)).flatten ++ [.engine] ++ hostR c 0x00C

/-- `SETFREQ s, v` (R58). -/
def hostSetFreq (c : Config) (x : Byte) (v : Word) : List Turn := hostW c (0x400 + 4 * x.toNat) v

/-- `word_i` of LOADBUF: bytes 4i to 4i + 3, a byte past the last one being 0 (R58). -/
def loadWord (bytes : List Byte) (i : Nat) : Word :=
  bytes.getD (4 * i + 3) 0 ++ bytes.getD (4 * i + 2) 0 ++ bytes.getD (4 * i + 1) 0 ++ bytes.getD (4 * i) 0

/-- `LOADBUF off, b0 b1 ... bm` (R58). -/
def hostLoadBuf (c : Config) (off : Nat) (bytes : List Byte) : List Turn :=
  (List.range ((bytes.length + 3) / 4)).flatMap fun i => hostW c (0x10000 + off + 4 * i) (loadWord bytes i)

/-- `RUN m src, len, dst` (R58), the completion coming after `polls` reads of STATUS. -/
def hostRun (c : Config) (i : Instr) (src len dst : Word) (polls : Nat) : List Turn :=
  hostW c 0x014 src ++ hostW c 0x01C len ++ hostW c 0x018 dst ++ hostCmd c i ++ hostWait c polls

end Sys2Proof.Machine
end

