-- ==== Sys2Proof/Safety.lean ====
section
/-!
DEFINITION. What claims about HUFB are stated with: the invariant of every reachable state, the end of a run
(spec/60_exceptions.md R98), and measures of trees and codes.
-/

namespace Sys2Proof.Machine

/-! Trees. -/

/-- The leaves' symbols, left to right. -/
def CodeTree.leaves : CodeTree → List Byte
  | .leaf s _ => [s]
  | .node _ _ _ l r => l.leaves ++ r.leaves

/-- The leaves' symbols and weights, left to right. -/
def CodeTree.leafWeights : CodeTree → List (Byte × Weight)
  | .leaf s w => [(s, w)]
  | .node _ _ _ l r => l.leafWeights ++ r.leafWeights

/-- The internal nodes' indices, each subtree's own before its children's. -/
def CodeTree.internals : CodeTree → List NodeIndex
  | .leaf _ _ => []
  | .node i _ _ l r => i :: (l.internals ++ r.internals)

/-- Every node of the tree, the root first. -/
def CodeTree.nodes : CodeTree → List CodeTree
  | .leaf s w => [.leaf s w]
  | .node i s w l r => .node i s w l r :: (l.nodes ++ r.nodes)

/-- The length of the longest path from the root to a leaf. -/
def CodeTree.depth : CodeTree → Nat
  | .leaf _ _ => 0
  | .node _ _ _ l r => max l.depth r.depth + 1

/-- The leaf a path leads to, '0' going left and '1' going right, if it ends at a leaf. -/
def CodeTree.follow : CodeTree → Codeword → Option Byte
  | .leaf s _, [] => some s
  | .leaf _ _, _ :: _ => none
  | .node _ _ _ _ _, [] => none
  | .node _ _ _ l r, b :: p => if b then r.follow p else l.follow p

/-- The symbols whose entry is not 0, ascending. -/
def presentSymbols (freq : Table Word) : List Byte := symbols.filter fun x => freq.at x != 0#32

/-- The sum of all FREQ entries. -/
def freqTotal (freq : Table Word) : Nat := (symbols.map fun x => (freq.at x).toNat).sum

/-! Words the statements use. -/

/-- The window offset of byte offset `n` (spec/20_memory.md R34). -/
def off (n : Nat) : Offset := BitVec.ofNat 17 n

/-- Only the read-only window offsets of spec/20_memory.md R35, aligned: registers, CODE_LEN, CODE_BITS, NODE. -/
def readOnlyOffset (a : Nat) : Prop :=
  a ∈ [0x000, 0x004, 0x020, 0x024, 0x028, 0x02C, 0x030, 0x034, 0x038, 0x03C] ∨
    (0x00800 ≤ a ∧ a < 0x00C00) ∨ (0x02000 ≤ a ∧ a < 0x04000) ∨ (0x04000 ≤ a ∧ a < 0x05FF0)

/-- The reserved window offsets of spec/20_memory.md R35, aligned. -/
def reservedOffset (a : Nat) : Prop :=
  (0x00040 ≤ a ∧ a < 0x00400) ∨ (0x00C00 ≤ a ∧ a < 0x02000) ∨ (0x05FF0 ≤ a ∧ a < 0x10000)

/-- The window offsets whose writes are refused while BUSY (R43): CMD, SRC, DST, LEN, FREQ, and BUF-window words
that exist. -/
def refusedOffset (c : Config) (a : Nat) : Prop :=
  a ∈ [0x010, 0x014, 0x018, 0x01C] ∨ (0x00400 ≤ a ∧ a < 0x00800) ∨ (0x10000 ≤ a ∧ a < 0x10000 + c.bufBytes)

/-- The window offsets whose reads return 0 while BUSY (R43): FREQ, CODE_LEN, CODE_BITS, NODE, the BUF window. -/
def maskedOffset (a : Nat) : Prop :=
  (0x00400 ≤ a ∧ a < 0x00C00) ∨ (0x02000 ≤ a ∧ a < 0x05FF0) ∨ 0x10000 ≤ a

/-- The state of the block after reset (spec/70_reset_and_hazards.md R99), read through its registers: every
register its reset value, FREQ 0, TREE INVALID, PENDING NONE, every BUF byte the draw of this reset, IRQ 0. -/
structure State.AtReset (s : State) : Prop where
  id : hostRead s (off 0x000) = 0x48554642#32
  config : hostRead s (off 0x004) = BitVec.ofNat 32 s.config.bufBytes
  registers : ∀ n < 14, hostRead s (off (0x008 + 4 * n)) = 0#32
  freq : ∀ x, s.freq.at x = 0#32
  tree : s.tree = none
  pending : s.pending = none
  buf : ∀ a, s.readByte a = Config.bufDraw s.epoch a
  irq : s.irq = false

/-- The strict order of SEQ (spec/41_tree_build.md R64): by key, ascending. -/
def Ascending (seq : List CodeTree) : Prop := seq.Pairwise fun a b => keyLt a b = true

/-- SEQ after the leaves and `n` merges of a BUILD (R67). -/
def seqAfter (freq : Table Word) (n : Nat) : List CodeTree := mergeSeq n 0 (leafSeq freq symbols)

/-- The bits of `c` stand in the stream at `base` from bit `t` on. -/
def State.streamHas (s : State) (base t : Nat) (c : Codeword) : Prop :=
  ∀ j < c.length, s.bitAt base (t + j) = c.getD j false

/-- The total symbol count of a tree: WEIGHT(ROOT), 0 for the empty tree (spec/44_decode.md R84). -/
def Built.total (b : Built) : Nat :=
  match b.root with
  | some r => r.weight.toNat
  | none => 0

/-- Every byte has a codeword. -/
def allCoded (code : Table Codeword) (xs : List Byte) : Prop := ∀ x ∈ xs, code.at x ≠ []

/-- Every byte of BUF outside [a, a+n) reads the same in both states. -/
def sameBufOutside (s t : State) (a n : Nat) : Prop :=
  ∀ k, k < a ∨ a + n ≤ k → t.readByte k = s.readByte k

/-- A completed command's state (spec/60_exceptions.md R89): `s` with the completion registers written, for the
command word `w`, and BUF as `m`. -/
def State.completed (s : State) (w : Word) (c : Cause) (info : Word) (bits bytes : Nat) (m : Memory) : State :=
  { s with
    errCause := c, errOp := opField w, errInfo := info, err := s.err || decide (c ≠ .noError), done := true,
    pending := none, resBits := BitVec.ofNat 32 bits, resBytes := BitVec.ofNat 32 bytes, buf := m }

/-- The conditions under which the descent of DECODE starts (R84), for a built tree: the ranges lie in BUF and do
not overlap. -/
def State.decodeReady (s : State) (f : Table Word) : Prop :=
  s.tree = some (buildTree f) ∧ s.src.toNat + s.len.toNat ≤ s.config.bufBytes ∧
    s.dst.toNat + (buildTree f).total ≤ s.config.bufBytes ∧
    ¬ (0 < s.len.toNat ∧ 0 < (buildTree f).total ∧ s.src.toNat < s.dst.toNat + (buildTree f).total ∧
      s.dst.toNat < s.src.toNat + s.len.toNat)

/-! The invariant. -/

/-- What holds after reset and after every step. -/
structure State.Inv (s : State) : Prop where
  /-- BUF is in canonical form. -/
  bufCanonical : Memory.wf s.buf = true
  /-- BUF has offsets 0 to BUF_BYTES - 1 only (spec/10_state.md R29). -/
  bufInRange : ∀ cell ∈ s.buf, cell.1 < s.config.bufBytes
  /-- A valid tree and its code table are those BUILD makes of the current FREQ (R19, R26). -/
  treeOfFreq : ∀ b, s.tree = some b → b = buildTree s.freq
  /-- While BUSY, CMD reads the pending word and DONE is 0 (R20, R88). -/
  pendingIsCmd : ∀ w, s.pending = some w → s.cmd = w ∧ s.done = false
  /-- ERRINFO is 0 when ERRCODE says the latest command succeeded (R23). -/
  infoZero : s.errCause = .noError → s.errInfo = 0#32

/-! Runs. -/

/-- The turn is one of the host's: an access. -/
def Turn.isAccess : Turn → Bool
  | .read _ => true
  | .write _ _ => true
  | .engine => false
  | .reset => false

/-- The end of a run (spec/60_exceptions.md R98): the host has made its last access and PENDING = NONE. What else is
still to come, an idle engine or reset, is no part of the run. -/
def State.final (s : State) : Prop := (∀ t ∈ s.turns, t.isAccess = false) ∧ s.pending = none

/-- The run from `s` ends after `n` steps with outcome `t`, the first final state on its way: "Its outcome is the
register values, FREQ, TREE, CODE and BUF at that point" (R98). -/
def State.endsIn (s : State) (n : Nat) (t : State) : Prop :=
  Sys2Proof.core.run n s = .next t ∧ t.final ∧ ∀ k < n, ∀ u : State, Sys2Proof.core.run k s = .next u → ¬ u.final

/-- The step neither faults nor refuses: a safe step. -/
def State.safeStep (s : State) : Prop := ∃ t, step s = .next t

end Sys2Proof.Machine
end

