-- ==== Sys2Proof/Certificates/Slice0/Obligations.lean ====
section
/-!
DEFINITION. What is claimed of HUFB, for the provers. Each statement's docstring names the rule of spec/ it
formalises. A host access at window offset `o` is the turn at bus address BASE + o; `hostRead` and `hostWrite` are
its effect.
-/

open Sys2Proof Sys2Proof.Machine

/-! Reset, identification, the register window. -/

/-- R99, R100: power-on and every reset turn, whatever command is pending. Each reset draws BUF anew: the counter
that says so is the model's own, log entry 3. The last clause: a byte of BUF stays until a host write or an ENCODE or
DECODE writes it. -/
def Obligations.ResetPutsEveryRegisterAtItsResetValue : Prop :=
  State.reset.AtReset ∧
  (∀ (s : State) (ts : List Turn), s.turns = .reset :: ts →
    ∃ t, step s = .next t ∧ t.AtReset ∧ t.epoch = s.epoch + 1 ∧ t.config = s.config ∧ t.turns = ts) ∧
  ∀ (s t : State) (a : Nat), step s = .next t → (∀ ts, s.turns ≠ .reset :: ts) → t.readByte a ≠ s.readByte a →
    (∃ addr w o ts, s.turns = .write addr w :: ts ∧ busOffset s.config addr = some o ∧
      alignedOffset o = 0x10000 + 4 * (a / 4)) ∨
    ((s.pending = some 0x00000004#32 ∨ s.pending = some 0x00000005#32) ∧ t.pending = none ∧
      s.dst.toNat ≤ a ∧ a < s.dst.toNat + t.resBytes.toNat)

/-- R16, R17: in every state ID and CONFIG read their constants and a write changes nothing. BUF_BYTES is in the
range R6 gives, and State.reset has its default. -/
def Obligations.IdAndConfigAreHardwired : Prop :=
  hostRead State.reset (off 0x004) = 0x00010000#32 ∧
  ∀ (s : State) (w : Word),
    s.config.bufBytes % 4 = 0 ∧ 4 ≤ s.config.bufBytes ∧ s.config.bufBytes ≤ 65536 ∧
    hostRead s (off 0x000) = 0x48554642#32 ∧ (hostRead s (off 0x004)).toNat = s.config.bufBytes ∧
    hostWrite s (off 0x000) w = s ∧ hostWrite s (off 0x004) w = s

/-- R36, with R34's BASE + o: an access turn is one step, answered at once, and offset bits [1:0] do not matter. -/
def Obligations.AccessesAreWholeWordSteps : Prop :=
  (∀ (s : State) (o : Offset) (w : Word) (ts : List Turn), s.turns = .write (s.config.base + o.toNat) w :: ts →
    step s = .next (hostWrite (s.setTurns ts) o w)) ∧
  (∀ (s : State) (o : Offset) (ts : List Turn), s.turns = .read (s.config.base + o.toNat) :: ts →
    step s = .next { s with turns := ts, got := hostRead s o :: s.got }) ∧
  (∀ (s : State) (o o' : Offset) (w : Word), o.toNat / 4 = o'.toNat / 4 →
    hostRead s o = hostRead s o' ∧ hostWrite s o w = hostWrite s o' w)

/-- R38: a host read changes only the host's own record, and two reads of one offset with nothing but reads between
them return the same word. -/
def Obligations.HostReadsChangeNoState : Prop :=
  (∀ (s : State) (addr : Nat) (ts : List Turn), s.turns = .read addr :: ts →
    ∃ g, step s = .next { s with turns := ts, got := g }) ∧
  ∀ (s : State) (addr : Nat) (o : Offset) (others : List Nat) (ts : List Turn),
    s.turns = .read addr :: (others.map .read ++ .read addr :: ts) → busOffset s.config addr = some o →
    ∃ g, Sys2Proof.core.run (others.length + 2) s =
      .next { s with turns := ts, got := hostRead s o :: g ++ hostRead s o :: s.got }

/-- R37 and R33: reserved offsets and bits read 0, writes to them and to what is read-only do nothing, BUSY or not;
CMD has no reserved bit to the host, and a reserved bit of an accepted word makes it illegal. -/
def Obligations.ReservedAndReadOnlyIgnoreWrites : Prop :=
  ∀ (s : State) (o : Offset) (w : Word),
    (reservedOffset (alignedOffset o) → hostRead s o = 0#32) ∧
    (reservedOffset (alignedOffset o) ∨ readOnlyOffset (alignedOffset o) → hostWrite s o w = s) ∧
    hostWrite s (off 0x008) w = hostWrite s (off 0x008) (w &&& 0x00000003#32) ∧
    hostWrite s (off 0x00C) w = hostWrite s (off 0x00C) (w &&& 0x0000000E#32) ∧
    (hostRead s (off 0x004)).toNat < 2 ^ 17 ∧ (hostRead s (off 0x008)).toNat < 2 ^ 2 ∧
    (hostRead s (off 0x00C)).toNat < 2 ^ 6 ∧
    (hostRead s (off 0x020)).toNat < 2 ^ 8 ∧ (hostRead s (off 0x030)).toNat < 2 ^ 9 ∧
    (hostRead s (off 0x038)).toNat < 2 ^ 8 ∧ (hostRead s (off 0x03C)).toNat < 2 ^ 9 ∧
    hostRead s (off 0x010) = s.cmd ∧ (w.toNat / 16 ≠ 0 → decode w = .illegal w)

/-- R40: BUF words are little-endian, read and written whole; no other byte and no other state changes. -/
def Obligations.BufWindowWordsAreLittleEndian : Prop :=
  ∀ (s : State) (k : Nat) (w : Word), s.pending = none → 4 * k < s.config.bufBytes →
    (∀ i < 4, (hostRead s (off (0x10000 + 4 * k))).extractLsb' (8 * i) 8 = s.readByte (4 * k + i)) ∧
    ∃ t, hostWrite s (off (0x10000 + 4 * k)) w = t ∧ (∀ i < 4, t.readByte (4 * k + i) = w.extractLsb' (8 * i) 8) ∧
      sameBufOutside s t (4 * k) 4 ∧ t = { s with buf := t.buf }

/-- R41: BUF-window words past BUF_BYTES read 0 and ignore writes in every state. -/
def Obligations.BufWordsPastTheEndDoNotExist : Prop :=
  ∀ (s : State) (k : Nat) (w : Word), k < 0x4000 → s.config.bufBytes ≤ 4 * k →
    hostRead s (off (0x10000 + 4 * k)) = 0#32 ∧ hostWrite s (off (0x10000 + 4 * k)) w = s

/-- R42 and R59: the FREQ region. An idle write stores the word and invalidates the tree; a busy one is refused. -/
def Obligations.FreqWriteStoresAndInvalidates : Prop :=
  ∀ (s : State) (x : Byte) (w : Word),
    (s.pending = none → ∃ t, hostWrite s (off (0x00400 + 4 * x.toNat)) w = t ∧
      t = { s with freq := t.freq, tree := none } ∧ t.freq.at x = w ∧ (∀ y, y ≠ x → t.freq.at y = s.freq.at y) ∧
      hostRead s (off (0x00400 + 4 * x.toNat)) = s.freq.at x ∧
      (hostRead t (off 0x00C)).getLsbD 4 = false ∧ (hostRead t (off 0x00C)).getLsbD 5 = false) ∧
    (s.pending ≠ none → hostRead s (off (0x00400 + 4 * x.toNat)) = 0#32 ∧
      hostWrite s (off (0x00400 + 4 * x.toNat)) w = { s with ovr := true })

/-- R43: refused, masked and all other accesses while BUSY. The last two clauses compare with the same state when
BUSY is 0; a read of STATUS differs in the BUSY bit alone. -/
def Obligations.AccessesWhileBusy : Prop :=
  ∀ (s : State) (o : Offset) (w : Word), s.pending ≠ none →
    (refusedOffset s.config (alignedOffset o) → hostWrite s o w = { s with ovr := true }) ∧
    (maskedOffset (alignedOffset o) → hostRead s o = 0#32) ∧
    (¬ refusedOffset s.config (alignedOffset o) →
      hostWrite s o w = { hostWrite { s with pending := none } o w with pending := s.pending }) ∧
    (¬ maskedOffset (alignedOffset o) → alignedOffset o ≠ 0x00C → hostRead s o = hostRead { s with pending := none } o) ∧
    (alignedOffset o = 0x00C → hostRead s o = hostRead { s with pending := none } o ||| 1#32)

/-- R43's promise, with R47: a write or read turn while BUSY changes nothing that the pending command's completion
reads or writes. -/
def Obligations.HostCannotDisturbARunningCommand : Prop :=
  ∀ (s t : State) (w : Word) (addr : Nat) (v : Word), s.pending = some w →
    t = writeStep s addr v ∨ t = readStep s addr →
    ∃ u u', exec (decode w) s = .next u ∧ exec (decode w) t = .next u' ∧
      u'.freq = u.freq ∧ u'.tree = u.tree ∧ u'.buf = u.buf ∧ u'.epoch = u.epoch ∧
      u'.src = u.src ∧ u'.dst = u.dst ∧ u'.len = u.len ∧ u'.cmd = u.cmd ∧ u'.pending = u.pending ∧ u'.done = u.done ∧
      u'.errCause = u.errCause ∧ u'.errOp = u.errOp ∧ u'.errInfo = u.errInfo ∧
      u'.resBits = u.resBits ∧ u'.resBytes = u.resBytes

/-- R43's other promise: while BUSY no read depends on FREQ, on the code table or on BUF. -/
def Obligations.NoReadWhileBusySeesATable : Prop :=
  ∀ (s : State) (f : Table Word) (c : Table Codeword) (m : Memory) (e : Nat) (o : Offset), s.pending ≠ none →
    hostRead { s with freq := f, tree := s.tree.map fun b => { b with code := c }, buf := m, epoch := e } o =
      hostRead s o

/-- R18, R21, R39 for the registers: what CTRL, SRC, DST and LEN read in every state; and, BUSY being 0, what each host
write stores, and that a STATUS write is idempotent. -/
def Obligations.RegisterWritesStoreTheirFields : Prop :=
  (∀ s : State, (hostRead s (off 0x008)).getLsbD 0 = s.doneIE ∧ (hostRead s (off 0x008)).getLsbD 1 = s.errIE ∧
    hostRead s (off 0x014) = s.src ∧ hostRead s (off 0x018) = s.dst ∧ hostRead s (off 0x01C) = s.len) ∧
  ∀ (s : State) (w : Word), s.pending = none →
    hostWrite s (off 0x008) w = { s with doneIE := w.getLsbD 0, errIE := w.getLsbD 1 } ∧
    hostWrite s (off 0x00C) w =
      { s with done := s.done && !w.getLsbD 1, err := s.err && !w.getLsbD 2, ovr := s.ovr && !w.getLsbD 3 } ∧
    hostWrite s (off 0x014) w = { s with src := w } ∧ hostWrite s (off 0x018) w = { s with dst := w } ∧
    hostWrite s (off 0x01C) w = { s with len := w } ∧
    hostWrite (hostWrite s (off 0x00C) w) (off 0x00C) w = hostWrite s (off 0x00C) w

/-- R88: every word is accepted, in one step, and nothing else changes; while BUSY it is refused. -/
def Obligations.AcceptanceLatchesEveryWord : Prop :=
  ∀ (s : State) (w : Word),
    (s.pending = none → hostWrite s (off 0x010) w = { s with cmd := w, pending := some w, done := false }) ∧
    (s.pending ≠ none → hostWrite s (off 0x010) w = { s with ovr := true })

/-- R19, R26, R30: the bits of STATUS as read. -/
def Obligations.StatusReadsItsFlags : Prop :=
  ∀ s : State,
    ((hostRead s (off 0x00C)).getLsbD 0 = true ↔ s.pending ≠ none) ∧
    (hostRead s (off 0x00C)).getLsbD 1 = s.done ∧ (hostRead s (off 0x00C)).getLsbD 2 = s.err ∧
    (hostRead s (off 0x00C)).getLsbD 3 = s.ovr ∧
    ((hostRead s (off 0x00C)).getLsbD 4 = true ↔ s.tree ≠ none) ∧
    ((hostRead s (off 0x00C)).getLsbD 5 = true ↔ ∃ b r, s.tree = some b ∧ b.root = some r)

/-- R19 of ERR, over all steps: set only by a completion that raised, cleared only by the host's write of 1 or
by reset. -/
def Obligations.ErrIsSticky : Prop :=
  ∀ s t : State, step s = .next t →
    (s.err = false → t.err = true → s.pending ≠ none ∧ t.pending = none ∧ t.errCause ≠ .noError) ∧
    (s.err = true → t.err = false →
      (∃ ts, s.turns = .reset :: ts) ∨
      ∃ addr w o ts, s.turns = .write addr w :: ts ∧ busOffset s.config addr = some o ∧ alignedOffset o = 0x00C ∧
        w.getLsbD 2 = true)

/-- R90 of OVR, over all steps: a refused write sets it and changes nothing else; it is set by nothing else, and
stays until the host writes 1 to it, or reset. -/
def Obligations.OvrIsSetByRefusedWritesAndSticky : Prop :=
  (∀ (s : State) (o : Offset) (w : Word), s.pending ≠ none → refusedOffset s.config (alignedOffset o) →
    hostWrite s o w = { s with ovr := true }) ∧
  ∀ s t : State, step s = .next t →
    (s.ovr = false → t.ovr = true → s.pending ≠ none ∧
      ∃ addr w o ts, s.turns = .write addr w :: ts ∧ busOffset s.config addr = some o ∧
        refusedOffset s.config (alignedOffset o)) ∧
    (s.ovr = true → t.ovr = false →
      (∃ ts, s.turns = .reset :: ts) ∨
      ∃ addr w o ts, s.turns = .write addr w :: ts ∧ busOffset s.config addr = some o ∧ alignedOffset o = 0x00C ∧
        w.getLsbD 3 = true)

/-- R22, R23, R24, "Written only by completion": over all steps but reset. -/
def Obligations.OnlyCompletionWritesResults : Prop :=
  ∀ s t : State, step s = .next t → (∀ ts, s.turns ≠ .reset :: ts) → ¬ (s.pending ≠ none ∧ t.pending = none) →
    t.errCause = s.errCause ∧ t.errOp = s.errOp ∧ t.errInfo = s.errInfo ∧ t.resBits = s.resBits ∧
      t.resBytes = s.resBytes

/-- R32: IRQ is a function of STATUS and CTRL, and 0 at reset. -/
def Obligations.IrqIsALevelOfStatusAndCtrl : Prop :=
  (∀ s : State, s.irq =
    (((hostRead s (off 0x00C)).getLsbD 1 && (hostRead s (off 0x008)).getLsbD 0) ||
      (((hostRead s (off 0x00C)).getLsbD 2 || (hostRead s (off 0x00C)).getLsbD 3) && (hostRead s (off 0x008)).getLsbD 1))) ∧
  State.reset.irq = false

/-! Readout of the tree and of the code table. -/

/-- R27: TREE_ROOT, TOTAL_LO, TOTAL_HI and NSYM of a built tree, and 0 without a root. -/
def Obligations.TreeRegistersReadTheRoot : Prop :=
  ∀ (s : State) (f : Table Word),
    ((s.tree = none ∨ s.tree = some (buildTree f) ∧ buildRoot f = none) →
      hostRead s (off 0x030) = 0#32 ∧ hostRead s (off 0x034) = 0#32 ∧ hostRead s (off 0x038) = 0#32 ∧
        hostRead s (off 0x03C) = 0#32) ∧
    (∀ r, s.tree = some (buildTree f) → buildRoot f = some r →
      (hostRead s (off 0x030)).toNat = r.index.toNat ∧
      (hostRead s (off 0x034)).toNat + 2 ^ 32 * (hostRead s (off 0x038)).toNat = r.weight.toNat ∧
      (hostRead s (off 0x03C)).toNat = r.leaves.length)

/-- R76, R77: CODE_LEN and CODE_BITS of a codeword of at most 255 bits (R28), 0 otherwise, and not writable. -/
def Obligations.CodeTableReadsAsLaidOut : Prop :=
  ∀ (s : State) (x : Byte),
    (∀ b : Built, s.pending = none → s.tree = some b → (b.code.at x).length ≤ 255 →
      (hostRead s (off (0x00800 + 4 * x.toNat))).toNat = (b.code.at x).length ∧
      ∀ k < 8, ∀ j < 32, (hostRead s (off (0x02000 + 32 * x.toNat + 4 * k))).getLsbD (31 - j) =
        (b.code.at x).getD (32 * k + j) false) ∧
    (s.pending ≠ none ∨ s.tree = none →
      hostRead s (off (0x00800 + 4 * x.toNat)) = 0#32 ∧
      ∀ k < 8, hostRead s (off (0x02000 + 32 * x.toNat + 4 * k)) = 0#32) ∧
    ∀ w : Word, hostWrite s (off (0x00800 + 4 * x.toNat)) w = s ∧
      ∀ k < 8, hostWrite s (off (0x02000 + 32 * x.toNat + 4 * k)) w = s

/-- R79: the four words of a node of a built tree, with the indices of its two children or 0 for a leaf; 0 where there
is no node; and not writable. -/
def Obligations.NodeRegionReadsTheTree : Prop :=
  ∀ (s : State) (n : Nat), n ≤ 510 →
    (∀ (f : Table Word) (r t : CodeTree), s.pending = none → s.tree = some (buildTree f) → buildRoot f = some r →
      t ∈ r.nodes → t.index.toNat = n →
      hostRead s (off (0x04000 + 16 * n)) =
        1#1 ++ 0#21 ++ BitVec.ofBool (decide (n = r.index.toNat)) ++ BitVec.ofBool (decide (n < 256)) ++ t.sym ∧
      (∀ i y w left right, t = .node i y w left right →
        hostRead s (off (0x04000 + 16 * n + 4)) = 0#7 ++ right.index ++ 0#7 ++ left.index) ∧
      (∀ x w, t = .leaf x w → hostRead s (off (0x04000 + 16 * n + 4)) = 0#32) ∧
      (hostRead s (off (0x04000 + 16 * n + 8))).toNat + 2 ^ 32 * (hostRead s (off (0x04000 + 16 * n + 12))).toNat =
        t.weight.toNat) ∧
    ((s.pending ≠ none ∨ s.tree = none ∨
        ∃ f, s.tree = some (buildTree f) ∧ ∀ r, buildRoot f = some r → ∀ t ∈ r.nodes, t.index.toNat ≠ n) →
      ∀ k < 4, hostRead s (off (0x04000 + 16 * n + 4 * k)) = 0#32) ∧
    ∀ k < 4, ∀ w : Word, hostWrite s (off (0x04000 + 16 * n + 4 * k)) w = s

/-- R80: while TREE is INVALID every readout of it is 0 and ENCODE and DECODE raise NO_TREE. -/
def Obligations.InvalidTreeIsUnobservable : Prop :=
  ∀ s : State, s.tree = none →
    (∀ o : Offset, (0x00800 ≤ alignedOffset o ∧ alignedOffset o < 0x00C00) ∨
        (0x02000 ≤ alignedOffset o ∧ alignedOffset o < 0x05FF0) ∨ (0x030 ≤ alignedOffset o ∧ alignedOffset o < 0x040) →
      hostRead s o = 0#32) ∧
    exec .encode s = .next (s.completed 0x00000004#32 .noTree 0#32 0 0 s.buf) ∧
    exec .decode s = .next (s.completed 0x00000005#32 .noTree 0#32 0 0 s.buf)

/-! Decoding, completion, steps. -/

/-- R53: the five words, written out as R52 and R53 give them, and every other word. -/
def Obligations.CommandWordsDecodeAsTabled : Prop :=
  decode 0b00000000000000000000000000000001#32 = .clrfreq ∧ decode 0b00000000000000000000000000000010#32 = .count ∧
  decode 0b00000000000000000000000000000011#32 = .build ∧ decode 0b00000000000000000000000000000100#32 = .encode ∧
  decode 0b00000000000000000000000000000101#32 = .decode ∧
  ∀ w : Word, w.toNat = 0 ∨ 6 ≤ w.toNat → decode w = .illegal w

/-- Decoding and encoding agree, both ways: every instruction that is well formed, every word. -/
def Obligations.DecodeAndEncodeAgree : Prop :=
  (∀ i : Instr, i.wellFormed = true → decode (encode i) = i) ∧
  ∀ w : Word, encode (decode w) = w ∧ (decode w).wellFormed = true

/-- R47, R89: the step whose turn is the engine's is exec of the decoded pending word. The first clause is the model's
choice, log entry 2: with no turn left, the step is the completion still owed. -/
def Obligations.StepRunsTheDecodedCommand : Prop :=
  ∀ (s : State) (w : Word) (i : Instr), s.pending = some w → decode w = i →
    (s.turns = [] → step s = exec i s) ∧ ∀ ts, s.turns = .engine :: ts → step s = exec i (s.setTurns ts)

/-- No step faults or refuses: HUFB has no traps and no bus errors. -/
def Obligations.EveryStepIsSafe : Prop := ∀ s : State, s.safeStep

/-- R98 with the weak fairness of R108 (the model's choice, log entry 2, for what follows the last turn): every run
comes to its end, at most one completion after its last turn, and has an outcome, its first final state. A final state
stays final, and nothing in it changes but the turns, unless reset comes. Last, when the turns are taken no command is
pending. -/
def Obligations.EveryRunEnds : Prop :=
  (∀ s : State, ∃ n t, n ≤ s.turns.length + 1 ∧ s.endsIn n t) ∧
  (∀ s t : State, s.final → step s = .next t →
    t.final ∧ ((∀ ts, s.turns ≠ .reset :: ts) → t = { s with turns := s.turns.tail })) ∧
  ∀ s : State, ∃ t : State, Sys2Proof.core.run (s.turns.length + 1) s = .next t ∧ t.turns = [] ∧ t.pending = none

/-- R89: what every completion records, as the host reads it. The first clauses: the causes' numbers (R87), and what
ERRCODE, ERRINFO, RES_BITS and RES_BYTES read in every state (R22, R23, R24, R35). -/
def Obligations.CompletionRecordsTheOutcome : Prop :=
  Cause.noError.code = 0#4 ∧ Cause.illegalCmd.code = 1#4 ∧ Cause.noTree.code = 2#4 ∧ Cause.range.code = 3#4 ∧
  Cause.overlap.code = 4#4 ∧ Cause.absentSymbol.code = 5#4 ∧ Cause.truncated.code = 6#4 ∧ Cause.badCode.code = 7#4 ∧
  Cause.freqOverflow.code = 8#4 ∧
  (∀ s : State, hostRead s (off 0x020) = 0#24 ++ s.errOp ++ s.errCause.code ∧ hostRead s (off 0x024) = s.errInfo ∧
    hostRead s (off 0x028) = s.resBits ∧ hostRead s (off 0x02C) = s.resBytes) ∧
  ∀ (i : Instr) (s : State), ∃ t, exec i s = .next t ∧ t.pending = none ∧ t.done = true ∧
    (hostRead t (off 0x020)).toNat = 16 * ((encode i).toNat % 16) + t.errCause.code.toNat ∧
    (t.errCause = .noError → hostRead t (off 0x024) = 0#32 ∧ t.err = s.err) ∧
    (t.errCause ≠ .noError → t.err = true)

/-- R56, the writes column, of every command in every state: what no command, and what not this command, writes. -/
def Obligations.CommandsWriteOnlyTheirOperands : Prop :=
  ∀ (i : Instr) (s t : State), exec i s = .next t →
    t.config = s.config ∧ t.doneIE = s.doneIE ∧ t.errIE = s.errIE ∧ t.ovr = s.ovr ∧ t.cmd = s.cmd ∧ t.src = s.src ∧
    t.dst = s.dst ∧ t.len = s.len ∧ t.epoch = s.epoch ∧ t.turns = s.turns ∧ t.got = s.got ∧
    (i ≠ .clrfreq → i ≠ .count → t.freq = s.freq) ∧
    (i ≠ .clrfreq → i ≠ .count → i ≠ .build → t.tree = s.tree) ∧
    (i ≠ .encode → i ≠ .decode → ∀ a, t.readByte a = s.readByte a) ∧
    (i = .encode ∨ i = .decode → sameBufOutside s t s.dst.toNat t.resBytes.toNat)

/-! CLRFREQ, COUNT, illegal words. -/

/-- R60: CLRFREQ's whole effect. -/
def Obligations.ClrfreqClearsAndInvalidates : Prop :=
  ∀ s : State, exec .clrfreq s =
    .next { s.completed 0x00000001#32 .noError 0#32 0 0 s.buf with freq := Vector.replicate 256 0#32, tree := none }

/-- R61: COUNT's whole effect, its two errors and its success (log entry 21, the model's choice, for an empty input
past the end of BUF). -/
def Obligations.CountAddsByteCounts : Prop :=
  ∀ (s : State) (c : Byte → Nat),
    (∀ x, c x = (List.range s.len.toNat).countP fun i => decide (s.readByte (s.src.toNat + i) = x)) →
    (s.config.bufBytes < s.src.toNat + s.len.toNat →
      exec .count s = .next (s.completed 0x00000002#32 .range 0#32 0 0 s.buf)) ∧
    (s.src.toNat + s.len.toNat ≤ s.config.bufBytes → ∀ x,
      2 ^ 32 - 1 < (s.freq.at x).toNat + c x → (∀ y < x, (s.freq.at y).toNat + c y ≤ 2 ^ 32 - 1) →
      exec .count s = .next (s.completed 0x00000002#32 .freqOverflow (x.zeroExtend 32) 0 0 s.buf)) ∧
    (s.src.toNat + s.len.toNat ≤ s.config.bufBytes → (∀ x, (s.freq.at x).toNat + c x ≤ 2 ^ 32 - 1) →
      ∃ f : Table Word, (∀ x, (f.at x).toNat = (s.freq.at x).toNat + c x) ∧
        exec .count s = .next
          { s.completed 0x00000002#32 .noError 0#32 0 s.len.toNat s.buf with freq := f, tree := none })

/-- R62: the sum of all entries is 0 after CLRFREQ, and a successful COUNT adds LEN to it. -/
def Obligations.FreqTotalCountsTheBytes : Prop :=
  ∀ s t : State,
    (exec .clrfreq s = .next t → freqTotal t.freq = 0) ∧
    (exec .count s = .next t → t.errCause = .noError → freqTotal t.freq = freqTotal s.freq + s.len.toNat)

/-- R104 and R26, over all steps: whatever changes FREQ leaves TREE INVALID, and only BUILD makes a tree. -/
def Obligations.TreeFollowsFreq : Prop :=
  ∀ s t : State, step s = .next t →
    (t.freq ≠ s.freq → t.tree = none) ∧
    (t.tree ≠ s.tree → t.tree ≠ none → s.pending = some 0x00000003#32 ∧ t.tree = some (buildTree s.freq))

/-- R54: an illegal word is accepted, and its completion raises ILLEGAL_CMD and does nothing else. -/
def Obligations.IllegalWordsRaiseIllegalCmd : Prop :=
  (∀ w : Word, w.toNat % 16 = 0 ∨ 6 ≤ w.toNat % 16 ∨ w.toNat / 16 ≠ 0 → decode w = .illegal w) ∧
  (∀ (s : State) (w : Word), s.pending = none →
    hostWrite s (off 0x010) w = { s with cmd := w, pending := some w, done := false }) ∧
  ∀ (s : State) (w : Word), exec (.illegal w) s = .next (s.completed w .illegalCmd w 0 0 s.buf)

/-! BUILD. -/

/-- R63, R65: the key order, and Insert on an ascending sequence. -/
def Obligations.InsertPlacesByKey : Prop :=
  (∀ a b : CodeTree, keyLt a b = true ↔ a.weight < b.weight ∨ a.weight = b.weight ∧ a.sym < b.sym) ∧
  ∀ (n : CodeTree) (seq : List CodeTree), Ascending seq →
    ((∃ x ∈ seq, x.weight = n.weight ∧ x.sym = n.sym) → insertNode n seq = (false, seq)) ∧
    ((∀ x ∈ seq, ¬ (x.weight = n.weight ∧ x.sym = n.sym)) →
      ∃ lo hi, seq = lo ++ hi ∧ insertNode n seq = (true, lo ++ n :: hi) ∧
        (∀ x ∈ lo, keyLt x n = true) ∧ (∀ x ∈ hi, keyLt n x = true) ∧ Ascending (lo ++ n :: hi))

/-- R64: at every point of a BUILD, leaves and merges, the sequence is strictly ascending by key and holds at most 256 items. -/
def Obligations.SequenceIsStrictlyAscending : Prop :=
  ∀ f : Table Word,
    (∀ before after, symbols = before ++ after → Ascending (leafSeq f before) ∧ (leafSeq f before).length ≤ 256) ∧
    ∀ n, Ascending (seqAfter f n) ∧ (seqAfter f n).length ≤ 256

/-- R69: distinct SYM values at every point, so Insert never rejects, and the order of the leaves does not matter. -/
def Obligations.InsertNeverRejectsInBuild : Prop :=
  ∀ f : Table Word,
    (∀ before after, symbols = before ++ after → (leafSeq f before).Pairwise fun a b => a.sym ≠ b.sym) ∧
    (∀ n, (seqAfter f n).Pairwise fun a b => a.sym ≠ b.sym) ∧
    (∀ n first second rest, seqAfter f n = first :: second :: rest →
      (insertNode (mergeNode n first second) rest).1 = true) ∧
    (∀ before x after, symbols = before ++ x :: after →
      (insertNode (.leaf x ((f.at x).zeroExtend 40)) (leafSeq f before)).1 = true) ∧
    ∀ xs, xs.Perm symbols → leafSeq f xs = leafSeq f symbols

/-- R67: BUILD's whole effect: the leaves, each merge of the two lowest, the root, the codes, the registers. -/
def Obligations.BuildMergesTheTwoLowest : Prop :=
  ∀ s : State,
    exec .build s = .next { s.completed 0x00000003#32 .noError 0#32 0 0 s.buf with tree := some (buildTree s.freq) } ∧
    (buildTree s.freq).root = buildRoot s.freq ∧ (buildTree s.freq).code = codes (buildTree s.freq).root ∧
    (presentSymbols s.freq = [] → (buildTree s.freq).root = none) ∧
    (presentSymbols s.freq ≠ [] → ∃ r, (buildTree s.freq).root = some r ∧
      seqAfter s.freq ((presentSymbols s.freq).length - 1) = [r]) ∧
    Ascending (seqAfter s.freq 0) ∧
    (seqAfter s.freq 0).Perm ((presentSymbols s.freq).map fun x => .leaf x ((s.freq.at x).zeroExtend 40)) ∧
    ∀ n first second rest, seqAfter s.freq n = first :: second :: rest →
      seqAfter s.freq (n + 1) = (insertNode (.node (BitVec.ofNat 9 (256 + n))
        (if first.sym ≤ second.sym then first.sym else second.sym) (first.weight + second.weight) first second) rest).2

/-- R68: SYM of every node is the least symbol of its subtree. -/
def Obligations.SymIsTheLeastLeaf : Prop :=
  ∀ (f : Table Word) (r : CodeTree), buildRoot f = some r → ∀ t ∈ r.nodes, t.sym ∈ t.leaves ∧ ∀ x ∈ t.leaves, t.sym ≤ x

/-- R70: leaves, internal nodes, their indices (a leaf's is its symbol, an internal node's its place in merge order),
the root and NSYM. -/
def Obligations.NodeCountsAndIndices : Prop :=
  ∀ (f : Table Word) (m : Nat), (presentSymbols f).length = m →
    m ≤ 256 ∧ (m = 0 → buildRoot f = none) ∧
    (m ≠ 0 → ∃ r, buildRoot f = some r ∧ r.leaves.Perm (presentSymbols f) ∧
      (r.internals.map BitVec.toNat).Perm ((List.range (m - 1)).map fun k => 256 + k) ∧
      (∀ x w, .leaf x w ∈ r.nodes → (CodeTree.leaf x w).index.toNat = x.toNat) ∧
      (∀ i y w left right, .node i y w left right ∈ r.nodes → (CodeTree.node i y w left right).index = i) ∧
      (m = 1 → ∃ x w, r = .leaf x w ∧ presentSymbols f = [x] ∧ r.index.toNat = x.toNat) ∧
      (2 ≤ m → r.index.toNat = 256 + m - 2)) ∧
    (∀ n first second rest, seqAfter f n = first :: second :: rest → n + 2 ≤ m ∧
      mergeNode n first second ∈ seqAfter f (n + 1) ∧ (mergeNode n first second).index.toNat = 256 + n) ∧
    ∀ s : State, s.tree = some (buildTree f) → (hostRead s (off 0x03C)).toNat = m

/-- R71: every weight is the exact sum of its leaves' entries, below 2^40; the root's is the sum of all. -/
def Obligations.WeightsAreExactSums : Prop :=
  ∀ (f : Table Word) (r : CodeTree), buildRoot f = some r →
    (∀ t ∈ r.nodes, t.weight.toNat = (t.leaves.map fun x => (f.at x).toNat).sum ∧
      t.weight.toNat ≤ 256 * (2 ^ 32 - 1)) ∧
    r.weight.toNat = freqTotal f

/-- R72: the depth of a built tree and the length of its codewords. -/
def Obligations.DepthIsBelowTheLeafCount : Prop :=
  ∀ f : Table Word,
    (∀ r, buildRoot f = some r → r.depth ≤ (presentSymbols f).length - 1 ∧ r.depth ≤ 255) ∧
    ∀ x, ((buildTree f).code.at x).length ≤ 255

/-- R73: BUILD reads FREQ and nothing else. -/
def Obligations.BuildReadsOnlyFreq : Prop :=
  ∀ s s' : State, s.freq = s'.freq →
    ∃ t t', exec .build s = .next t ∧ exec .build s' = .next t' ∧ t.tree = t'.tree

/-- R74, R75: the codes of a built tree are its root-to-leaf paths; a single leaf has "1"; absent symbols none. -/
def Obligations.CodesAreRootPaths : Prop :=
  ∀ f : Table Word,
    (buildRoot f = none → ∀ x, (buildTree f).code.at x = []) ∧
    (∀ x w, buildRoot f = some (.leaf x w) →
      (buildTree f).code.at x = [true] ∧ ∀ y, y ≠ x → (buildTree f).code.at y = []) ∧
    ∀ i y w l r, buildRoot f = some (.node i y w l r) → ∀ x,
      (x ∈ (CodeTree.node i y w l r).leaves → (CodeTree.node i y w l r).follow ((buildTree f).code.at x) = some x) ∧
      (x ∉ (CodeTree.node i y w l r).leaves → (buildTree f).code.at x = []) ∧
      ∀ p, (CodeTree.node i y w l r).follow p = some x → (buildTree f).code.at x = p

/-- R78: exactly the symbols with a nonzero entry have a codeword, and no codeword is the beginning of another's. -/
def Obligations.CodesFormAPrefixCode : Prop :=
  ∀ f : Table Word,
    (∀ x, (buildTree f).code.at x ≠ [] ↔ f.at x ≠ 0#32) ∧
    ∀ x y, x ≠ y → (buildTree f).code.at x ≠ [] → (buildTree f).code.at y ≠ [] →
      ¬ (buildTree f).code.at x <+: (buildTree f).code.at y

/-! Bit streams, ENCODE, DECODE. -/

/-- R50, R51: PutBits and BitAt. -/
def Obligations.PutBitsPacksMsbFirst : Prop :=
  (∀ (s : State) (base j : Nat), s.bitAt base j = (s.readByte (base + j / 8)).getLsbD (7 - j % 8)) ∧
  ∀ (s t : State) (base : Nat) (c : Codeword), t = s.putBits base c →
    (∀ j < c.length, (t.readByte (base + j / 8)).getLsbD (7 - j % 8) = c.getD j false ∧
      t.bitAt base j = c.getD j false) ∧
    (∀ j, c.length ≤ j → j < 8 * ((c.length + 7) / 8) →
      (t.readByte (base + j / 8)).getLsbD (7 - j % 8) = false ∧ t.bitAt base j = false) ∧
    sameBufOutside s t base ((c.length + 7) / 8) ∧ t = { s with buf := t.buf }

/-- R81: ENCODE's whole effect: its errors in the order of R91 (log entry 21 for an empty range), and its success. -/
def Obligations.EncodePacksTheCodewords : Prop :=
  ∀ s : State,
    (s.tree = none → exec .encode s = .next (s.completed 0x00000004#32 .noTree 0#32 0 0 s.buf)) ∧
    ∀ b : Built, s.tree = some b →
      (s.config.bufBytes < s.src.toNat + s.len.toNat →
        exec .encode s = .next (s.completed 0x00000004#32 .range 0#32 0 0 s.buf)) ∧
      (s.src.toNat + s.len.toNat ≤ s.config.bufBytes →
        (∀ i < s.len.toNat, b.code.at (s.readByte (s.src.toNat + i)) = [] →
          (∀ j < i, b.code.at (s.readByte (s.src.toNat + j)) ≠ []) →
          exec .encode s = .next (s.completed 0x00000004#32 .absentSymbol
            (s.readByte (s.src.toNat + i) ++ BitVec.ofNat 24 i) 0 0 s.buf)) ∧
        ∀ c n, (∀ i < s.len.toNat, b.code.at (s.readByte (s.src.toNat + i)) ≠ []) →
          c = ((List.range s.len.toNat).map fun i => b.code.at (s.readByte (s.src.toNat + i))).flatten →
          n = (c.length + 7) / 8 →
          (s.config.bufBytes < s.dst.toNat + n →
            exec .encode s = .next (s.completed 0x00000004#32 .range 1#32 0 0 s.buf)) ∧
          (s.dst.toNat + n ≤ s.config.bufBytes →
            (0 < s.len.toNat ∧ 0 < n ∧ s.src.toNat < s.dst.toNat + n ∧ s.dst.toNat < s.src.toNat + s.len.toNat →
              exec .encode s = .next (s.completed 0x00000004#32 .overlap 0#32 0 0 s.buf)) ∧
            (¬ (0 < s.len.toNat ∧ 0 < n ∧ s.src.toNat < s.dst.toNat + n ∧ s.dst.toNat < s.src.toNat + s.len.toNat) →
              ∃ t, exec .encode s = .next t ∧ t = s.completed 0x00000004#32 .noError 0#32 c.length n t.buf ∧
                t.streamHas s.dst.toNat 0 c ∧
                (∀ j, c.length ≤ j → j < 8 * n → t.bitAt s.dst.toNat j = false) ∧
                sameBufOutside s t s.dst.toNat n)))

/-- R82's last sentence: a stream of codewords of a built tree parses back uniquely, also when it is only the
beginning of another. -/
def Obligations.StreamsParseUniquely : Prop :=
  ∀ (f : Table Word) (xs ys : List Byte), allCoded (buildTree f).code xs → allCoded (buildTree f).code ys →
    (emit (buildTree f).code xs = emit (buildTree f).code ys → xs = ys) ∧
    (emit (buildTree f).code xs <+: emit (buildTree f).code ys → xs <+: ys)

/-- R83: the size of an encoding. -/
def Obligations.EncodedSizeBounds : Prop :=
  ∀ (f : Table Word) (xs : List Byte), allCoded (buildTree f).code xs →
    xs.length ≤ (emit (buildTree f).code xs).length ∧
    (emit (buildTree f).code xs).length ≤ 255 * xs.length ∧
    ((∀ x, (f.at x).toNat = xs.count x) → (emit (buildTree f).code xs).length =
      (symbols.map fun x => (f.at x).toNat * ((buildTree f).code.at x).length).sum)

/-- R84, R91: DECODE's checks before the descent, in order (log entry 21 for an empty range), and its success on
the empty tree. -/
def Obligations.DecodeChecksInOrder : Prop :=
  ∀ s : State,
    (s.tree = none → exec .decode s = .next (s.completed 0x00000005#32 .noTree 0#32 0 0 s.buf)) ∧
    ∀ b : Built, s.tree = some b →
      (s.config.bufBytes < s.src.toNat + s.len.toNat →
        exec .decode s = .next (s.completed 0x00000005#32 .range 0#32 0 0 s.buf)) ∧
      (s.src.toNat + s.len.toNat ≤ s.config.bufBytes →
        (s.config.bufBytes < s.dst.toNat + b.total →
          exec .decode s = .next (s.completed 0x00000005#32 .range 1#32 0 0 s.buf)) ∧
        (s.dst.toNat + b.total ≤ s.config.bufBytes →
          (0 < s.len.toNat ∧ 0 < b.total ∧ s.src.toNat < s.dst.toNat + b.total ∧
              s.dst.toNat < s.src.toNat + s.len.toNat →
            exec .decode s = .next (s.completed 0x00000005#32 .overlap 0#32 0 0 s.buf)) ∧
          (b.root = none → exec .decode s = .next (s.completed 0x00000005#32 .noError 0#32 0 0 s.buf))))

/-- R84, R86: when the stream begins with the codewords of `total` symbols, DECODE writes these symbols and counts
their bits, whatever follows in the stream. -/
def Obligations.DecodeReadsTheCodewords : Prop :=
  ∀ (s : State) (f : Table Word) (xs : List Byte) (c : Codeword), s.decodeReady f →
    xs.length = (buildTree f).total → allCoded (buildTree f).code xs → c = emit (buildTree f).code xs →
    c.length ≤ 8 * s.len.toNat → s.streamHas s.src.toNat 0 c →
    ∃ t, exec .decode s = .next t ∧ t = s.completed 0x00000005#32 .noError 0#32 c.length xs.length t.buf ∧
      t.bytesAt s.dst.toNat xs.length = xs ∧ sameBufOutside s t s.dst.toNat xs.length

/-- R84: when, after the codewords of fewer symbols, the rest of the stream holds no whole codeword, DECODE raises
TRUNCATED, or BAD_CODE when a single-leaf tree reads a 0, and keeps the symbols it decoded. -/
def Obligations.DecodeStopsWhereTheStreamDoes : Prop :=
  ∀ (s : State) (f : Table Word) (xs : List Byte) (c : Codeword), s.decodeReady f →
    xs.length < (buildTree f).total → allCoded (buildTree f).code xs → c = emit (buildTree f).code xs →
    c.length ≤ 8 * s.len.toNat → s.streamHas s.src.toNat 0 c →
    (∀ x, (buildTree f).code.at x ≠ [] → c.length + ((buildTree f).code.at x).length ≤ 8 * s.len.toNat →
      ¬ s.streamHas s.src.toNat c.length ((buildTree f).code.at x)) →
    ∃ t cause info, exec .decode s = .next t ∧ t = s.completed 0x00000005#32 cause info c.length xs.length t.buf ∧
      t.bytesAt s.dst.toNat xs.length = xs ∧ sameBufOutside s t s.dst.toNat xs.length ∧
      ((c.length < 8 * s.len.toNat ∧ ∃ x w, buildRoot f = some (.leaf x w)) →
        cause = .badCode ∧ info = BitVec.ofNat 32 c.length) ∧
      (¬ (c.length < 8 * s.len.toNat ∧ ∃ x w, buildRoot f = some (.leaf x w)) →
        cause = .truncated ∧ info = BitVec.ofNat 32 (8 * s.len.toNat))

/-- R85: after CLRFREQ, COUNT of X, BUILD and a successful ENCODE of X, a DECODE of the stream gives X back. A primed
state is the one before a command: what the host did in between may be anything that keeps FREQ, then the tree, then
the tree and the stream's bytes. -/
def Obligations.RoundTripReproducesTheInput : Prop :=
  ∀ (s s1 s1' s2 s2' s3 s3' s4 s4' : State) (xs : List Byte),
    exec .clrfreq s = .next s1 → s1'.freq = s1.freq → s1'.bytesAt s1'.src.toNat s1'.len.toNat = xs →
    exec .count s1' = .next s2 → s2.errCause = .noError → s2'.freq = s2.freq →
    exec .build s2' = .next s3 → s3'.tree = s3.tree → s3'.bytesAt s3'.src.toNat s3'.len.toNat = xs →
    exec .encode s3' = .next s4 → s4.errCause = .noError → s4'.tree = s4.tree →
    s4'.bytesAt s4'.src.toNat s4.resBytes.toNat = s4.bytesAt s3'.dst.toNat s4.resBytes.toNat →
    s4.resBytes.toNat ≤ s4'.len.toNat → s4'.src.toNat + s4'.len.toNat ≤ s4'.config.bufBytes →
    s4'.dst.toNat + xs.length ≤ s4'.config.bufBytes →
    (s4'.dst.toNat + xs.length ≤ s4'.src.toNat ∨ s4'.src.toNat + s4'.len.toNat ≤ s4'.dst.toNat ∨
      xs.length = 0 ∨ s4'.len.toNat = 0) →
    ∃ t, exec .decode s4' = .next t ∧ t.errCause = .noError ∧ t.bytesAt s4'.dst.toNat xs.length = xs ∧
      t.resBytes.toNat = xs.length ∧ t.resBits = s4.resBits

/-! The host-program notation. -/

/-- R58: SETFREQ s, v is the one write that sets the entry, its effect being R59's. -/
def Obligations.SetFreqSetsOneEntry : Prop :=
  ∀ (s : State) (x : Byte) (v : Word), s.pending = none → s.turns = hostSetFreq s.config x v →
    ∃ t : State, Sys2Proof.core.run s.turns.length s = .next t ∧
      t = { s with turns := [], freq := t.freq, tree := none } ∧ t.freq.at x = v ∧ ∀ y, y ≠ x → t.freq.at y = s.freq.at y

/-- R58: LOADBUF leaves its bytes at `o`, zeros up to the end of the last word, and every other byte. -/
def Obligations.LoadBufLeavesItsBytes : Prop :=
  ∀ (s : State) (o : Nat) (bytes : List Byte), s.pending = none → o % 4 = 0 →
    o + bytes.length ≤ s.config.bufBytes → s.turns = hostLoadBuf s.config o bytes →
    ∃ t : State, Sys2Proof.core.run s.turns.length s = .next t ∧ t = { s with turns := [], buf := t.buf } ∧
      t.bytesAt o bytes.length = bytes ∧
      (∀ i, bytes.length ≤ i → i < 4 * ((bytes.length + 3) / 4) → t.readByte (o + i) = 0#8) ∧
      sameBufOutside s t o (4 * ((bytes.length + 3) / 4))

/-- R58: RUN m src, len, dst, whenever its completion comes, runs m on these operands. WAIT has the form log entry 18
gives it, the model's choice: `polls` STATUS reads, which see BUSY = 1, the completion, and the read that sees
BUSY = 0; they change nothing but the host's record. -/
def Obligations.RunRunsTheCommand : Prop :=
  ∀ (s : State) (i : Instr) (a n d : Word) (polls : Nat), s.pending = none → i.wellFormed = true →
    s.turns = hostRun s.config i a n d polls →
    ∃ t u : State, Sys2Proof.core.run s.turns.length s = .next t ∧
      exec i { s with src := a, len := n, dst := d, cmd := encode i, pending := some (encode i), done := false } = .next u ∧
      t = { u with turns := [], got := t.got } ∧
      ∃ (last : Word) (waits : List Word), t.got = last :: (waits ++ s.got) ∧ waits.length = polls ∧
        (∀ v ∈ waits, v.getLsbD 0 = true) ∧ last.getLsbD 0 = false

/-! The invariant of every reachable state. -/

/-- The state after reset meets the invariant, whose canonical form of BUF is that offsets strictly rise. -/
def Obligations.InvariantHoldsAtReset : Prop :=
  State.reset.Inv ∧ ∀ m : Memory, Memory.wf m = true ↔ m.Pairwise fun x y => x.1 < y.1

/-- Every step, from every state that meets the invariant, keeps it: BUF stays canonical and in range, a valid tree
is the tree of the current FREQ (R19, R26), CMD reads the pending word with DONE 0 (R20, R88), ERRINFO is 0 after a
success (R23). -/
def Obligations.EveryStepKeepsTheInvariant : Prop := ∀ s t : State, s.Inv → step s = .next t → t.Inv
end

