-- ==== Sys2Proof/Laws/State.lean ====
section
/-!
SUPPORT. One lemma per field per named update of the state, true by unfolding.
-/

namespace Sys2Proof.Machine

/-! writeByte -/

@[simp] theorem State.writeByte_config (s : State) (a : Nat) (v : Byte) : (s.writeByte a v).config = s.config := rfl
@[simp] theorem State.writeByte_doneIE (s : State) (a : Nat) (v : Byte) : (s.writeByte a v).doneIE = s.doneIE := rfl
@[simp] theorem State.writeByte_errIE (s : State) (a : Nat) (v : Byte) : (s.writeByte a v).errIE = s.errIE := rfl
@[simp] theorem State.writeByte_done (s : State) (a : Nat) (v : Byte) : (s.writeByte a v).done = s.done := rfl
@[simp] theorem State.writeByte_err (s : State) (a : Nat) (v : Byte) : (s.writeByte a v).err = s.err := rfl
@[simp] theorem State.writeByte_ovr (s : State) (a : Nat) (v : Byte) : (s.writeByte a v).ovr = s.ovr := rfl
@[simp] theorem State.writeByte_cmd (s : State) (a : Nat) (v : Byte) : (s.writeByte a v).cmd = s.cmd := rfl
@[simp] theorem State.writeByte_src (s : State) (a : Nat) (v : Byte) : (s.writeByte a v).src = s.src := rfl
@[simp] theorem State.writeByte_dst (s : State) (a : Nat) (v : Byte) : (s.writeByte a v).dst = s.dst := rfl
@[simp] theorem State.writeByte_len (s : State) (a : Nat) (v : Byte) : (s.writeByte a v).len = s.len := rfl
@[simp] theorem State.writeByte_errCause (s : State) (a : Nat) (v : Byte) : (s.writeByte a v).errCause = s.errCause := rfl
@[simp] theorem State.writeByte_errOp (s : State) (a : Nat) (v : Byte) : (s.writeByte a v).errOp = s.errOp := rfl
@[simp] theorem State.writeByte_errInfo (s : State) (a : Nat) (v : Byte) : (s.writeByte a v).errInfo = s.errInfo := rfl
@[simp] theorem State.writeByte_resBits (s : State) (a : Nat) (v : Byte) : (s.writeByte a v).resBits = s.resBits := rfl
@[simp] theorem State.writeByte_resBytes (s : State) (a : Nat) (v : Byte) : (s.writeByte a v).resBytes = s.resBytes := rfl
@[simp] theorem State.writeByte_freq (s : State) (a : Nat) (v : Byte) : (s.writeByte a v).freq = s.freq := rfl
@[simp] theorem State.writeByte_tree (s : State) (a : Nat) (v : Byte) : (s.writeByte a v).tree = s.tree := rfl
@[simp] theorem State.writeByte_buf (s : State) (a : Nat) (v : Byte) : (s.writeByte a v).buf = Memory.set s.buf a v := rfl
@[simp] theorem State.writeByte_pending (s : State) (a : Nat) (v : Byte) : (s.writeByte a v).pending = s.pending := rfl
@[simp] theorem State.writeByte_epoch (s : State) (a : Nat) (v : Byte) : (s.writeByte a v).epoch = s.epoch := rfl
@[simp] theorem State.writeByte_turns (s : State) (a : Nat) (v : Byte) : (s.writeByte a v).turns = s.turns := rfl
@[simp] theorem State.writeByte_got (s : State) (a : Nat) (v : Byte) : (s.writeByte a v).got = s.got := rfl

/-! setResult -/

@[simp] theorem State.setResult_config (s : State) (m n : Nat) : (s.setResult m n).config = s.config := rfl
@[simp] theorem State.setResult_doneIE (s : State) (m n : Nat) : (s.setResult m n).doneIE = s.doneIE := rfl
@[simp] theorem State.setResult_errIE (s : State) (m n : Nat) : (s.setResult m n).errIE = s.errIE := rfl
@[simp] theorem State.setResult_done (s : State) (m n : Nat) : (s.setResult m n).done = s.done := rfl
@[simp] theorem State.setResult_err (s : State) (m n : Nat) : (s.setResult m n).err = s.err := rfl
@[simp] theorem State.setResult_ovr (s : State) (m n : Nat) : (s.setResult m n).ovr = s.ovr := rfl
@[simp] theorem State.setResult_cmd (s : State) (m n : Nat) : (s.setResult m n).cmd = s.cmd := rfl
@[simp] theorem State.setResult_src (s : State) (m n : Nat) : (s.setResult m n).src = s.src := rfl
@[simp] theorem State.setResult_dst (s : State) (m n : Nat) : (s.setResult m n).dst = s.dst := rfl
@[simp] theorem State.setResult_len (s : State) (m n : Nat) : (s.setResult m n).len = s.len := rfl
@[simp] theorem State.setResult_errCause (s : State) (m n : Nat) : (s.setResult m n).errCause = s.errCause := rfl
@[simp] theorem State.setResult_errOp (s : State) (m n : Nat) : (s.setResult m n).errOp = s.errOp := rfl
@[simp] theorem State.setResult_errInfo (s : State) (m n : Nat) : (s.setResult m n).errInfo = s.errInfo := rfl
@[simp] theorem State.setResult_resBits (s : State) (m n : Nat) : (s.setResult m n).resBits = BitVec.ofNat 32 m := rfl
@[simp] theorem State.setResult_resBytes (s : State) (m n : Nat) : (s.setResult m n).resBytes = BitVec.ofNat 32 n := rfl
@[simp] theorem State.setResult_freq (s : State) (m n : Nat) : (s.setResult m n).freq = s.freq := rfl
@[simp] theorem State.setResult_tree (s : State) (m n : Nat) : (s.setResult m n).tree = s.tree := rfl
@[simp] theorem State.setResult_buf (s : State) (m n : Nat) : (s.setResult m n).buf = s.buf := rfl
@[simp] theorem State.setResult_pending (s : State) (m n : Nat) : (s.setResult m n).pending = s.pending := rfl
@[simp] theorem State.setResult_epoch (s : State) (m n : Nat) : (s.setResult m n).epoch = s.epoch := rfl
@[simp] theorem State.setResult_turns (s : State) (m n : Nat) : (s.setResult m n).turns = s.turns := rfl
@[simp] theorem State.setResult_got (s : State) (m n : Nat) : (s.setResult m n).got = s.got := rfl

/-! setFreq -/

@[simp] theorem State.setFreq_config (s : State) (f : Table Word) : (s.setFreq f).config = s.config := rfl
@[simp] theorem State.setFreq_doneIE (s : State) (f : Table Word) : (s.setFreq f).doneIE = s.doneIE := rfl
@[simp] theorem State.setFreq_errIE (s : State) (f : Table Word) : (s.setFreq f).errIE = s.errIE := rfl
@[simp] theorem State.setFreq_done (s : State) (f : Table Word) : (s.setFreq f).done = s.done := rfl
@[simp] theorem State.setFreq_err (s : State) (f : Table Word) : (s.setFreq f).err = s.err := rfl
@[simp] theorem State.setFreq_ovr (s : State) (f : Table Word) : (s.setFreq f).ovr = s.ovr := rfl
@[simp] theorem State.setFreq_cmd (s : State) (f : Table Word) : (s.setFreq f).cmd = s.cmd := rfl
@[simp] theorem State.setFreq_src (s : State) (f : Table Word) : (s.setFreq f).src = s.src := rfl
@[simp] theorem State.setFreq_dst (s : State) (f : Table Word) : (s.setFreq f).dst = s.dst := rfl
@[simp] theorem State.setFreq_len (s : State) (f : Table Word) : (s.setFreq f).len = s.len := rfl
@[simp] theorem State.setFreq_errCause (s : State) (f : Table Word) : (s.setFreq f).errCause = s.errCause := rfl
@[simp] theorem State.setFreq_errOp (s : State) (f : Table Word) : (s.setFreq f).errOp = s.errOp := rfl
@[simp] theorem State.setFreq_errInfo (s : State) (f : Table Word) : (s.setFreq f).errInfo = s.errInfo := rfl
@[simp] theorem State.setFreq_resBits (s : State) (f : Table Word) : (s.setFreq f).resBits = s.resBits := rfl
@[simp] theorem State.setFreq_resBytes (s : State) (f : Table Word) : (s.setFreq f).resBytes = s.resBytes := rfl
@[simp] theorem State.setFreq_freq (s : State) (f : Table Word) : (s.setFreq f).freq = f := rfl
@[simp] theorem State.setFreq_tree (s : State) (f : Table Word) : (s.setFreq f).tree = s.tree := rfl
@[simp] theorem State.setFreq_buf (s : State) (f : Table Word) : (s.setFreq f).buf = s.buf := rfl
@[simp] theorem State.setFreq_pending (s : State) (f : Table Word) : (s.setFreq f).pending = s.pending := rfl
@[simp] theorem State.setFreq_epoch (s : State) (f : Table Word) : (s.setFreq f).epoch = s.epoch := rfl
@[simp] theorem State.setFreq_turns (s : State) (f : Table Word) : (s.setFreq f).turns = s.turns := rfl
@[simp] theorem State.setFreq_got (s : State) (f : Table Word) : (s.setFreq f).got = s.got := rfl

/-! invalidate -/

@[simp] theorem State.invalidate_config (s : State) : (s.invalidate).config = s.config := rfl
@[simp] theorem State.invalidate_doneIE (s : State) : (s.invalidate).doneIE = s.doneIE := rfl
@[simp] theorem State.invalidate_errIE (s : State) : (s.invalidate).errIE = s.errIE := rfl
@[simp] theorem State.invalidate_done (s : State) : (s.invalidate).done = s.done := rfl
@[simp] theorem State.invalidate_err (s : State) : (s.invalidate).err = s.err := rfl
@[simp] theorem State.invalidate_ovr (s : State) : (s.invalidate).ovr = s.ovr := rfl
@[simp] theorem State.invalidate_cmd (s : State) : (s.invalidate).cmd = s.cmd := rfl
@[simp] theorem State.invalidate_src (s : State) : (s.invalidate).src = s.src := rfl
@[simp] theorem State.invalidate_dst (s : State) : (s.invalidate).dst = s.dst := rfl
@[simp] theorem State.invalidate_len (s : State) : (s.invalidate).len = s.len := rfl
@[simp] theorem State.invalidate_errCause (s : State) : (s.invalidate).errCause = s.errCause := rfl
@[simp] theorem State.invalidate_errOp (s : State) : (s.invalidate).errOp = s.errOp := rfl
@[simp] theorem State.invalidate_errInfo (s : State) : (s.invalidate).errInfo = s.errInfo := rfl
@[simp] theorem State.invalidate_resBits (s : State) : (s.invalidate).resBits = s.resBits := rfl
@[simp] theorem State.invalidate_resBytes (s : State) : (s.invalidate).resBytes = s.resBytes := rfl
@[simp] theorem State.invalidate_freq (s : State) : (s.invalidate).freq = s.freq := rfl
@[simp] theorem State.invalidate_tree (s : State) : (s.invalidate).tree = none := rfl
@[simp] theorem State.invalidate_buf (s : State) : (s.invalidate).buf = s.buf := rfl
@[simp] theorem State.invalidate_pending (s : State) : (s.invalidate).pending = s.pending := rfl
@[simp] theorem State.invalidate_epoch (s : State) : (s.invalidate).epoch = s.epoch := rfl
@[simp] theorem State.invalidate_turns (s : State) : (s.invalidate).turns = s.turns := rfl
@[simp] theorem State.invalidate_got (s : State) : (s.invalidate).got = s.got := rfl

/-! setTree -/

@[simp] theorem State.setTree_config (s : State) (b : Built) : (s.setTree b).config = s.config := rfl
@[simp] theorem State.setTree_doneIE (s : State) (b : Built) : (s.setTree b).doneIE = s.doneIE := rfl
@[simp] theorem State.setTree_errIE (s : State) (b : Built) : (s.setTree b).errIE = s.errIE := rfl
@[simp] theorem State.setTree_done (s : State) (b : Built) : (s.setTree b).done = s.done := rfl
@[simp] theorem State.setTree_err (s : State) (b : Built) : (s.setTree b).err = s.err := rfl
@[simp] theorem State.setTree_ovr (s : State) (b : Built) : (s.setTree b).ovr = s.ovr := rfl
@[simp] theorem State.setTree_cmd (s : State) (b : Built) : (s.setTree b).cmd = s.cmd := rfl
@[simp] theorem State.setTree_src (s : State) (b : Built) : (s.setTree b).src = s.src := rfl
@[simp] theorem State.setTree_dst (s : State) (b : Built) : (s.setTree b).dst = s.dst := rfl
@[simp] theorem State.setTree_len (s : State) (b : Built) : (s.setTree b).len = s.len := rfl
@[simp] theorem State.setTree_errCause (s : State) (b : Built) : (s.setTree b).errCause = s.errCause := rfl
@[simp] theorem State.setTree_errOp (s : State) (b : Built) : (s.setTree b).errOp = s.errOp := rfl
@[simp] theorem State.setTree_errInfo (s : State) (b : Built) : (s.setTree b).errInfo = s.errInfo := rfl
@[simp] theorem State.setTree_resBits (s : State) (b : Built) : (s.setTree b).resBits = s.resBits := rfl
@[simp] theorem State.setTree_resBytes (s : State) (b : Built) : (s.setTree b).resBytes = s.resBytes := rfl
@[simp] theorem State.setTree_freq (s : State) (b : Built) : (s.setTree b).freq = s.freq := rfl
@[simp] theorem State.setTree_tree (s : State) (b : Built) : (s.setTree b).tree = some b := rfl
@[simp] theorem State.setTree_buf (s : State) (b : Built) : (s.setTree b).buf = s.buf := rfl
@[simp] theorem State.setTree_pending (s : State) (b : Built) : (s.setTree b).pending = s.pending := rfl
@[simp] theorem State.setTree_epoch (s : State) (b : Built) : (s.setTree b).epoch = s.epoch := rfl
@[simp] theorem State.setTree_turns (s : State) (b : Built) : (s.setTree b).turns = s.turns := rfl
@[simp] theorem State.setTree_got (s : State) (b : Built) : (s.setTree b).got = s.got := rfl

/-! setSrc -/

@[simp] theorem State.setSrc_config (s : State) (w : Word) : (s.setSrc w).config = s.config := rfl
@[simp] theorem State.setSrc_doneIE (s : State) (w : Word) : (s.setSrc w).doneIE = s.doneIE := rfl
@[simp] theorem State.setSrc_errIE (s : State) (w : Word) : (s.setSrc w).errIE = s.errIE := rfl
@[simp] theorem State.setSrc_done (s : State) (w : Word) : (s.setSrc w).done = s.done := rfl
@[simp] theorem State.setSrc_err (s : State) (w : Word) : (s.setSrc w).err = s.err := rfl
@[simp] theorem State.setSrc_ovr (s : State) (w : Word) : (s.setSrc w).ovr = s.ovr := rfl
@[simp] theorem State.setSrc_cmd (s : State) (w : Word) : (s.setSrc w).cmd = s.cmd := rfl
@[simp] theorem State.setSrc_src (s : State) (w : Word) : (s.setSrc w).src = w := rfl
@[simp] theorem State.setSrc_dst (s : State) (w : Word) : (s.setSrc w).dst = s.dst := rfl
@[simp] theorem State.setSrc_len (s : State) (w : Word) : (s.setSrc w).len = s.len := rfl
@[simp] theorem State.setSrc_errCause (s : State) (w : Word) : (s.setSrc w).errCause = s.errCause := rfl
@[simp] theorem State.setSrc_errOp (s : State) (w : Word) : (s.setSrc w).errOp = s.errOp := rfl
@[simp] theorem State.setSrc_errInfo (s : State) (w : Word) : (s.setSrc w).errInfo = s.errInfo := rfl
@[simp] theorem State.setSrc_resBits (s : State) (w : Word) : (s.setSrc w).resBits = s.resBits := rfl
@[simp] theorem State.setSrc_resBytes (s : State) (w : Word) : (s.setSrc w).resBytes = s.resBytes := rfl
@[simp] theorem State.setSrc_freq (s : State) (w : Word) : (s.setSrc w).freq = s.freq := rfl
@[simp] theorem State.setSrc_tree (s : State) (w : Word) : (s.setSrc w).tree = s.tree := rfl
@[simp] theorem State.setSrc_buf (s : State) (w : Word) : (s.setSrc w).buf = s.buf := rfl
@[simp] theorem State.setSrc_pending (s : State) (w : Word) : (s.setSrc w).pending = s.pending := rfl
@[simp] theorem State.setSrc_epoch (s : State) (w : Word) : (s.setSrc w).epoch = s.epoch := rfl
@[simp] theorem State.setSrc_turns (s : State) (w : Word) : (s.setSrc w).turns = s.turns := rfl
@[simp] theorem State.setSrc_got (s : State) (w : Word) : (s.setSrc w).got = s.got := rfl

/-! setDst -/

@[simp] theorem State.setDst_config (s : State) (w : Word) : (s.setDst w).config = s.config := rfl
@[simp] theorem State.setDst_doneIE (s : State) (w : Word) : (s.setDst w).doneIE = s.doneIE := rfl
@[simp] theorem State.setDst_errIE (s : State) (w : Word) : (s.setDst w).errIE = s.errIE := rfl
@[simp] theorem State.setDst_done (s : State) (w : Word) : (s.setDst w).done = s.done := rfl
@[simp] theorem State.setDst_err (s : State) (w : Word) : (s.setDst w).err = s.err := rfl
@[simp] theorem State.setDst_ovr (s : State) (w : Word) : (s.setDst w).ovr = s.ovr := rfl
@[simp] theorem State.setDst_cmd (s : State) (w : Word) : (s.setDst w).cmd = s.cmd := rfl
@[simp] theorem State.setDst_src (s : State) (w : Word) : (s.setDst w).src = s.src := rfl
@[simp] theorem State.setDst_dst (s : State) (w : Word) : (s.setDst w).dst = w := rfl
@[simp] theorem State.setDst_len (s : State) (w : Word) : (s.setDst w).len = s.len := rfl
@[simp] theorem State.setDst_errCause (s : State) (w : Word) : (s.setDst w).errCause = s.errCause := rfl
@[simp] theorem State.setDst_errOp (s : State) (w : Word) : (s.setDst w).errOp = s.errOp := rfl
@[simp] theorem State.setDst_errInfo (s : State) (w : Word) : (s.setDst w).errInfo = s.errInfo := rfl
@[simp] theorem State.setDst_resBits (s : State) (w : Word) : (s.setDst w).resBits = s.resBits := rfl
@[simp] theorem State.setDst_resBytes (s : State) (w : Word) : (s.setDst w).resBytes = s.resBytes := rfl
@[simp] theorem State.setDst_freq (s : State) (w : Word) : (s.setDst w).freq = s.freq := rfl
@[simp] theorem State.setDst_tree (s : State) (w : Word) : (s.setDst w).tree = s.tree := rfl
@[simp] theorem State.setDst_buf (s : State) (w : Word) : (s.setDst w).buf = s.buf := rfl
@[simp] theorem State.setDst_pending (s : State) (w : Word) : (s.setDst w).pending = s.pending := rfl
@[simp] theorem State.setDst_epoch (s : State) (w : Word) : (s.setDst w).epoch = s.epoch := rfl
@[simp] theorem State.setDst_turns (s : State) (w : Word) : (s.setDst w).turns = s.turns := rfl
@[simp] theorem State.setDst_got (s : State) (w : Word) : (s.setDst w).got = s.got := rfl

/-! setLen -/

@[simp] theorem State.setLen_config (s : State) (w : Word) : (s.setLen w).config = s.config := rfl
@[simp] theorem State.setLen_doneIE (s : State) (w : Word) : (s.setLen w).doneIE = s.doneIE := rfl
@[simp] theorem State.setLen_errIE (s : State) (w : Word) : (s.setLen w).errIE = s.errIE := rfl
@[simp] theorem State.setLen_done (s : State) (w : Word) : (s.setLen w).done = s.done := rfl
@[simp] theorem State.setLen_err (s : State) (w : Word) : (s.setLen w).err = s.err := rfl
@[simp] theorem State.setLen_ovr (s : State) (w : Word) : (s.setLen w).ovr = s.ovr := rfl
@[simp] theorem State.setLen_cmd (s : State) (w : Word) : (s.setLen w).cmd = s.cmd := rfl
@[simp] theorem State.setLen_src (s : State) (w : Word) : (s.setLen w).src = s.src := rfl
@[simp] theorem State.setLen_dst (s : State) (w : Word) : (s.setLen w).dst = s.dst := rfl
@[simp] theorem State.setLen_len (s : State) (w : Word) : (s.setLen w).len = w := rfl
@[simp] theorem State.setLen_errCause (s : State) (w : Word) : (s.setLen w).errCause = s.errCause := rfl
@[simp] theorem State.setLen_errOp (s : State) (w : Word) : (s.setLen w).errOp = s.errOp := rfl
@[simp] theorem State.setLen_errInfo (s : State) (w : Word) : (s.setLen w).errInfo = s.errInfo := rfl
@[simp] theorem State.setLen_resBits (s : State) (w : Word) : (s.setLen w).resBits = s.resBits := rfl
@[simp] theorem State.setLen_resBytes (s : State) (w : Word) : (s.setLen w).resBytes = s.resBytes := rfl
@[simp] theorem State.setLen_freq (s : State) (w : Word) : (s.setLen w).freq = s.freq := rfl
@[simp] theorem State.setLen_tree (s : State) (w : Word) : (s.setLen w).tree = s.tree := rfl
@[simp] theorem State.setLen_buf (s : State) (w : Word) : (s.setLen w).buf = s.buf := rfl
@[simp] theorem State.setLen_pending (s : State) (w : Word) : (s.setLen w).pending = s.pending := rfl
@[simp] theorem State.setLen_epoch (s : State) (w : Word) : (s.setLen w).epoch = s.epoch := rfl
@[simp] theorem State.setLen_turns (s : State) (w : Word) : (s.setLen w).turns = s.turns := rfl
@[simp] theorem State.setLen_got (s : State) (w : Word) : (s.setLen w).got = s.got := rfl

/-! overrun -/

@[simp] theorem State.overrun_config (s : State) : (s.overrun).config = s.config := rfl
@[simp] theorem State.overrun_doneIE (s : State) : (s.overrun).doneIE = s.doneIE := rfl
@[simp] theorem State.overrun_errIE (s : State) : (s.overrun).errIE = s.errIE := rfl
@[simp] theorem State.overrun_done (s : State) : (s.overrun).done = s.done := rfl
@[simp] theorem State.overrun_err (s : State) : (s.overrun).err = s.err := rfl
@[simp] theorem State.overrun_ovr (s : State) : (s.overrun).ovr = true := rfl
@[simp] theorem State.overrun_cmd (s : State) : (s.overrun).cmd = s.cmd := rfl
@[simp] theorem State.overrun_src (s : State) : (s.overrun).src = s.src := rfl
@[simp] theorem State.overrun_dst (s : State) : (s.overrun).dst = s.dst := rfl
@[simp] theorem State.overrun_len (s : State) : (s.overrun).len = s.len := rfl
@[simp] theorem State.overrun_errCause (s : State) : (s.overrun).errCause = s.errCause := rfl
@[simp] theorem State.overrun_errOp (s : State) : (s.overrun).errOp = s.errOp := rfl
@[simp] theorem State.overrun_errInfo (s : State) : (s.overrun).errInfo = s.errInfo := rfl
@[simp] theorem State.overrun_resBits (s : State) : (s.overrun).resBits = s.resBits := rfl
@[simp] theorem State.overrun_resBytes (s : State) : (s.overrun).resBytes = s.resBytes := rfl
@[simp] theorem State.overrun_freq (s : State) : (s.overrun).freq = s.freq := rfl
@[simp] theorem State.overrun_tree (s : State) : (s.overrun).tree = s.tree := rfl
@[simp] theorem State.overrun_buf (s : State) : (s.overrun).buf = s.buf := rfl
@[simp] theorem State.overrun_pending (s : State) : (s.overrun).pending = s.pending := rfl
@[simp] theorem State.overrun_epoch (s : State) : (s.overrun).epoch = s.epoch := rfl
@[simp] theorem State.overrun_turns (s : State) : (s.overrun).turns = s.turns := rfl
@[simp] theorem State.overrun_got (s : State) : (s.overrun).got = s.got := rfl

/-! accept -/

@[simp] theorem State.accept_config (s : State) (w : Word) : (s.accept w).config = s.config := rfl
@[simp] theorem State.accept_doneIE (s : State) (w : Word) : (s.accept w).doneIE = s.doneIE := rfl
@[simp] theorem State.accept_errIE (s : State) (w : Word) : (s.accept w).errIE = s.errIE := rfl
@[simp] theorem State.accept_done (s : State) (w : Word) : (s.accept w).done = false := rfl
@[simp] theorem State.accept_err (s : State) (w : Word) : (s.accept w).err = s.err := rfl
@[simp] theorem State.accept_ovr (s : State) (w : Word) : (s.accept w).ovr = s.ovr := rfl
@[simp] theorem State.accept_cmd (s : State) (w : Word) : (s.accept w).cmd = w := rfl
@[simp] theorem State.accept_src (s : State) (w : Word) : (s.accept w).src = s.src := rfl
@[simp] theorem State.accept_dst (s : State) (w : Word) : (s.accept w).dst = s.dst := rfl
@[simp] theorem State.accept_len (s : State) (w : Word) : (s.accept w).len = s.len := rfl
@[simp] theorem State.accept_errCause (s : State) (w : Word) : (s.accept w).errCause = s.errCause := rfl
@[simp] theorem State.accept_errOp (s : State) (w : Word) : (s.accept w).errOp = s.errOp := rfl
@[simp] theorem State.accept_errInfo (s : State) (w : Word) : (s.accept w).errInfo = s.errInfo := rfl
@[simp] theorem State.accept_resBits (s : State) (w : Word) : (s.accept w).resBits = s.resBits := rfl
@[simp] theorem State.accept_resBytes (s : State) (w : Word) : (s.accept w).resBytes = s.resBytes := rfl
@[simp] theorem State.accept_freq (s : State) (w : Word) : (s.accept w).freq = s.freq := rfl
@[simp] theorem State.accept_tree (s : State) (w : Word) : (s.accept w).tree = s.tree := rfl
@[simp] theorem State.accept_buf (s : State) (w : Word) : (s.accept w).buf = s.buf := rfl
@[simp] theorem State.accept_pending (s : State) (w : Word) : (s.accept w).pending = some w := rfl
@[simp] theorem State.accept_epoch (s : State) (w : Word) : (s.accept w).epoch = s.epoch := rfl
@[simp] theorem State.accept_turns (s : State) (w : Word) : (s.accept w).turns = s.turns := rfl
@[simp] theorem State.accept_got (s : State) (w : Word) : (s.accept w).got = s.got := rfl

/-! acknowledge -/

@[simp] theorem State.acknowledge_config (s : State) (w : Word) : (s.acknowledge w).config = s.config := rfl
@[simp] theorem State.acknowledge_doneIE (s : State) (w : Word) : (s.acknowledge w).doneIE = s.doneIE := rfl
@[simp] theorem State.acknowledge_errIE (s : State) (w : Word) : (s.acknowledge w).errIE = s.errIE := rfl
@[simp] theorem State.acknowledge_done (s : State) (w : Word) : (s.acknowledge w).done = (s.done && !w.getLsbD 1) := rfl
@[simp] theorem State.acknowledge_err (s : State) (w : Word) : (s.acknowledge w).err = (s.err && !w.getLsbD 2) := rfl
@[simp] theorem State.acknowledge_ovr (s : State) (w : Word) : (s.acknowledge w).ovr = (s.ovr && !w.getLsbD 3) := rfl
@[simp] theorem State.acknowledge_cmd (s : State) (w : Word) : (s.acknowledge w).cmd = s.cmd := rfl
@[simp] theorem State.acknowledge_src (s : State) (w : Word) : (s.acknowledge w).src = s.src := rfl
@[simp] theorem State.acknowledge_dst (s : State) (w : Word) : (s.acknowledge w).dst = s.dst := rfl
@[simp] theorem State.acknowledge_len (s : State) (w : Word) : (s.acknowledge w).len = s.len := rfl
@[simp] theorem State.acknowledge_errCause (s : State) (w : Word) : (s.acknowledge w).errCause = s.errCause := rfl
@[simp] theorem State.acknowledge_errOp (s : State) (w : Word) : (s.acknowledge w).errOp = s.errOp := rfl
@[simp] theorem State.acknowledge_errInfo (s : State) (w : Word) : (s.acknowledge w).errInfo = s.errInfo := rfl
@[simp] theorem State.acknowledge_resBits (s : State) (w : Word) : (s.acknowledge w).resBits = s.resBits := rfl
@[simp] theorem State.acknowledge_resBytes (s : State) (w : Word) : (s.acknowledge w).resBytes = s.resBytes := rfl
@[simp] theorem State.acknowledge_freq (s : State) (w : Word) : (s.acknowledge w).freq = s.freq := rfl
@[simp] theorem State.acknowledge_tree (s : State) (w : Word) : (s.acknowledge w).tree = s.tree := rfl
@[simp] theorem State.acknowledge_buf (s : State) (w : Word) : (s.acknowledge w).buf = s.buf := rfl
@[simp] theorem State.acknowledge_pending (s : State) (w : Word) : (s.acknowledge w).pending = s.pending := rfl
@[simp] theorem State.acknowledge_epoch (s : State) (w : Word) : (s.acknowledge w).epoch = s.epoch := rfl
@[simp] theorem State.acknowledge_turns (s : State) (w : Word) : (s.acknowledge w).turns = s.turns := rfl
@[simp] theorem State.acknowledge_got (s : State) (w : Word) : (s.acknowledge w).got = s.got := rfl

/-! writeCtrl -/

@[simp] theorem State.writeCtrl_config (s : State) (w : Word) : (s.writeCtrl w).config = s.config := rfl
@[simp] theorem State.writeCtrl_doneIE (s : State) (w : Word) : (s.writeCtrl w).doneIE = w.getLsbD 0 := rfl
@[simp] theorem State.writeCtrl_errIE (s : State) (w : Word) : (s.writeCtrl w).errIE = w.getLsbD 1 := rfl
@[simp] theorem State.writeCtrl_done (s : State) (w : Word) : (s.writeCtrl w).done = s.done := rfl
@[simp] theorem State.writeCtrl_err (s : State) (w : Word) : (s.writeCtrl w).err = s.err := rfl
@[simp] theorem State.writeCtrl_ovr (s : State) (w : Word) : (s.writeCtrl w).ovr = s.ovr := rfl
@[simp] theorem State.writeCtrl_cmd (s : State) (w : Word) : (s.writeCtrl w).cmd = s.cmd := rfl
@[simp] theorem State.writeCtrl_src (s : State) (w : Word) : (s.writeCtrl w).src = s.src := rfl
@[simp] theorem State.writeCtrl_dst (s : State) (w : Word) : (s.writeCtrl w).dst = s.dst := rfl
@[simp] theorem State.writeCtrl_len (s : State) (w : Word) : (s.writeCtrl w).len = s.len := rfl
@[simp] theorem State.writeCtrl_errCause (s : State) (w : Word) : (s.writeCtrl w).errCause = s.errCause := rfl
@[simp] theorem State.writeCtrl_errOp (s : State) (w : Word) : (s.writeCtrl w).errOp = s.errOp := rfl
@[simp] theorem State.writeCtrl_errInfo (s : State) (w : Word) : (s.writeCtrl w).errInfo = s.errInfo := rfl
@[simp] theorem State.writeCtrl_resBits (s : State) (w : Word) : (s.writeCtrl w).resBits = s.resBits := rfl
@[simp] theorem State.writeCtrl_resBytes (s : State) (w : Word) : (s.writeCtrl w).resBytes = s.resBytes := rfl
@[simp] theorem State.writeCtrl_freq (s : State) (w : Word) : (s.writeCtrl w).freq = s.freq := rfl
@[simp] theorem State.writeCtrl_tree (s : State) (w : Word) : (s.writeCtrl w).tree = s.tree := rfl
@[simp] theorem State.writeCtrl_buf (s : State) (w : Word) : (s.writeCtrl w).buf = s.buf := rfl
@[simp] theorem State.writeCtrl_pending (s : State) (w : Word) : (s.writeCtrl w).pending = s.pending := rfl
@[simp] theorem State.writeCtrl_epoch (s : State) (w : Word) : (s.writeCtrl w).epoch = s.epoch := rfl
@[simp] theorem State.writeCtrl_turns (s : State) (w : Word) : (s.writeCtrl w).turns = s.turns := rfl
@[simp] theorem State.writeCtrl_got (s : State) (w : Word) : (s.writeCtrl w).got = s.got := rfl

/-! give -/

@[simp] theorem State.give_config (s : State) (w : Word) : (s.give w).config = s.config := rfl
@[simp] theorem State.give_doneIE (s : State) (w : Word) : (s.give w).doneIE = s.doneIE := rfl
@[simp] theorem State.give_errIE (s : State) (w : Word) : (s.give w).errIE = s.errIE := rfl
@[simp] theorem State.give_done (s : State) (w : Word) : (s.give w).done = s.done := rfl
@[simp] theorem State.give_err (s : State) (w : Word) : (s.give w).err = s.err := rfl
@[simp] theorem State.give_ovr (s : State) (w : Word) : (s.give w).ovr = s.ovr := rfl
@[simp] theorem State.give_cmd (s : State) (w : Word) : (s.give w).cmd = s.cmd := rfl
@[simp] theorem State.give_src (s : State) (w : Word) : (s.give w).src = s.src := rfl
@[simp] theorem State.give_dst (s : State) (w : Word) : (s.give w).dst = s.dst := rfl
@[simp] theorem State.give_len (s : State) (w : Word) : (s.give w).len = s.len := rfl
@[simp] theorem State.give_errCause (s : State) (w : Word) : (s.give w).errCause = s.errCause := rfl
@[simp] theorem State.give_errOp (s : State) (w : Word) : (s.give w).errOp = s.errOp := rfl
@[simp] theorem State.give_errInfo (s : State) (w : Word) : (s.give w).errInfo = s.errInfo := rfl
@[simp] theorem State.give_resBits (s : State) (w : Word) : (s.give w).resBits = s.resBits := rfl
@[simp] theorem State.give_resBytes (s : State) (w : Word) : (s.give w).resBytes = s.resBytes := rfl
@[simp] theorem State.give_freq (s : State) (w : Word) : (s.give w).freq = s.freq := rfl
@[simp] theorem State.give_tree (s : State) (w : Word) : (s.give w).tree = s.tree := rfl
@[simp] theorem State.give_buf (s : State) (w : Word) : (s.give w).buf = s.buf := rfl
@[simp] theorem State.give_pending (s : State) (w : Word) : (s.give w).pending = s.pending := rfl
@[simp] theorem State.give_epoch (s : State) (w : Word) : (s.give w).epoch = s.epoch := rfl
@[simp] theorem State.give_turns (s : State) (w : Word) : (s.give w).turns = s.turns := rfl
@[simp] theorem State.give_got (s : State) (w : Word) : (s.give w).got = w :: s.got := rfl

/-! setTurns -/

@[simp] theorem State.setTurns_config (s : State) (ts : List Turn) : (s.setTurns ts).config = s.config := rfl
@[simp] theorem State.setTurns_doneIE (s : State) (ts : List Turn) : (s.setTurns ts).doneIE = s.doneIE := rfl
@[simp] theorem State.setTurns_errIE (s : State) (ts : List Turn) : (s.setTurns ts).errIE = s.errIE := rfl
@[simp] theorem State.setTurns_done (s : State) (ts : List Turn) : (s.setTurns ts).done = s.done := rfl
@[simp] theorem State.setTurns_err (s : State) (ts : List Turn) : (s.setTurns ts).err = s.err := rfl
@[simp] theorem State.setTurns_ovr (s : State) (ts : List Turn) : (s.setTurns ts).ovr = s.ovr := rfl
@[simp] theorem State.setTurns_cmd (s : State) (ts : List Turn) : (s.setTurns ts).cmd = s.cmd := rfl
@[simp] theorem State.setTurns_src (s : State) (ts : List Turn) : (s.setTurns ts).src = s.src := rfl
@[simp] theorem State.setTurns_dst (s : State) (ts : List Turn) : (s.setTurns ts).dst = s.dst := rfl
@[simp] theorem State.setTurns_len (s : State) (ts : List Turn) : (s.setTurns ts).len = s.len := rfl
@[simp] theorem State.setTurns_errCause (s : State) (ts : List Turn) : (s.setTurns ts).errCause = s.errCause := rfl
@[simp] theorem State.setTurns_errOp (s : State) (ts : List Turn) : (s.setTurns ts).errOp = s.errOp := rfl
@[simp] theorem State.setTurns_errInfo (s : State) (ts : List Turn) : (s.setTurns ts).errInfo = s.errInfo := rfl
@[simp] theorem State.setTurns_resBits (s : State) (ts : List Turn) : (s.setTurns ts).resBits = s.resBits := rfl
@[simp] theorem State.setTurns_resBytes (s : State) (ts : List Turn) : (s.setTurns ts).resBytes = s.resBytes := rfl
@[simp] theorem State.setTurns_freq (s : State) (ts : List Turn) : (s.setTurns ts).freq = s.freq := rfl
@[simp] theorem State.setTurns_tree (s : State) (ts : List Turn) : (s.setTurns ts).tree = s.tree := rfl
@[simp] theorem State.setTurns_buf (s : State) (ts : List Turn) : (s.setTurns ts).buf = s.buf := rfl
@[simp] theorem State.setTurns_pending (s : State) (ts : List Turn) : (s.setTurns ts).pending = s.pending := rfl
@[simp] theorem State.setTurns_epoch (s : State) (ts : List Turn) : (s.setTurns ts).epoch = s.epoch := rfl
@[simp] theorem State.setTurns_turns (s : State) (ts : List Turn) : (s.setTurns ts).turns = ts := rfl
@[simp] theorem State.setTurns_got (s : State) (ts : List Turn) : (s.setTurns ts).got = s.got := rfl

/-! resetBlock -/

@[simp] theorem State.resetBlock_config (s : State) : (s.resetBlock).config = s.config := rfl
@[simp] theorem State.resetBlock_doneIE (s : State) : (s.resetBlock).doneIE = State.reset.doneIE := rfl
@[simp] theorem State.resetBlock_errIE (s : State) : (s.resetBlock).errIE = State.reset.errIE := rfl
@[simp] theorem State.resetBlock_done (s : State) : (s.resetBlock).done = State.reset.done := rfl
@[simp] theorem State.resetBlock_err (s : State) : (s.resetBlock).err = State.reset.err := rfl
@[simp] theorem State.resetBlock_ovr (s : State) : (s.resetBlock).ovr = State.reset.ovr := rfl
@[simp] theorem State.resetBlock_cmd (s : State) : (s.resetBlock).cmd = State.reset.cmd := rfl
@[simp] theorem State.resetBlock_src (s : State) : (s.resetBlock).src = State.reset.src := rfl
@[simp] theorem State.resetBlock_dst (s : State) : (s.resetBlock).dst = State.reset.dst := rfl
@[simp] theorem State.resetBlock_len (s : State) : (s.resetBlock).len = State.reset.len := rfl
@[simp] theorem State.resetBlock_errCause (s : State) : (s.resetBlock).errCause = State.reset.errCause := rfl
@[simp] theorem State.resetBlock_errOp (s : State) : (s.resetBlock).errOp = State.reset.errOp := rfl
@[simp] theorem State.resetBlock_errInfo (s : State) : (s.resetBlock).errInfo = State.reset.errInfo := rfl
@[simp] theorem State.resetBlock_resBits (s : State) : (s.resetBlock).resBits = State.reset.resBits := rfl
@[simp] theorem State.resetBlock_resBytes (s : State) : (s.resetBlock).resBytes = State.reset.resBytes := rfl
@[simp] theorem State.resetBlock_freq (s : State) : (s.resetBlock).freq = State.reset.freq := rfl
@[simp] theorem State.resetBlock_tree (s : State) : (s.resetBlock).tree = State.reset.tree := rfl
@[simp] theorem State.resetBlock_buf (s : State) : (s.resetBlock).buf = State.reset.buf := rfl
@[simp] theorem State.resetBlock_pending (s : State) : (s.resetBlock).pending = State.reset.pending := rfl
@[simp] theorem State.resetBlock_epoch (s : State) : (s.resetBlock).epoch = s.epoch + 1 := rfl
@[simp] theorem State.resetBlock_turns (s : State) : (s.resetBlock).turns = s.turns := rfl
@[simp] theorem State.resetBlock_got (s : State) : (s.resetBlock).got = s.got := rfl

/-! Ran.complete: what no completion changes, and what every completion writes. -/

@[simp] theorem Ran.complete_config (r : Ran) (w : Word) : (r.complete w).config = r.state.config := by
  unfold Ran.complete; split <;> rfl
@[simp] theorem Ran.complete_doneIE (r : Ran) (w : Word) : (r.complete w).doneIE = r.state.doneIE := by
  unfold Ran.complete; split <;> rfl
@[simp] theorem Ran.complete_errIE (r : Ran) (w : Word) : (r.complete w).errIE = r.state.errIE := by
  unfold Ran.complete; split <;> rfl
@[simp] theorem Ran.complete_done (r : Ran) (w : Word) : (r.complete w).done = true := by
  unfold Ran.complete; split <;> rfl
@[simp] theorem Ran.complete_ovr (r : Ran) (w : Word) : (r.complete w).ovr = r.state.ovr := by
  unfold Ran.complete; split <;> rfl
@[simp] theorem Ran.complete_cmd (r : Ran) (w : Word) : (r.complete w).cmd = r.state.cmd := by
  unfold Ran.complete; split <;> rfl
@[simp] theorem Ran.complete_src (r : Ran) (w : Word) : (r.complete w).src = r.state.src := by
  unfold Ran.complete; split <;> rfl
@[simp] theorem Ran.complete_dst (r : Ran) (w : Word) : (r.complete w).dst = r.state.dst := by
  unfold Ran.complete; split <;> rfl
@[simp] theorem Ran.complete_len (r : Ran) (w : Word) : (r.complete w).len = r.state.len := by
  unfold Ran.complete; split <;> rfl
@[simp] theorem Ran.complete_errOp (r : Ran) (w : Word) : (r.complete w).errOp = w.extractLsb' 0 4 := by
  unfold Ran.complete; split <;> rfl
@[simp] theorem Ran.complete_resBits (r : Ran) (w : Word) : (r.complete w).resBits = r.state.resBits := by
  unfold Ran.complete; split <;> rfl
@[simp] theorem Ran.complete_resBytes (r : Ran) (w : Word) : (r.complete w).resBytes = r.state.resBytes := by
  unfold Ran.complete; split <;> rfl
@[simp] theorem Ran.complete_freq (r : Ran) (w : Word) : (r.complete w).freq = r.state.freq := by
  unfold Ran.complete; split <;> rfl
@[simp] theorem Ran.complete_tree (r : Ran) (w : Word) : (r.complete w).tree = r.state.tree := by
  unfold Ran.complete; split <;> rfl
@[simp] theorem Ran.complete_buf (r : Ran) (w : Word) : (r.complete w).buf = r.state.buf := by
  unfold Ran.complete; split <;> rfl
@[simp] theorem Ran.complete_pending (r : Ran) (w : Word) : (r.complete w).pending = none := by
  unfold Ran.complete; split <;> rfl
@[simp] theorem Ran.complete_epoch (r : Ran) (w : Word) : (r.complete w).epoch = r.state.epoch := by
  unfold Ran.complete; split <;> rfl
@[simp] theorem Ran.complete_turns (r : Ran) (w : Word) : (r.complete w).turns = r.state.turns := by
  unfold Ran.complete; split <;> rfl
@[simp] theorem Ran.complete_got (r : Ran) (w : Word) : (r.complete w).got = r.state.got := by
  unfold Ran.complete; split <;> rfl

/-- A command that ended without a raise. -/
@[simp] theorem Ran.complete_ok (s : State) (w : Word) : (Ran.ok s).complete w =
    { s with errCause := .noError, errOp := w.extractLsb' 0 4, errInfo := 0#32, done := true, pending := none } := rfl

/-- A command that raised. -/
@[simp] theorem Ran.complete_raised (s : State) (c : Cause) (info w : Word) : (Ran.raised s c info).complete w =
    { s with errCause := c, errOp := w.extractLsb' 0 4, errInfo := info, err := true, done := true, pending := none } :=
  rfl

/-- A command that raised, the raise given as a value. -/
@[simp] theorem Ran.complete_some (s : State) (e : CmdError) (w : Word) : (Ran.mk s (some e)).complete w =
    { s with
      errCause := e.cause, errOp := w.extractLsb' 0 4, errInfo := e.info, err := true, done := true, pending := none } :=
  rfl

@[simp] theorem Ran.ok_state (s : State) : (Ran.ok s).state = s := rfl
@[simp] theorem Ran.ok_error (s : State) : (Ran.ok s).error = none := rfl
@[simp] theorem Ran.raised_state (s : State) (c : Cause) (info : Word) : (Ran.raised s c info).state = s := rfl
@[simp] theorem Ran.raised_error (s : State) (c : Cause) (info : Word) :
    (Ran.raised s c info).error = some ⟨c, info⟩ := rfl

end Sys2Proof.Machine
end

