-- ==== Sys2Proof/Laws/Memory.lean ====
section
/-!
SUPPORT. BUF: a read after a write, the canonical form, and what a run of byte writes leaves.
-/

namespace Sys2Proof.Machine

/-! Cells. -/

@[simp] theorem Memory.get_set_self (m : Memory) (a : Nat) (v : Byte) : Memory.get (Memory.set m a v) a = some v := by
  induction m with
  | nil => simp [Memory.set, Memory.get]
  | cons c m ih =>
    obtain ⟨k, u⟩ := c
    simp only [Memory.set]
    split
    · simp [Memory.get]
    · split
      · simp [Memory.get]
      · have h1 : ¬ k = a := by omega
        simp [Memory.get, h1, ih]
        omega

theorem Memory.get_set_ne (m : Memory) {a b : Nat} (v : Byte) (h : b ≠ a) :
    Memory.get (Memory.set m a v) b = Memory.get m b := by
  induction m with
  | nil => simp [Memory.set, Memory.get, Ne.symm h]
  | cons c m ih =>
    obtain ⟨k, u⟩ := c
    simp only [Memory.set]
    split
    · by_cases hb : b < a
      · have : ¬ k = b := by omega
        have : b < k := by omega
        simp [Memory.get, Ne.symm h, *]
      · simp [Memory.get, Ne.symm h, hb]
    · split
      · subst a
        by_cases hb : b < k <;> simp [Memory.get, Ne.symm h, hb]
      · simp [Memory.get, ih]

/-- The cells after a write are the old ones and the one written. -/
theorem Memory.mem_set {m : Memory} {a : Nat} {v : Byte} {c : Host.Cell} (h : c ∈ Memory.set m a v) :
    c = (a, v) ∨ c ∈ m := by
  induction m with
  | nil => simpa [Memory.set] using h
  | cons d m ih =>
    obtain ⟨k, u⟩ := d
    simp only [Memory.set] at h
    split at h
    · simpa using h
    · split at h
      · rcases List.mem_cons.1 h with h | h
        · exact .inl h
        · exact .inr (List.mem_cons_of_mem _ h)
      · rcases List.mem_cons.1 h with h | h
        · exact .inr (h ▸ List.mem_cons_self)
        · exact (ih h).imp_right (List.mem_cons_of_mem _)

/-- The canonical form, as a proposition. -/
theorem Memory.wf_iff (m : Memory) : Memory.wf m = true ↔ m.Pairwise fun x y => x.1 < y.1 := by simp [Memory.wf]

@[simp] theorem Memory.wf_nil : Memory.wf [] = true := by simp [Memory.wf]

/-- A write keeps the canonical form. -/
theorem Memory.wf_set {m : Memory} (a : Nat) (v : Byte) (h : Memory.wf m = true) : Memory.wf (Memory.set m a v) = true := by
  rw [Memory.wf_iff] at *
  induction m with
  | nil => simp [Memory.set]
  | cons c m ih =>
    obtain ⟨k, u⟩ := c
    rw [List.pairwise_cons] at h
    simp only [Memory.set]
    split
    · refine List.pairwise_cons.2 ⟨?_, List.pairwise_cons.2 h⟩
      intro d hd
      rcases List.mem_cons.1 hd with rfl | hd
      · assumption
      · have := h.1 d hd; simp only at this ⊢; omega
    · split
      · subst a; exact List.pairwise_cons.2 h
      · refine List.pairwise_cons.2 ⟨?_, ih h.2⟩
        intro d hd
        rcases Memory.mem_set hd with rfl | hd
        · simp only; omega
        · exact h.1 d hd

/-- In canonical form an offset below every cell is unlisted. -/
theorem Memory.get_none_of_lt {m : Memory} {a : Nat} (h : ∀ c ∈ m, a < c.1) : Memory.get m a = none := by
  cases m with
  | nil => rfl
  | cons c m =>
    obtain ⟨k, u⟩ := c
    have hk : a < k := h (k, u) List.mem_cons_self
    have : ¬ k = a := by omega
    simp [Memory.get, this, hk]

/-- Equal memories are equal data: two canonical memories that list the same byte at every offset are equal. -/
theorem Memory.ext {m n : Memory} (hm : Memory.wf m = true) (hn : Memory.wf n = true)
    (h : ∀ a, Memory.get m a = Memory.get n a) : m = n := by
  rw [Memory.wf_iff] at hm hn
  induction m generalizing n with
  | nil =>
    cases n with
    | nil => rfl
    | cons d n => obtain ⟨k, u⟩ := d; simpa [Memory.get] using h k
  | cons c m ih =>
    obtain ⟨k, u⟩ := c
    cases n with
    | nil => simpa [Memory.get] using h k
    | cons d n =>
      obtain ⟨l, v⟩ := d
      rw [List.pairwise_cons] at hm hn
      have hkl : k = l := by
        have h1 := h k
        have h2 := h l
        simp only [Memory.get, if_true] at h1 h2
        by_cases e : k = l
        · exact e
        · simp only [e, Ne.symm e, if_false] at h1 h2
          by_cases hlt : k < l
          · simp [hlt] at h1
          · have : l < k := by omega
            simp [this] at h2
      subst hkl
      have huv : u = v := by simpa [Memory.get] using h k
      subst huv
      congr 1
      refine ih hm.2 hn.2 fun a => ?_
      have ha := h a
      by_cases e : k = a
      · subst e
        rw [Memory.get_none_of_lt hm.1, Memory.get_none_of_lt hn.1]
      · simp only [Memory.get, e, if_false] at ha
        by_cases hlt : a < k
        · rw [Memory.get_none_of_lt fun c hc => Nat.lt_trans hlt (hm.1 c hc),
            Memory.get_none_of_lt fun c hc => Nat.lt_trans hlt (hn.1 c hc)]
        · simpa [hlt] using ha

/-! Bytes of BUF. -/

/-- A read depends on BUF's bytes and the draw only. -/
theorem State.readByte_congr {s t : State} (hb : t.buf = s.buf) (he : t.epoch = s.epoch) (a : Nat) :
    t.readByte a = s.readByte a := by simp [State.readByte, hb, he]

@[simp] theorem State.readByte_writeByte_self (s : State) (a : Nat) (v : Byte) : (s.writeByte a v).readByte a = v := by
  simp [State.readByte]

theorem State.readByte_writeByte_ne (s : State) {a b : Nat} (v : Byte) (h : b ≠ a) :
    (s.writeByte a v).readByte b = s.readByte b := by simp [State.readByte, Memory.get_set_ne _ v h]

@[simp] theorem State.readByte_setResult (s : State) (m n a : Nat) : (s.setResult m n).readByte a = s.readByte a := rfl
@[simp] theorem State.readByte_setFreq (s : State) (f : Table Word) (a : Nat) : (s.setFreq f).readByte a = s.readByte a := rfl
@[simp] theorem State.readByte_invalidate (s : State) (a : Nat) : s.invalidate.readByte a = s.readByte a := rfl
@[simp] theorem State.readByte_setTree (s : State) (b : Built) (a : Nat) : (s.setTree b).readByte a = s.readByte a := rfl
@[simp] theorem State.readByte_setTurns (s : State) (ts : List Turn) (a : Nat) :
    (s.setTurns ts).readByte a = s.readByte a := rfl
@[simp] theorem State.readByte_complete (r : Ran) (w : Word) (a : Nat) :
    (r.complete w).readByte a = r.state.readByte a := State.readByte_congr (by simp) (by simp) a

/-- A run of byte writes changes BUF alone. -/
theorem State.writeBytes_eq (s : State) (a : Nat) (vs : List Byte) :
    s.writeBytes a vs = { s with buf := (s.writeBytes a vs).buf } := by
  induction vs generalizing s a with
  | nil => rfl
  | cons v vs ih => rw [State.writeBytes, ih]; rfl

theorem State.epoch_writeBytes (s : State) (a : Nat) (vs : List Byte) : (s.writeBytes a vs).epoch = s.epoch := by
  rw [State.writeBytes_eq]

/-- What a run of byte writes leaves, inside and outside. -/
theorem State.readByte_writeBytes (s : State) (a : Nat) (vs : List Byte) (b : Nat) :
    (s.writeBytes a vs).readByte b =
      if a ≤ b ∧ b < a + vs.length then vs.getD (b - a) 0#8 else s.readByte b := by
  induction vs generalizing s a with
  | nil =>
    have : ¬ (a ≤ b ∧ b < a + ([] : List Byte).length) := by simp
    rw [if_neg this]; rfl
  | cons v vs ih =>
    rw [State.writeBytes, ih]
    by_cases h : b = a
    · subst h
      have : ¬ b + 1 ≤ b := by omega
      simp [this]
    · rw [State.readByte_writeByte_ne s v h]
      by_cases hab : a < b
      · obtain ⟨c, rfl⟩ : ∃ c, b = a + 1 + c := ⟨b - a - 1, by omega⟩
        have e : a + 1 + c - a = c + 1 := by omega
        simp only [List.length_cons, e, List.getD_cons_succ, Nat.add_sub_cancel_left]
        congr 1
        simp only [eq_iff_iff]; omega
      · have h1 : ¬ (a + 1 ≤ b ∧ b < a + 1 + vs.length) := by omega
        have h2 : ¬ (a ≤ b ∧ b < a + (v :: vs).length) := by omega
        rw [if_neg h1, if_neg h2]

/-- A run of byte writes keeps the canonical form. -/
theorem State.wf_writeBytes (s : State) (a : Nat) (vs : List Byte) (h : Memory.wf s.buf = true) :
    Memory.wf (s.writeBytes a vs).buf = true := by
  induction vs generalizing s a with
  | nil => exact h
  | cons v vs ih => exact ih _ _ (Memory.wf_set a v h)

/-- The cells a run of byte writes leaves are old ones or lie in the range written. -/
theorem State.mem_writeBytes (s : State) (a : Nat) (vs : List Byte) {c : Host.Cell}
    (h : c ∈ (s.writeBytes a vs).buf) : c ∈ s.buf ∨ (a ≤ c.1 ∧ c.1 < a + vs.length) := by
  induction vs generalizing s a with
  | nil => exact .inl h
  | cons v vs ih =>
    simp only [List.length_cons]
    rcases ih _ _ h with h | h
    · rcases Memory.mem_set h with rfl | h
      · exact .inr ⟨Nat.le_refl _, by simp only; omega⟩
      · exact .inl h
    · exact .inr (by omega)

/-! Ranges. -/

@[simp] theorem State.length_bytesAt (s : State) (a n : Nat) : (s.bytesAt a n).length = n := by simp [State.bytesAt]

@[simp] theorem State.getElem_bytesAt (s : State) (a n i : Nat) (h : i < (s.bytesAt a n).length) :
    (s.bytesAt a n)[i] = s.readByte (a + i) := by simp [State.bytesAt]

/-- Ranges of equal bytes are equal. -/
theorem State.bytesAt_congr {s t : State} {a n : Nat} (h : ∀ i < n, t.readByte (a + i) = s.readByte (a + i)) :
    t.bytesAt a n = s.bytesAt a n := by
  refine List.ext_getElem (by simp) fun i h1 h2 => ?_
  simpa using h i (by simpa using h1)

/-- A range reads as a list when each of its bytes does. -/
theorem State.bytesAt_eq {t : State} {a : Nat} {xs : List Byte}
    (h : ∀ i, (hi : i < xs.length) → t.readByte (a + i) = xs[i]) : t.bytesAt a xs.length = xs := by
  refine List.ext_getElem (by simp) fun i h1 h2 => ?_
  simpa using h i h2

end Sys2Proof.Machine
end

