-- ==== Sys2Proof/Laws/Bits.lean ====
section
/-!
SUPPORT. Bit-level facts: most-significant-first packing, PutBits against BitAt, the words of a codeword, the BUF
window's byte order.
-/

namespace Sys2Proof.Machine

theorem msbFirst_lt (n : Nat) (f : Nat → Bool) : msbFirst n f < 2 ^ n := by
  induction n generalizing f with
  | zero => simp [msbFirst]
  | succ n ih =>
    have h := ih fun j => f (j + 1)
    have hb : (f 0).toNat ≤ 1 := Bool.toNat_le _
    have : (f 0).toNat * 2 ^ n ≤ 1 * 2 ^ n := Nat.mul_le_mul_right _ hb
    rw [msbFirst, Nat.pow_succ]
    omega

/-- Bit `n - 1 - j` of the packed number is `f j`. -/
theorem testBit_msbFirst (n : Nat) (f : Nat → Bool) {j : Nat} (h : j < n) :
    (msbFirst n f).testBit (n - 1 - j) = f j := by
  induction n generalizing f j with
  | zero => omega
  | succ n ih =>
    rw [msbFirst, Nat.mul_comm, Nat.testBit_two_pow_mul_add _ (msbFirst_lt n _)]
    cases j with
    | zero => simp; cases f 0 <;> rfl
    | succ j =>
      have h1 : n + 1 - 1 - (j + 1) < n := by omega
      have h2 : n + 1 - 1 - (j + 1) = n - 1 - j := by omega
      rw [if_pos h1, h2]
      exact ih (fun j => f (j + 1)) (by omega)

/-- Bit 7 - b of packed byte `j` is bit 8j + b of the bit string, 0 past its end (R50). -/
theorem getLsbD_packedByte (c : Codeword) (j : Nat) {b : Nat} (h : b < 8) :
    (packedByte c j).getLsbD (7 - b) = c.getD (8 * j + b) false := by
  have h7 : 7 - b < 8 := by omega
  rw [packedByte, BitVec.getLsbD_ofNat, decide_eq_true h7, Bool.true_and]
  exact testBit_msbFirst 8 (fun b => c.getD (8 * j + b) false) h

/-- Bit 31 - j of CODE_BITS word `k` is bit 32k + j of the codeword, 0 past its end (R77). -/
theorem getLsbD_codeBitsWord (c : Codeword) (k : Nat) {j : Nat} (h : j < 32) :
    (codeBitsWord c k).getLsbD (31 - j) = c.getD (32 * k + j) false := by
  have h31 : 31 - j < 32 := by omega
  rw [codeBitsWord, BitVec.getLsbD_ofNat, decide_eq_true h31, Bool.true_and]
  exact testBit_msbFirst 32 (fun j => c.getD (32 * k + j) false) h

@[simp] theorem length_packedBytes (c : Codeword) : (packedBytes c).length = ceilDiv8 c.length := by simp [packedBytes]

/-- BitAt reads what PutBits wrote, and 0 in the padding of the last byte (R51). -/
theorem bitAt_putBits (s : State) (base : Nat) (c : Codeword) {t : Nat} (h : t < 8 * ceilDiv8 c.length) :
    (s.putBits base c).bitAt base t = c.getD t false := by
  have hj : t / 8 < ceilDiv8 c.length := by omega
  have hm : t % 8 < 8 := Nat.mod_lt _ (by decide)
  rw [State.bitAt, State.putBits, State.readByte_writeBytes, if_pos (by simpa using hj), Nat.add_sub_cancel_left]
  have : (packedBytes c).getD (t / 8) 0#8 = packedByte c (t / 8) := by
    simp [packedBytes, List.getElem?_range hj]
  rw [this, getLsbD_packedByte c _ hm]
  congr 1
  omega

/-- PutBits writes exactly the bytes of the packed stream (R50). -/
theorem readByte_putBits_outside (s : State) (base : Nat) (c : Codeword) {a : Nat}
    (h : a < base ∨ base + ceilDiv8 c.length ≤ a) : (s.putBits base c).readByte a = s.readByte a := by
  rw [State.putBits, State.readByte_writeBytes, if_neg (by simp; omega)]

/-- PutBits changes BUF alone. -/
theorem putBits_eq (s : State) (base : Nat) (c : Codeword) :
    s.putBits base c = { s with buf := (s.putBits base c).buf } := State.writeBytes_eq _ _ _

/-- BitAt depends on the bytes it reads only. -/
theorem bitAt_congr {s t : State} {base j : Nat} (h : t.readByte (base + j / 8) = s.readByte (base + j / 8)) :
    t.bitAt base j = s.bitAt base j := by rw [State.bitAt, h, State.bitAt]

/-- A BUF-window word holds byte a + i in bits [8i+7:8i] (R40). -/
theorem extract_readBufWord (s : State) (a : Nat) {i : Nat} (h : i < 4) :
    (s.readBufWord a).extractLsb' (8 * i) 8 = s.readByte (a + i) := by
  refine BitVec.eq_of_getLsbD_eq fun j hj => ?_
  have hi : i = 0 ∨ i = 1 ∨ i = 2 ∨ i = 3 := by omega
  rw [BitVec.getLsbD_extractLsb', decide_eq_true hj, Bool.true_and]
  simp only [State.readBufWord, BitVec.getLsbD_append]
  rcases hi with rfl | rfl | rfl | rfl
  all_goals
    repeat' split
    all_goals first
      | omega
      | (congr 1; omega)

/-- A write of a BUF-window word sets byte a + i to bits [8i+7:8i] (R40). -/
theorem readByte_writeBufWord (s : State) (a : Nat) (w : Word) {i : Nat} (h : i < 4) :
    (s.writeBufWord a w).readByte (a + i) = w.extractLsb' (8 * i) 8 := by
  rw [State.writeBufWord, State.readByte_writeBytes, if_pos (by simp [bytesOfWord]; omega), Nat.add_sub_cancel_left]
  have hi : i = 0 ∨ i = 1 ∨ i = 2 ∨ i = 3 := by omega
  rcases hi with rfl | rfl | rfl | rfl <;> rfl

theorem readByte_writeBufWord_outside (s : State) (a : Nat) (w : Word) {b : Nat} (h : b < a ∨ a + 4 ≤ b) :
    (s.writeBufWord a w).readByte b = s.readByte b := by
  rw [State.writeBufWord, State.readByte_writeBytes, if_neg (by simp [bytesOfWord]; omega)]

/-- The CODE_BITS words of an empty codeword are 0 (R77). -/
@[simp] theorem codeBitsWord_nil (k : Nat) : codeBitsWord [] k = 0#32 := by
  refine BitVec.eq_of_getLsbD_eq fun i hi => ?_
  have e : i = 31 - (31 - i) := by omega
  rw [e, getLsbD_codeBitsWord _ _ (by omega)]
  simp

end Sys2Proof.Machine
end

