-- ==== Sys2Proof/Laws/Access.lean ====
section
/-!
SUPPORT. The register window: what each offset of the map of spec/20_memory.md R35 leads to, and what a host access
there does.
-/

namespace Sys2Proof.Machine

/-- A word-aligned offset below 128 KiB is its own aligned offset. -/
theorem alignedOffset_off {n : Nat} (h : n < 0x20000) (h4 : n % 4 = 0) : alignedOffset (off n) = n := by
  simp only [alignedOffset, off, BitVec.toNat_ofNat]
  omega

theorem alignedOffset_lt (o : Offset) : alignedOffset o < 0x20000 ∧ alignedOffset o % 4 = 0 := by
  have := o.isLt
  simp only [alignedOffset]
  omega

/-- BUF_BYTES is a multiple of 4 between 4 and 65536 (R6). -/
theorem bufBytes_range (c : Config) : c.bufBytes % 4 = 0 ∧ 4 ≤ c.bufBytes ∧ c.bufBytes ≤ 65536 := by
  have := c.bufWordsLessOne.isLt
  simp only [Config.bufBytes]
  omega

/-- A register's offset (R15): the k-th register is at 4k. -/
theorem targetAt_register (c : Config) {k : Nat} (h : k < 16) : targetAt c (4 * k) = registers.getD k .reserved := by
  have h1 : 4 * k < 0x40 := by omega
  rw [targetAt, if_pos h1, Nat.mul_div_cancel_left k (by decide)]

theorem targetAt_reserved (c : Config) {a : Nat} (h : reservedOffset a) : targetAt c a = .reserved := by
  unfold reservedOffset at h
  unfold targetAt
  repeat' split
  all_goals first
    | rfl
    | omega

/-- A symbol's number as a byte is the symbol. -/
theorem byte_of_eq {n : Nat} {x : Byte} (h : n = x.toNat) : BitVec.ofNat 8 n = x := by
  rw [h, BitVec.ofNat_toNat, BitVec.setWidth_eq]

/-! The regions of the map (R35). An offset lies in one row of it: every other row's bound contradicts it. -/

theorem targetAt_freq (c : Config) (x : Byte) : targetAt c (0x00400 + 4 * x.toNat) = .freq x := by
  have := x.isLt
  unfold targetAt
  repeat' split
  all_goals first
    | omega
    | exact congrArg Target.freq (byte_of_eq (by omega))

theorem targetAt_codeLen (c : Config) (x : Byte) : targetAt c (0x00800 + 4 * x.toNat) = .codeLen x := by
  have := x.isLt
  unfold targetAt
  repeat' split
  all_goals first
    | omega
    | exact congrArg Target.codeLen (byte_of_eq (by omega))

theorem targetAt_codeBits (c : Config) (x : Byte) {k : Nat} (hk : k < 8) :
    targetAt c (0x02000 + 32 * x.toNat + 4 * k) = .codeBits x k := by
  have := x.isLt
  unfold targetAt
  repeat' split
  all_goals first
    | omega
    | exact congrArg₂ Target.codeBits (byte_of_eq (by omega)) (by omega)

theorem targetAt_node (c : Config) {n k : Nat} (hn : n ≤ 510) (hk : k < 4) :
    targetAt c (0x04000 + 16 * n + 4 * k) = .node (BitVec.ofNat 9 n) k := by
  unfold targetAt
  repeat' split
  all_goals first
    | omega
    | exact congrArg₂ Target.node (congrArg (BitVec.ofNat 9) (by omega)) (by omega)

/-- In the BUF window (R40, R41) only the size of BUF decides. -/
theorem targetAt_window (c : Config) (a : Nat) :
    targetAt c (0x10000 + a) = if a < c.bufBytes then .buf a else .reserved := by
  unfold targetAt
  rw [Nat.add_sub_cancel_left]
  repeat' split
  all_goals first
    | rfl
    | omega

theorem targetAt_buf (c : Config) {a : Nat} (h : a < c.bufBytes) : targetAt c (0x10000 + a) = .buf a :=
  (targetAt_window c a).trans (if_pos h)

theorem targetAt_past_buf (c : Config) {a : Nat} (h : c.bufBytes ≤ a) : targetAt c (0x10000 + a) = .reserved :=
  (targetAt_window c a).trans (if_neg (Nat.not_lt.2 h))

/-- An aligned offset below 0x40 is a register's. -/
theorem register_of_lt {a : Nat} (h : a < 0x40) (h4 : a % 4 = 0) : ∃ k < 16, a = 4 * k := ⟨a / 4, by omega, by omega⟩

/-- The writes refused while BUSY are those at the offsets R43 lists. -/
theorem writeRefused_iff (c : Config) {a : Nat} (h4 : a % 4 = 0) :
    (targetAt c a).writeRefused = true ↔ refusedOffset c a := by
  by_cases h1 : a < 0x40
  · obtain ⟨k, hk, rfl⟩ := register_of_lt h1 h4
    rw [targetAt_register c hk]
    unfold refusedOffset
    have h2 : ¬ ((0x00400 ≤ 4 * k ∧ 4 * k < 0x00800) ∨ (0x10000 ≤ 4 * k ∧ 4 * k < 0x10000 + c.bufBytes)) := by omega
    rw [or_iff_left h2]
    clear h1 h4 h2
    revert k
    decide
  · unfold targetAt refusedOffset
    have hl : a ∉ [0x010, 0x014, 0x018, 0x01C] := by simp; omega
    simp only [hl, false_or, if_neg h1]
    repeat' split
    all_goals simp only [Target.writeRefused, Bool.false_eq_true, false_iff, true_iff]
    all_goals omega

/-- The reads masked while BUSY are those at the offsets R43 lists, less the BUF words that do not exist. -/
theorem readMasked_iff (c : Config) {a : Nat} (h4 : a % 4 = 0) :
    (targetAt c a).readMasked = true ↔ maskedOffset a ∧ targetAt c a ≠ .reserved := by
  by_cases h1 : a < 0x40
  · obtain ⟨k, hk, rfl⟩ := register_of_lt h1 h4
    rw [targetAt_register c hk]
    unfold maskedOffset
    have h2 : ¬ ((0x00400 ≤ 4 * k ∧ 4 * k < 0x00C00) ∨ (0x02000 ≤ 4 * k ∧ 4 * k < 0x05FF0) ∨ 0x10000 ≤ 4 * k) := by omega
    simp only [h2, false_and, iff_false]
    clear h1 h4 h2
    revert k
    decide
  · unfold targetAt maskedOffset
    simp only [if_neg h1]
    repeat' split
    all_goals simp [Target.readMasked]
    all_goals omega

/-- A host access acts on its aligned offset. -/
theorem hostRead_aligned (s : State) (o : Offset) :
    hostRead s o = if s.busy && (targetAt s.config (alignedOffset o)).readMasked then 0#32
      else s.readTarget (targetAt s.config (alignedOffset o)) := rfl

theorem hostWrite_aligned (s : State) (o : Offset) (w : Word) :
    hostWrite s o w = if s.busy && (targetAt s.config (alignedOffset o)).writeRefused then s.overrun
      else s.writeTarget w (targetAt s.config (alignedOffset o)) := rfl

@[simp] theorem State.busy_of_none {s : State} (h : s.pending = none) : s.busy = false := by simp [State.busy, h]
@[simp] theorem State.busy_of_some {s : State} {w : Word} (h : s.pending = some w) : s.busy = true := by
  simp [State.busy, h]
theorem State.busy_of_ne {s : State} (h : s.pending ≠ none) : s.busy = true := by
  simpa [State.busy, Option.isSome_iff_ne_none] using h

/-- The register at offset 4k, in any state. -/
theorem hostRead_register (s : State) {k : Nat} (h : k < 16) :
    hostRead s (off (4 * k)) = s.readTarget (registers.getD k .reserved) := by
  rw [hostRead_aligned, alignedOffset_off (by omega) (by omega), targetAt_register _ h]
  have : (registers.getD k Target.reserved).readMasked = false := by revert k; decide
  rw [this, Bool.and_false]
  rfl

/-- A write of the register at offset 4k: refused while BUSY if R43 says so. -/
theorem hostWrite_register (s : State) {k : Nat} (h : k < 16) (w : Word) :
    hostWrite s (off (4 * k)) w =
      if s.busy && (registers.getD k .reserved).writeRefused then s.overrun
      else s.writeTarget w (registers.getD k .reserved) := by
  rw [hostWrite_aligned, alignedOffset_off (by omega) (by omega), targetAt_register _ h]

/-- The targets a host write changes, and to what. -/
theorem hostWrite_cases (s : State) (o : Offset) (w : Word) :
    (s.busy = true ∧ refusedOffset s.config (alignedOffset o) ∧ hostWrite s o w = s.overrun) ∨
    (¬ (s.busy = true ∧ refusedOffset s.config (alignedOffset o)) ∧
      hostWrite s o w = s.writeTarget w (targetAt s.config (alignedOffset o))) := by
  rw [hostWrite_aligned, ← writeRefused_iff _ (alignedOffset_lt o).2]
  by_cases h : s.busy = true ∧ (targetAt s.config (alignedOffset o)).writeRefused = true
  · exact .inl ⟨h.1, h.2, by rw [h.1, h.2]; rfl⟩
  · refine .inr ⟨h, if_neg ?_⟩
    rwa [Bool.and_eq_true]

/-- STATUS is the register at 0x00C, and no other offset leads to it. -/
theorem targetAt_eq_status {c : Config} {a : Nat} (h4 : a % 4 = 0) (h : targetAt c a = .status) : a = 0x00C := by
  by_cases h1 : a < 0x40
  · obtain ⟨k, hk, rfl⟩ := register_of_lt h1 h4
    rw [targetAt_register c hk] at h
    clear h1 h4
    revert k
    decide
  · unfold targetAt at h
    rw [if_neg h1] at h
    repeat' split at h
    all_goals cases h

/-- CMD is the register at 0x010, and no other offset leads to it. -/
theorem targetAt_eq_cmd {c : Config} {a : Nat} (h4 : a % 4 = 0) (h : targetAt c a = .cmd) : a = 0x010 := by
  by_cases h1 : a < 0x40
  · obtain ⟨k, hk, rfl⟩ := register_of_lt h1 h4
    rw [targetAt_register c hk] at h
    clear h1 h4
    revert k
    decide
  · unfold targetAt at h
    rw [if_neg h1] at h
    repeat' split at h
    all_goals cases h

/-- A BUF target is an existing byte, at its place in the window. -/
theorem targetAt_eq_buf {c : Config} {a b : Nat} (h4 : a % 4 = 0) (h : targetAt c a = .buf b) :
    a = 0x10000 + b ∧ b < c.bufBytes := by
  by_cases h1 : a < 0x40
  · obtain ⟨k, hk, rfl⟩ := register_of_lt h1 h4
    rw [targetAt_register c hk] at h
    interval_cases k <;> simp [registers] at h
  · unfold targetAt at h
    rw [if_neg h1] at h
    repeat' split at h
    all_goals simp only [Target.buf.injEq, reduceCtorEq] at h
    omega

/-- What no host write changes. -/
theorem writeTarget_frame (s : State) (w : Word) (t : Target) :
    (s.writeTarget w t).config = s.config ∧ (s.writeTarget w t).turns = s.turns ∧ (s.writeTarget w t).got = s.got ∧
    (s.writeTarget w t).epoch = s.epoch ∧ (s.writeTarget w t).errCause = s.errCause ∧
    (s.writeTarget w t).errOp = s.errOp ∧ (s.writeTarget w t).errInfo = s.errInfo ∧
    (s.writeTarget w t).resBits = s.resBits ∧ (s.writeTarget w t).resBytes = s.resBytes := by
  cases t <;> simp [State.writeTarget, State.writeFreq]
  rw [State.writeBufWord, State.writeBytes_eq]; simp

/-- What a host write may change of PENDING, ERR, OVR, FREQ and TREE, and through which target. -/
theorem writeTarget_effects (s : State) (w : Word) (t : Target) :
    ((s.writeTarget w t).pending = s.pending ∨ t = .cmd) ∧
    ((s.writeTarget w t).err = s.err ∨ t = .status ∧ (s.writeTarget w t).err = (s.err && !w.getLsbD 2)) ∧
    ((s.writeTarget w t).ovr = s.ovr ∨ t = .status ∧ (s.writeTarget w t).ovr = (s.ovr && !w.getLsbD 3)) ∧
    ((s.writeTarget w t).freq = s.freq ∧ (s.writeTarget w t).tree = s.tree ∨ (s.writeTarget w t).tree = none) := by
  cases t <;> simp [State.writeTarget, State.writeFreq]
  rw [State.writeBufWord, State.writeBytes_eq]; simp

end Sys2Proof.Machine
end

