-- ==== Sys2Proof/Laws/Insert.lean ====
section
/-!
SUPPORT. The order of keys and the ordered sequence: what Insert leaves, and how the merges proceed.
-/

namespace Sys2Proof.Machine

@[simp] theorem CodeTree.sym_leaf (x : Byte) (w : Weight) : (CodeTree.leaf x w).sym = x := rfl
@[simp] theorem CodeTree.sym_node (i : NodeIndex) (x : Byte) (w : Weight) (l r : CodeTree) :
    (CodeTree.node i x w l r).sym = x := rfl
@[simp] theorem CodeTree.weight_leaf (x : Byte) (w : Weight) : (CodeTree.leaf x w).weight = w := rfl
@[simp] theorem CodeTree.weight_node (i : NodeIndex) (x : Byte) (w : Weight) (l r : CodeTree) :
    (CodeTree.node i x w l r).weight = w := rfl
@[simp] theorem CodeTree.index_node (i : NodeIndex) (x : Byte) (w : Weight) (l r : CodeTree) :
    (CodeTree.node i x w l r).index = i := rfl
@[simp] theorem CodeTree.leaves_leaf (x : Byte) (w : Weight) : (CodeTree.leaf x w).leaves = [x] := rfl
@[simp] theorem CodeTree.leaves_node (i : NodeIndex) (x : Byte) (w : Weight) (l r : CodeTree) :
    (CodeTree.node i x w l r).leaves = l.leaves ++ r.leaves := rfl
@[simp] theorem CodeTree.internals_leaf (x : Byte) (w : Weight) : (CodeTree.leaf x w).internals = [] := rfl
@[simp] theorem CodeTree.internals_node (i : NodeIndex) (x : Byte) (w : Weight) (l r : CodeTree) :
    (CodeTree.node i x w l r).internals = i :: (l.internals ++ r.internals) := rfl

/-- The ordering key as one number: weight first, then symbol (R63). -/
def CodeTree.keyNat (t : CodeTree) : Nat := t.weight.toNat * 256 + t.sym.toNat

theorem keyLt_iff (a b : CodeTree) : keyLt a b = true ↔ a.keyNat < b.keyNat := by
  have ha := a.sym.isLt
  have hb := b.sym.isLt
  simp only [keyLt, CodeTree.keyNat, Bool.or_eq_true, Bool.and_eq_true, decide_eq_true_eq, beq_iff_eq, BitVec.lt_def,
    ← BitVec.toNat_inj]
  omega

theorem keyEq_iff (a b : CodeTree) : keyEq a b = true ↔ a.keyNat = b.keyNat := by
  have ha := a.sym.isLt
  have hb := b.sym.isLt
  simp only [keyEq, CodeTree.keyNat, Bool.and_eq_true, beq_iff_eq, ← BitVec.toNat_inj]
  omega

/-- Equal keys are equal in both parts (R63). -/
theorem keyNat_eq_iff (a b : CodeTree) : a.keyNat = b.keyNat ↔ a.weight = b.weight ∧ a.sym = b.sym := by
  rw [← keyEq_iff]; simp [keyEq]

theorem ascending_iff (seq : List CodeTree) : Ascending seq ↔ seq.Pairwise fun a b => a.keyNat < b.keyNat := by
  simp only [Ascending, keyLt_iff]

/-- Insert on an ascending sequence with no equal key: where the node goes (R65). -/
theorem insertNode_split (n : CodeTree) {seq : List CodeTree} (hs : Ascending seq)
    (hn : ∀ x ∈ seq, x.keyNat ≠ n.keyNat) :
    ∃ lo hi, seq = lo ++ hi ∧ insertNode n seq = (true, lo ++ n :: hi) ∧
      (∀ x ∈ lo, x.keyNat < n.keyNat) ∧ ∀ x ∈ hi, n.keyNat < x.keyNat := by
  rw [ascending_iff] at hs
  induction seq with
  | nil => exact ⟨[], [], rfl, rfl, by simp, by simp⟩
  | cons x seq ih =>
    rw [List.pairwise_cons] at hs
    have hx := hn x List.mem_cons_self
    by_cases hlt : keyLt x n = true
    · obtain ⟨lo, hi, rfl, he, hlo, hhi⟩ := ih hs.2 fun y hy => hn y (List.mem_cons_of_mem _ hy)
      refine ⟨x :: lo, hi, rfl, ?_, ?_, hhi⟩
      · rw [insertNode, if_pos hlt, he]; rfl
      · intro y hy
        rcases List.mem_cons.1 hy with rfl | hy
        · exact (keyLt_iff y n).1 hlt
        · exact hlo y hy
    · have heq : ¬ keyEq x n = true := fun e => hx ((keyEq_iff x n).1 e)
      have hnx : n.keyNat < x.keyNat := by
        have := mt (keyLt_iff x n).2 hlt
        omega
      refine ⟨[], x :: seq, rfl, ?_, by simp, ?_⟩
      · rw [insertNode, if_neg hlt, if_neg heq]; rfl
      · intro y hy
        rcases List.mem_cons.1 hy with rfl | hy
        · exact hnx
        · exact Nat.lt_trans hnx (hs.1 y hy)

/-- Insert rejects an equal key and leaves the sequence (R65). -/
theorem insertNode_reject (n : CodeTree) {seq : List CodeTree} (hs : Ascending seq)
    (hn : ∃ x ∈ seq, x.keyNat = n.keyNat) : insertNode n seq = (false, seq) := by
  rw [ascending_iff] at hs
  induction seq with
  | nil => simp at hn
  | cons x seq ih =>
    rw [List.pairwise_cons] at hs
    by_cases hx : x.keyNat = n.keyNat
    · have h1 : ¬ keyLt x n = true := by rw [keyLt_iff]; omega
      rw [insertNode, if_neg h1, if_pos ((keyEq_iff x n).2 hx)]
    · obtain ⟨y, hy, e⟩ := hn
      have hy' : y ∈ seq := by
        rcases List.mem_cons.1 hy with rfl | h
        · exact absurd e hx
        · exact h
      have hxy := hs.1 y hy'
      rw [insertNode, if_pos ((keyLt_iff x n).2 (by omega)), ih hs.2 ⟨y, hy', e⟩]

/-- Insert on an ascending sequence with no equal key adds the node and keeps the order. -/
theorem insertNode_ok (n : CodeTree) {seq : List CodeTree} (hs : Ascending seq)
    (hn : ∀ x ∈ seq, x.keyNat ≠ n.keyNat) :
    (insertNode n seq).1 = true ∧ (insertNode n seq).2.Perm (n :: seq) ∧ Ascending (insertNode n seq).2 := by
  obtain ⟨lo, hi, rfl, he, hlo, hhi⟩ := insertNode_split n hs hn
  rw [he]
  refine ⟨rfl, List.perm_middle, ?_⟩
  rw [ascending_iff] at hs ⊢
  rw [List.pairwise_append] at hs ⊢
  refine ⟨hs.1, List.pairwise_cons.2 ⟨hhi, hs.2.1⟩, ?_⟩
  intro a ha b hb
  rcases List.mem_cons.1 hb with rfl | hb
  · exact hlo a ha
  · exact hs.2.2 a ha b hb

/-- Two ascending arrangements of the same items are the same list. -/
theorem ascending_unique {s t : List CodeTree} (hs : Ascending s) (ht : Ascending t) (hp : s.Perm t) : s = t := by
  rw [ascending_iff] at hs ht
  exact hp.eq_of_pairwise (fun a b _ _ h1 h2 => by omega) hs ht

/-- The merge after the first `n`: the two lowest items become LEFT and RIGHT of internal node `k + n`, and with
fewer than two items nothing happens (R67 step 2). -/
theorem mergeSeq_succ (n k : Nat) (seq : List CodeTree) :
    mergeSeq (n + 1) k seq =
      match mergeSeq n k seq with
      | a :: b :: rest => (insertNode (mergeNode (k + n) a b) rest).2
      | short => short := by
  induction n generalizing k seq with
  | zero =>
    match seq with
    | [] => rfl
    | [_] => rfl
    | _ :: _ :: _ => rfl
  | succ n ih =>
    match seq with
    | [] => rfl
    | [_] => rfl
    | a :: b :: rest =>
      have e : k + 1 + n = k + (n + 1) := by omega
      simp only [mergeSeq] at ih ⊢
      rw [ih, e]

@[simp] theorem seqAfter_zero (f : Table Word) : seqAfter f 0 = leafSeq f symbols := rfl

theorem seqAfter_succ (f : Table Word) (n : Nat) :
    seqAfter f (n + 1) =
      match seqAfter f n with
      | a :: b :: rest => (insertNode (mergeNode n a b) rest).2
      | short => short := by
  have := mergeSeq_succ n 0 (leafSeq f symbols)
  rwa [Nat.zero_add] at this

/-- Adding one more symbol to the leaves. -/
theorem leafSeq_concat (f : Table Word) (xs : List Byte) (x : Byte) :
    leafSeq f (xs ++ [x]) =
      if f.at x = 0#32 then leafSeq f xs else (insertNode (.leaf x ((f.at x).zeroExtend 40)) (leafSeq f xs)).2 := by
  simp [leafSeq, List.foldl_append]

end Sys2Proof.Machine
end

