-- ==== Sys2Proof/Laws/Table.lean ====
section
/-!
SUPPORT. Tables indexed by symbol: reading what was put, tabulated or replicated; equality by entries; the list of
all symbols.
-/

namespace Sys2Proof.Machine

@[simp] theorem Table.at_put_self {α : Type} (t : Table α) (x : Byte) (v : α) : (t.put x v).at x = v := by
  simp [Table.at, Table.put]

theorem Table.at_put_ne {α : Type} (t : Table α) {x y : Byte} (v : α) (h : y ≠ x) : (t.put x v).at y = t.at y := by
  have hn : x.toNat ≠ y.toNat := fun e => h (BitVec.eq_of_toNat_eq e.symm)
  simp only [Table.at, Table.put]
  exact Vector.getElem_set_ne _ _ hn

theorem Table.at_put {α : Type} (t : Table α) (x y : Byte) (v : α) :
    (t.put x v).at y = if y = x then v else t.at y := by
  by_cases h : y = x
  · subst h; simp
  · simp [h, Table.at_put_ne t v h]

@[simp] theorem Table.at_tabulate {α : Type} (f : Byte → α) (x : Byte) : (Table.tabulate f).at x = f x := by
  simp [Table.at, Table.tabulate]

@[simp] theorem Table.at_replicate {α : Type} (v : α) (x : Byte) : Table.at (Vector.replicate 256 v) x = v := by
  simp [Table.at]

/-- Equal entries, equal tables. -/
theorem Table.ext {α : Type} {t u : Table α} (h : ∀ x, t.at x = u.at x) : t = u := by
  refine Vector.ext fun i hi => ?_
  have hx := h (BitVec.ofNat 8 i)
  have hm : i % 256 = i := Nat.mod_eq_of_lt hi
  simpa [Table.at, hm] using hx

@[simp] theorem mem_symbols (x : Byte) : x ∈ symbols := by
  simp only [symbols, List.mem_map, List.mem_range]
  exact ⟨x.toNat, x.isLt, by simp⟩

@[simp] theorem length_symbols : symbols.length = 256 := by simp [symbols]

/-- The symbols ascend strictly. -/
theorem symbols_ascend : symbols.Pairwise (· < ·) := by
  unfold symbols
  rw [List.pairwise_map]
  refine List.Pairwise.imp_of_mem ?_ List.pairwise_lt_range
  intro a b ha hb hab
  rw [List.mem_range] at ha hb
  simp only [BitVec.lt_def, BitVec.toNat_ofNat]
  omega

theorem symbols_nodup : symbols.Nodup := symbols_ascend.imp fun h e => by subst e; exact absurd h (by simp)

end Sys2Proof.Machine
end

