-- ==== Sys2Proof/Laws/Forest.lean ====
section
/-!
SUPPORT. What the builder's sequence is at every point of a BUILD: a forest of trees made as R67 says, whose leaves
are the present symbols and whose internal nodes are the ones made so far.
-/

namespace Sys2Proof.Machine

/-- A tree made by R67 from the frequency table: leaves with their own entry, which is not 0, and internal nodes
with the smaller SYM and the sum of the WEIGHTs of their children. -/
def CodeTree.Sound (f : Table Word) : CodeTree → Prop
  | .leaf x w => f.at x ≠ 0#32 ∧ w = (f.at x).zeroExtend 40
  | .node _ y w l r =>
    l.Sound f ∧ r.Sound f ∧ y = minSym l.sym r.sym ∧ w = BitVec.ofNat 40 (l.weight.toNat + r.weight.toNat)

/-- SYM of a sound tree is one of its leaves. -/
theorem CodeTree.Sound.sym_mem {f : Table Word} {t : CodeTree} (h : t.Sound f) : t.sym ∈ t.leaves := by
  induction t with
  | leaf x w => simp
  | node i y w l r ihl ihr =>
    obtain ⟨hl, hr, hy, -⟩ := h
    simp only [CodeTree.sym_node, CodeTree.leaves_node, List.mem_append]
    subst hy
    unfold minSym
    split
    · exact .inl (ihl hl)
    · exact .inr (ihr hr)

/-- SYM of a sound tree is the least of its leaves. -/
theorem CodeTree.Sound.sym_le {f : Table Word} {t : CodeTree} (h : t.Sound f) {x : Byte} (hx : x ∈ t.leaves) :
    t.sym ≤ x := by
  induction t with
  | leaf y w => simp only [CodeTree.leaves_leaf, List.mem_singleton] at hx; simp [hx]
  | node i y w l r ihl ihr =>
    obtain ⟨hl, hr, rfl, -⟩ := h
    simp only [CodeTree.sym_node, minSym]
    simp only [CodeTree.leaves_node, List.mem_append] at hx
    have hlr : ∀ a b : Byte, a ≤ b ∨ b ≤ a := fun a b => by simp only [BitVec.le_def]; omega
    rcases hx with hx | hx
    · have := ihl hl hx
      split
      · exact this
      · rename_i hn
        exact BitVec.le_trans ((hlr _ _).resolve_left hn) this
    · have := ihr hr hx
      split
      · rename_i hn; exact BitVec.le_trans hn this
      · exact this

/-- WEIGHT of a sound tree of at most 256 leaves is the exact sum of their entries: no addition overflows. -/
theorem CodeTree.Sound.weight_eq {f : Table Word} {t : CodeTree} (h : t.Sound f) (hn : t.leaves.length ≤ 256) :
    t.weight.toNat = (t.leaves.map fun x => (f.at x).toNat).sum ∧ t.weight.toNat ≤ t.leaves.length * (2 ^ 32 - 1) := by
  induction t with
  | leaf x w =>
    obtain ⟨-, rfl⟩ := h
    have := (f.at x).isLt
    have e : ((f.at x).zeroExtend 40).toNat = (f.at x).toNat := by
      simp only [BitVec.truncate_eq_setWidth, BitVec.toNat_setWidth]; omega
    simp only [CodeTree.weight_leaf, CodeTree.leaves_leaf, e, List.map_cons, List.map_nil, List.sum_cons, List.sum_nil,
      List.length_cons, List.length_nil]
    omega
  | node i y w l r ihl ihr =>
    obtain ⟨hl, hr, -, rfl⟩ := h
    simp only [CodeTree.leaves_node, List.length_append] at hn
    obtain ⟨el, bl⟩ := ihl hl (by omega)
    obtain ⟨er, br⟩ := ihr hr (by omega)
    simp only [CodeTree.weight_node, CodeTree.leaves_node, List.map_append, List.sum_append, List.length_append,
      BitVec.toNat_ofNat, ← el, ← er]
    rw [Nat.mod_eq_of_lt (by omega)]
    omega

/-- A subtree of a sound tree is sound, and its leaves are among the tree's. -/
theorem CodeTree.Sound.subtree {f : Table Word} {t u : CodeTree} (h : t.Sound f) (hu : u ∈ t.nodes) :
    u.Sound f ∧ u.leaves.Sublist t.leaves := by
  induction t with
  | leaf x w => simp only [CodeTree.nodes, List.mem_singleton] at hu; subst hu; exact ⟨h, List.Sublist.refl _⟩
  | node i y w l r ihl ihr =>
    simp only [CodeTree.nodes, List.mem_cons, List.mem_append] at hu
    rcases hu with rfl | hu | hu
    · exact ⟨h, List.Sublist.refl _⟩
    · exact ⟨(ihl h.1 hu).1, (ihl h.1 hu).2.trans (List.sublist_append_left _ _)⟩
    · exact ⟨(ihr h.2.1 hu).1, (ihr h.2.1 hu).2.trans (List.sublist_append_right _ _)⟩

/-- A sequence of sound trees over distinct symbols. -/
structure Forest (f : Table Word) (xs : List Byte) (seq : List CodeTree) : Prop where
  ascending : Ascending seq
  sound : ∀ t ∈ seq, t.Sound f
  leaves : (seq.flatMap CodeTree.leaves).Perm xs

/-- Trees with leaves over distinct symbols have distinct SYM values. -/
theorem pairwise_sym_ne {f : Table Word} {seq : List CodeTree} (hs : ∀ t ∈ seq, t.Sound f)
    (hn : (seq.flatMap CodeTree.leaves).Nodup) : seq.Pairwise fun a b => a.sym ≠ b.sym := by
  induction seq with
  | nil => exact List.Pairwise.nil
  | cons t seq ih =>
    rw [List.flatMap_cons, List.nodup_append] at hn
    refine List.pairwise_cons.2 ⟨?_, ih (fun u hu => hs u (List.mem_cons_of_mem _ hu)) hn.2.1⟩
    intro u hu e
    have h1 := (hs t List.mem_cons_self).sym_mem
    have h2 := (hs u (List.mem_cons_of_mem _ hu)).sym_mem
    exact hn.2.2 _ h1 _ (List.mem_flatMap.2 ⟨u, hu, h2⟩) e

/-- A tree whose leaves are none of a forest's has a key that none of its trees has. -/
theorem Forest.fresh {f : Table Word} {xs : List Byte} {seq : List CodeTree} (h : Forest f xs seq) {t : CodeTree}
    (ht : t.Sound f) (hd : ∀ x ∈ t.leaves, x ∉ xs) : ∀ u ∈ seq, u.keyNat ≠ t.keyNat := by
  intro u hu e
  have hsym := ((keyNat_eq_iff u t).1 e).2
  refine hd t.sym ht.sym_mem (h.leaves.mem_iff.1 (List.mem_flatMap.2 ⟨u, hu, ?_⟩))
  rw [← hsym]
  exact (h.sound u hu).sym_mem

/-- Inserting a fresh sound tree into a forest. -/
theorem Forest.insert {f : Table Word} {xs : List Byte} {seq : List CodeTree} (h : Forest f xs seq) {t : CodeTree}
    (ht : t.Sound f) (hd : ∀ x ∈ t.leaves, x ∉ xs) :
    (insertNode t seq).1 = true ∧ (insertNode t seq).2.Perm (t :: seq) ∧
      Forest f (t.leaves ++ xs) (insertNode t seq).2 := by
  obtain ⟨h1, h2, h3⟩ := insertNode_ok t h.ascending (h.fresh ht hd)
  refine ⟨h1, h2, h3, ?_, ?_⟩
  · intro u hu
    rcases List.mem_cons.1 (h2.mem_iff.1 hu) with rfl | hu
    · exact ht
    · exact h.sound u hu
  · refine (h2.flatMap_right _).trans ?_
    rw [List.flatMap_cons]
    exact h.leaves.append_left _

/-- The leaves of a duplicate-free list of symbols (R67 step 1). -/
theorem leafSeq_forest (f : Table Word) (xs : List Byte) (hn : xs.Nodup) :
    Forest f (xs.filter fun x => f.at x != 0#32) (leafSeq f xs) ∧
      (leafSeq f xs).Perm ((xs.filter fun x => f.at x != 0#32).map fun x => .leaf x ((f.at x).zeroExtend 40)) := by
  induction xs using List.reverseRecOn with
  | nil => exact ⟨⟨List.Pairwise.nil, by simp [leafSeq], by simp [leafSeq]⟩, by simp [leafSeq]⟩
  | append_singleton xs x ih =>
    rw [List.nodup_append] at hn
    obtain ⟨ih, ihp⟩ := ih hn.1
    rw [leafSeq_concat, List.filter_append]
    by_cases h : f.at x = 0#32
    · simpa [h] using ⟨ih, ihp⟩
    · have hx : x ∉ xs := fun hm => hn.2.2 x hm x (by simp) rfl
      have ht : (CodeTree.leaf x ((f.at x).zeroExtend 40)).Sound f := ⟨h, rfl⟩
      obtain ⟨-, hp, hf⟩ := ih.insert ht (by
        intro y hy; simp only [CodeTree.leaves_leaf, List.mem_singleton] at hy; subst hy
        exact fun hm => hx (List.mem_filter.1 hm).1)
      rw [if_neg h]
      have e : List.filter (fun x => f.at x != 0#32) [x] = [x] := by simp [h]
      rw [e]
      refine ⟨⟨hf.ascending, hf.sound, hf.leaves.trans ?_⟩, hp.trans ?_⟩
      · exact List.perm_append_comm
      · rw [List.map_append]
        exact (ihp.cons _).trans (List.perm_append_comm (l₁ := [_]))

/-- The leaf sequence of a BUILD. -/
theorem leafSeq_symbols (f : Table Word) : Forest f (presentSymbols f) (leafSeq f symbols) :=
  (leafSeq_forest f symbols symbols_nodup).1

theorem presentSymbols_nodup (f : Table Word) : (presentSymbols f).Nodup := symbols_nodup.filter _

theorem length_presentSymbols_le (f : Table Word) : (presentSymbols f).length ≤ 256 := by
  have := List.length_filter_le (fun x => f.at x != 0#32) symbols
  rwa [length_symbols] at this

@[simp] theorem mem_presentSymbols (f : Table Word) (x : Byte) : x ∈ presentSymbols f ↔ f.at x ≠ 0#32 := by
  simp [presentSymbols]

/-- One merge of a forest (R67 step 2). -/
theorem Forest.merge {f : Table Word} {xs : List Byte} (hn : xs.Nodup) {a b : CodeTree} {rest : List CodeTree} (k : Nat)
    (h : Forest f xs (a :: b :: rest)) :
    (insertNode (mergeNode k a b) rest).1 = true ∧
      (insertNode (mergeNode k a b) rest).2.Perm (mergeNode k a b :: rest) ∧
      Forest f xs (insertNode (mergeNode k a b) rest).2 := by
  have hl : (a.leaves ++ b.leaves ++ rest.flatMap CodeTree.leaves).Perm xs := by
    simpa [List.flatMap_cons, List.append_assoc] using h.leaves
  have hnd := hl.nodup_iff.2 hn
  rw [List.nodup_append] at hnd
  have hrest : Forest f (rest.flatMap CodeTree.leaves) rest := by
    refine ⟨?_, fun t ht => h.sound t (by simp [ht]), List.Perm.refl _⟩
    have := h.ascending
    unfold Ascending at this ⊢
    exact (List.pairwise_cons.1 (List.pairwise_cons.1 this).2).2
  have hm : (mergeNode k a b).Sound f := ⟨h.sound a (by simp), h.sound b (by simp), rfl, rfl⟩
  obtain ⟨h1, h2, h3⟩ := hrest.insert hm (fun x hx hx' => hnd.2.2 x hx x hx' rfl)
  exact ⟨h1, h2, h3.ascending, h3.sound, h3.leaves.trans hl⟩

/-- The forest after `n` merges: sound and ascending over the present symbols, one item fewer for every merge until
one is left, its internal nodes numbered 256 to 256 + k - 1 after `k` of them. -/
theorem seqAfter_forest (f : Table Word) (n : Nat) :
    Forest f (presentSymbols f) (seqAfter f n) ∧
      (seqAfter f n).length = (presentSymbols f).length - min n ((presentSymbols f).length - 1) ∧
      ((seqAfter f n).flatMap CodeTree.internals).Perm
        ((List.range (min n ((presentSymbols f).length - 1))).map fun k => BitVec.ofNat 9 (256 + k)) := by
  induction n with
  | zero =>
    have hp := (leafSeq_forest f symbols symbols_nodup).2
    refine ⟨leafSeq_symbols f, by simpa [presentSymbols] using hp.length_eq, ?_⟩
    refine ((hp.flatMap_right _)).trans ?_
    simp [List.flatMap_map, CodeTree.internals]
  | succ n ih =>
    obtain ⟨hf, hlen, hint⟩ := ih
    rw [seqAfter_succ]
    match hs : seqAfter f n with
    | a :: b :: rest =>
      rw [hs] at hf hlen hint
      obtain ⟨-, hp, hf'⟩ := hf.merge (presentSymbols_nodup f) n
      simp only [List.length_cons] at hlen
      have e1 : min n ((presentSymbols f).length - 1) = n := by omega
      have e2 : min (n + 1) ((presentSymbols f).length - 1) = n + 1 := by omega
      refine ⟨hf', ?_, ?_⟩
      · have := hp.length_eq
        simp only [List.length_cons] at this
        simp only
        omega
      · simp only
        refine (hp.flatMap_right _).trans ?_
        rw [e2, List.range_succ, List.map_append]
        rw [e1] at hint
        simp only [List.flatMap_cons, mergeNode, CodeTree.internals_node, List.map_cons, List.map_nil] at hint ⊢
        rw [← List.append_assoc] at hint
        exact ((List.Perm.cons _ hint).trans (List.perm_append_comm (l₁ := [_])))
    | [a] =>
      rw [hs] at hf hlen hint
      simp only [List.length_cons, List.length_nil] at hlen
      have e : min (n + 1) ((presentSymbols f).length - 1) = min n ((presentSymbols f).length - 1) := by omega
      exact ⟨hf, by simp only [List.length_cons, List.length_nil]; omega, by rw [e]; exact hint⟩
    | [] =>
      rw [hs] at hf hlen hint
      simp only [List.length_nil] at hlen
      have e : min (n + 1) ((presentSymbols f).length - 1) = min n ((presentSymbols f).length - 1) := by omega
      exact ⟨hf, by simp only [List.length_nil]; omega, by rw [e]; exact hint⟩

/-- The fuel of the merge loop suffices: it stops with the last item, or with none. -/
theorem finalSeq_eq (f : Table Word) : finalSeq f = seqAfter f (presentSymbols f).length := by
  have := (seqAfter_forest f 0).2.1
  simp only [seqAfter_zero, Nat.zero_min, Nat.sub_zero] at this
  rw [finalSeq, this, seqAfter]

/-- The root of a built tree, or none without a nonzero entry: what BUILD's loop ends with. -/
theorem buildRoot_cases (f : Table Word) :
    (presentSymbols f = [] ∧ buildRoot f = none) ∨
    ∃ r, buildRoot f = some r ∧ seqAfter f ((presentSymbols f).length - 1) = [r] ∧ r.Sound f ∧
      r.leaves.Perm (presentSymbols f) ∧
      r.internals.Perm ((List.range ((presentSymbols f).length - 1)).map fun k => BitVec.ofNat 9 (256 + k)) := by
  have hfin := finalSeq_eq f
  obtain ⟨-, hlen, -⟩ := seqAfter_forest f (presentSymbols f).length
  by_cases h0 : presentSymbols f = []
  · left
    refine ⟨h0, ?_⟩
    rw [← hfin] at hlen
    rw [h0] at hlen
    have : finalSeq f = [] := List.eq_nil_of_length_eq_zero (by simpa using hlen)
    simp [buildRoot, this]
  · right
    have hpos : 0 < (presentSymbols f).length := List.length_pos_iff.2 h0
    obtain ⟨hf', hlen', hint'⟩ := seqAfter_forest f ((presentSymbols f).length - 1)
    have h1 : (seqAfter f ((presentSymbols f).length - 1)).length = 1 := by omega
    obtain ⟨r, hr⟩ := List.length_eq_one_iff.1 h1
    have hsucc := seqAfter_succ f ((presentSymbols f).length - 1)
    rw [Nat.sub_add_cancel hpos, hr, ← hfin] at hsucc
    rw [hr] at hf' hint'
    refine ⟨r, by simp [buildRoot, hsucc], hr, hf'.sound r (by simp), by simpa using hf'.leaves, ?_⟩
    simpa using hint'

end Sys2Proof.Machine
end

