-- ==== Sys2Proof/Laws/Codes.lean ====
section
/-!
SUPPORT. Paths in trees, and the code table the walk leaves: each leaf's path from the root.
-/

namespace Sys2Proof.Machine

/-- A path leads to a leaf of the tree. -/
theorem CodeTree.mem_leaves_of_follow {t : CodeTree} {p : Codeword} {x : Byte} (h : t.follow p = some x) :
    x ∈ t.leaves := by
  induction t generalizing p with
  | leaf y w =>
    cases p with
    | nil => simp only [CodeTree.follow, Option.some.injEq] at h; simp [h]
    | cons b p => simp [CodeTree.follow] at h
  | node i y w l r ihl ihr =>
    cases p with
    | nil => simp [CodeTree.follow] at h
    | cons b p =>
      rw [CodeTree.leaves_node, List.mem_append]
      cases b with
      | true => exact .inr (ihr (by simpa [CodeTree.follow] using h))
      | false => exact .inl (ihl (by simpa [CodeTree.follow] using h))

/-- Every leaf has a path, no longer than the depth. -/
theorem CodeTree.exists_follow {t : CodeTree} {x : Byte} (h : x ∈ t.leaves) :
    ∃ p, t.follow p = some x ∧ p.length ≤ t.depth := by
  induction t with
  | leaf y w => exact ⟨[], by simpa [CodeTree.follow, eq_comm] using h, Nat.zero_le _⟩
  | node i y w l r ihl ihr =>
    rw [CodeTree.leaves_node, List.mem_append] at h
    rcases h with h | h
    · obtain ⟨p, hp, hl⟩ := ihl h
      exact ⟨false :: p, by simpa [CodeTree.follow] using hp, by simp only [List.length_cons, CodeTree.depth]; omega⟩
    · obtain ⟨p, hp, hl⟩ := ihr h
      exact ⟨true :: p, by simpa [CodeTree.follow] using hp, by simp only [List.length_cons, CodeTree.depth]; omega⟩

/-- A path that ends at a leaf is no proper beginning of another. -/
theorem CodeTree.follow_append {t : CodeTree} {p q : Codeword} {x y : Byte} (hp : t.follow p = some x)
    (hq : t.follow (p ++ q) = some y) : q = [] := by
  induction t generalizing p with
  | leaf z w =>
    cases p with
    | nil => cases q with
      | nil => rfl
      | cons b q => simp [CodeTree.follow] at hq
    | cons b p => simp [CodeTree.follow] at hp
  | node i z w l r ihl ihr =>
    cases p with
    | nil => simp [CodeTree.follow] at hp
    | cons b p =>
      cases b with
      | true => exact ihr (by simpa [CodeTree.follow] using hp) (by simpa [CodeTree.follow] using hq)
      | false => exact ihl (by simpa [CodeTree.follow] using hp) (by simpa [CodeTree.follow] using hq)

/-- The path of an internal root is not empty. -/
theorem CodeTree.follow_node_ne_nil {i : NodeIndex} {y : Byte} {w : Weight} {l r : CodeTree} {p : Codeword} {x : Byte}
    (h : (CodeTree.node i y w l r).follow p = some x) : p ≠ [] := by
  rintro rfl; simp [CodeTree.follow] at h

/-- The walk leaves the entries of symbols that are no leaf. -/
theorem walk_at_of_not_mem {t : CodeTree} {p : Codeword} {code : Table Codeword} {x : Byte} (h : x ∉ t.leaves) :
    (walk t p code).at x = code.at x := by
  induction t generalizing p code with
  | leaf y w => exact Table.at_put_ne _ _ (by simpa using h)
  | node i y w l r ihl ihr =>
    rw [CodeTree.leaves_node, List.mem_append, not_or] at h
    rw [walk, ihr h.2, ihl h.1]

/-- The walk stores each leaf's path (R74). -/
theorem walk_at_of_follow {t : CodeTree} {p q : Codeword} {code : Table Codeword} {x : Byte} (hn : t.leaves.Nodup)
    (h : t.follow q = some x) : (walk t p code).at x = p ++ q := by
  induction t generalizing p q code with
  | leaf y w =>
    cases q with
    | nil =>
      simp only [CodeTree.follow, Option.some.injEq] at h
      subst h; simp [walk]
    | cons b q => simp [CodeTree.follow] at h
  | node i y w l r ihl ihr =>
    rw [CodeTree.leaves_node, List.nodup_append] at hn
    cases q with
    | nil => simp [CodeTree.follow] at h
    | cons b q =>
      rw [walk]
      cases b with
      | true =>
        have h : r.follow q = some x := by simpa [CodeTree.follow] using h
        rw [ihr hn.2.1 h, List.append_assoc]; rfl
      | false =>
        have h : l.follow q = some x := by simpa [CodeTree.follow] using h
        rw [walk_at_of_not_mem fun hm => hn.2.2 x (CodeTree.mem_leaves_of_follow h) x hm rfl, ihl hn.1 h,
          List.append_assoc]; rfl

@[simp] theorem emptyCode_at (x : Byte) : emptyCode.at x = [] := by simp [emptyCode]

/-- The codes of a tree with an internal root and distinct leaves: a leaf's path, and nothing for other symbols. -/
theorem codes_node_at {i : NodeIndex} {y : Byte} {w : Weight} {l r : CodeTree}
    (hn : (CodeTree.node i y w l r).leaves.Nodup) (x : Byte) :
    (∀ p, (CodeTree.node i y w l r).follow p = some x → (codes (some (.node i y w l r))).at x = p) ∧
    (x ∉ (CodeTree.node i y w l r).leaves → (codes (some (.node i y w l r))).at x = []) := by
  refine ⟨fun p hp => ?_, fun hx => ?_⟩
  · exact walk_at_of_follow (p := []) (code := emptyCode) hn hp
  · exact (walk_at_of_not_mem (p := []) (code := emptyCode) hx).trans (emptyCode_at x)

/-- The codes of a single leaf (R75). -/
theorem codes_leaf_at (x : Byte) (w : Weight) (y : Byte) :
    (codes (some (.leaf x w))).at y = if y = x then [true] else [] := by
  rw [codes, Table.at_put, emptyCode_at]

@[simp] theorem codes_none_at (x : Byte) : (codes none).at x = [] := emptyCode_at x

/-- A tree is no deeper than it has leaves, less one. -/
theorem CodeTree.depth_lt (t : CodeTree) : t.depth < t.leaves.length := by
  induction t with
  | leaf x w => simp [CodeTree.depth]
  | node i x w l r ihl ihr => simp only [CodeTree.depth, CodeTree.leaves_node, List.length_append]; omega

theorem CodeTree.numLeaves_eq (t : CodeTree) : t.numLeaves = t.leaves.length := by
  induction t with
  | leaf x w => rfl
  | node i x w l r ihl ihr => simp [CodeTree.numLeaves, ihl, ihr]

/-- Every node of the tree is found under some index only if it has that index. -/
theorem CodeTree.findNode_some {t u : CodeTree} {n : NodeIndex} (h : t.findNode n = some u) :
    u ∈ t.nodes ∧ u.index = n := by
  induction t with
  | leaf x w =>
    simp only [CodeTree.findNode] at h
    split at h
    · cases h; exact ⟨by simp [CodeTree.nodes], by assumption⟩
    · cases h
  | node i x w l r ihl ihr =>
    simp only [CodeTree.findNode] at h
    simp only [CodeTree.nodes, List.mem_cons, List.mem_append]
    split at h
    · cases h; exact ⟨.inl rfl, by assumption⟩
    · split at h
      · cases h; rename_i hl; exact ⟨.inr (.inl (ihl hl).1), (ihl hl).2⟩
      · exact ⟨.inr (.inr (ihr h).1), (ihr h).2⟩

/-- No node is found only where no node has the index. -/
theorem CodeTree.findNode_none {t : CodeTree} {n : NodeIndex} (h : t.findNode n = none) :
    ∀ u ∈ t.nodes, u.index ≠ n := by
  induction t with
  | leaf x w =>
    simp only [CodeTree.findNode] at h
    split at h
    · cases h
    · intro u hu; simp only [CodeTree.nodes, List.mem_singleton] at hu; subst hu; assumption
  | node i x w l r ihl ihr =>
    simp only [CodeTree.findNode] at h
    split at h
    · cases h
    · rename_i hi
      split at h
      · cases h
      · rename_i hl
        intro u hu
        simp only [CodeTree.nodes, List.mem_cons, List.mem_append] at hu
        rcases hu with rfl | hu | hu
        · exact hi
        · exact ihl hl u hu
        · exact ihr h u hu

/-- A node's index is its leaf symbol's, below 256, or one of the internal indices. -/
theorem CodeTree.index_of_mem_nodes {t u : CodeTree} (h : u ∈ t.nodes) :
    (∃ x ∈ t.leaves, u.index = x.zeroExtend 9) ∨ u.index ∈ t.internals := by
  induction t with
  | leaf x w =>
    simp only [CodeTree.nodes, List.mem_singleton] at h
    subst h
    exact .inl ⟨x, by simp, rfl⟩
  | node i x w l r ihl ihr =>
    simp only [CodeTree.nodes, List.mem_cons, List.mem_append] at h
    rcases h with rfl | h | h
    · right; simp
    · rcases ihl h with ⟨y, hy, e⟩ | h
      · exact .inl ⟨y, by simp [hy], e⟩
      · right; simp [h]
    · rcases ihr h with ⟨y, hy, e⟩ | h
      · exact .inl ⟨y, by simp [hy], e⟩
      · right; simp [h]

/-- Where the leaves differ, the internal indices differ and are 256 or more, every node is found under its index. -/
theorem CodeTree.findNode_index {t u : CodeTree} (hl : t.leaves.Nodup) (hi : t.internals.Nodup)
    (hb : ∀ i ∈ t.internals, 256 ≤ i.toNat) (hu : u ∈ t.nodes) : t.findNode u.index = some u := by
  have lt (x : Byte) : (x.zeroExtend 9 : NodeIndex).toNat < 256 := by have := x.isLt; simp; omega
  induction t with
  | leaf x w =>
    simp only [CodeTree.nodes, List.mem_singleton] at hu
    subst hu
    simp [CodeTree.findNode]
  | node i x w l r ihl ihr =>
    simp only [CodeTree.nodes, List.mem_cons, List.mem_append] at hu
    simp only [CodeTree.leaves_node, List.nodup_append, CodeTree.internals_node, List.nodup_cons, List.mem_append,
      not_or] at hl hi
    have hbl : ∀ j ∈ l.internals, 256 ≤ j.toNat := fun j hj => hb j (by simp [hj])
    have hbr : ∀ j ∈ r.internals, 256 ≤ j.toNat := fun j hj => hb j (by simp [hj])
    have hbi := hb i (by simp)
    rcases hu with rfl | hu | hu
    · simp [CodeTree.findNode]
    · have hne : i ≠ u.index := by
        rintro rfl
        rcases CodeTree.index_of_mem_nodes hu with ⟨y, -, e⟩ | h
        · have := lt y; rw [← e] at this; omega
        · exact hi.1.1 h
      simp only [CodeTree.findNode, if_neg hne, ihl hl.1 hi.2.1 hbl hu]
    · have hne : i ≠ u.index := by
        rintro rfl
        rcases CodeTree.index_of_mem_nodes hu with ⟨y, -, e⟩ | h
        · have := lt y; rw [← e] at this; omega
        · exact hi.1.2 h
      have hln : l.findNode u.index = none := by
        by_contra hc
        obtain ⟨v, hv⟩ := Option.ne_none_iff_exists'.1 hc
        obtain ⟨hvm, hvi⟩ := CodeTree.findNode_some hv
        rcases CodeTree.index_of_mem_nodes hvm with ⟨y, hy, e⟩ | h1 <;>
          rcases CodeTree.index_of_mem_nodes hu with ⟨z, hz, e'⟩ | h2
        · have hyz : (y.zeroExtend 9 : NodeIndex).toNat = (z.zeroExtend 9 : NodeIndex).toNat := by rw [← e, ← e', hvi]
          have hy' := y.isLt
          have hz' := z.isLt
          have : y = z := by apply BitVec.eq_of_toNat_eq; simp at hyz; omega
          exact hl.2.2 y hy z hz this
        · have := lt y; rw [← e, hvi] at this; have := hbr _ h2; omega
        · have := lt z; rw [← e', ← hvi] at this; have := hbl _ h1; omega
        · rw [hvi] at h1; exact hi.2.2.2 _ h1 _ h2 rfl
      simp only [CodeTree.findNode, if_neg hne, hln, ihr hl.2.1 hi.2.2.1 hbr hu]

/-- A tree has one internal node fewer than leaves. -/
theorem CodeTree.length_internals (t : CodeTree) : t.internals.length + 1 = t.leaves.length := by
  induction t with
  | leaf => rfl
  | node i x w l r ihl ihr =>
    simp only [CodeTree.internals_node, CodeTree.leaves_node, List.length_cons, List.length_append]; omega

/-- TOTAL_LO and TOTAL_HI, and NODE words 2 and 3, hold a weight whole. -/
theorem toNat_weight_words (w : Weight) :
    (w.extractLsb' 0 32 : Word).toNat + 2 ^ 32 * (0#24 ++ (w.extractLsb' 32 8 : BitVec 8) : Word).toNat = w.toNat := by
  have := w.isLt
  rw [BitVec.toNat_append, BitVec.extractLsb'_toNat, BitVec.extractLsb'_toNat]
  simp [Nat.shiftRight_eq_div_pow]
  omega

end Sys2Proof.Machine
end

