-- ==== Sys2Proof/Laws/Flags.lean ====
section
/-!
SUPPORT. The bits of STATUS, CTRL and ERRCODE as words (R18, R19, R22).
-/

namespace Sys2Proof.Machine

/-- Six flags below 26 zeros, bit by bit. -/
theorem getLsbD_six_flags : ∀ f5 f4 f3 f2 f1 f0 : Bool,
    let w : Word := 0#26 ++ BitVec.ofBool f5 ++ BitVec.ofBool f4 ++ BitVec.ofBool f3 ++ BitVec.ofBool f2 ++
      BitVec.ofBool f1 ++ BitVec.ofBool f0
    w.getLsbD 0 = f0 ∧ w.getLsbD 1 = f1 ∧ w.getLsbD 2 = f2 ∧ w.getLsbD 3 = f3 ∧ w.getLsbD 4 = f4 ∧ w.getLsbD 5 = f5 ∧
      w.toNat < 2 ^ 6 := by decide

/-- The flags of STATUS (R19). -/
theorem statusWord_bits (s : State) :
    s.statusWord.getLsbD 0 = s.busy ∧ s.statusWord.getLsbD 1 = s.done ∧ s.statusWord.getLsbD 2 = s.err ∧
      s.statusWord.getLsbD 3 = s.ovr ∧ s.statusWord.getLsbD 4 = s.treeValid ∧
      s.statusWord.getLsbD 5 = s.treeNonempty ∧ s.statusWord.toNat < 2 ^ 6 :=
  getLsbD_six_flags _ _ _ _ _ _

/-- Two flags below 30 zeros, bit by bit. -/
theorem getLsbD_two_flags : ∀ f1 f0 : Bool,
    let w : Word := 0#30 ++ BitVec.ofBool f1 ++ BitVec.ofBool f0
    w.getLsbD 0 = f0 ∧ w.getLsbD 1 = f1 ∧ w.toNat < 2 ^ 2 := by decide

/-- The fields of CTRL (R18). -/
theorem ctrlWord_bits (s : State) :
    s.ctrlWord.getLsbD 0 = s.doneIE ∧ s.ctrlWord.getLsbD 1 = s.errIE ∧ s.ctrlWord.toNat < 2 ^ 2 :=
  getLsbD_two_flags _ _

/-- ERRCODE is 16 * OP + CAUSE (R22, R89). -/
theorem toNat_errCodeWord (s : State) : s.errCodeWord.toNat = 16 * s.errOp.toNat + s.errCause.code.toNat := by
  have key : ∀ p c : BitVec 4, (0#24 ++ p ++ c : Word).toNat = 16 * p.toNat + c.toNat := by decide
  exact key _ _

end Sys2Proof.Machine
end

