-- ==== Sys2Proof/Laws/Streams.lean ====
section
/-!
SUPPORT. The sizing pass, the descent and the decoding loop: what each answers, said once.
-/

namespace Sys2Proof.Machine

theorem emit_eq_flatten (code : Table Codeword) (xs : List Byte) : emit code xs = (xs.map code.at).flatten := by
  induction xs with
  | nil => rfl
  | cons x xs ih => simp [emit, ih]

theorem emit_append (code : Table Codeword) (xs ys : List Byte) : emit code (xs ++ ys) = emit code xs ++ emit code ys := by
  simp [emit_eq_flatten]

/-- The sizing pass of coded bytes is the length of what the emit pass emits. -/
theorem sizing_ok {code : Table Codeword} {xs : List Byte} (h : allCoded code xs) (i t : Nat) :
    sizing code i t xs = .ok (t + (emit code xs).length) := by
  induction xs generalizing i t with
  | nil => simp [sizing, emit]
  | cons x xs ih =>
    have hx : ¬ (code.at x).length = 0 := fun e => h x List.mem_cons_self (List.eq_nil_of_length_eq_zero e)
    rw [sizing, if_neg hx, ih fun y hy => h y (List.mem_cons_of_mem _ hy)]
    simp [emit, Nat.add_assoc]

/-- The sizing pass stops at the first byte without a codeword. -/
theorem sizing_absent {code : Table Codeword} {xs ys : List Byte} {x : Byte} (h : allCoded code xs)
    (hx : code.at x = []) (i t : Nat) :
    sizing code i t (xs ++ x :: ys) =
      .error ⟨.absentSymbol, BitVec.ofNat 32 (x.toNat * 2 ^ 24 + (i + xs.length))⟩ := by
  induction xs generalizing i t with
  | nil => simp [sizing, hx]
  | cons y xs ih =>
    have hy : ¬ (code.at y).length = 0 := fun e => h y List.mem_cons_self (List.eq_nil_of_length_eq_zero e)
    rw [List.cons_append, sizing, if_neg hy, ih fun z hz => h z (List.mem_cons_of_mem _ hz)]
    simp [Nat.add_assoc, Nat.add_comm]

/-- The sizing pass answers a size, every byte having a codeword, or ABSENT_SYMBOL. -/
theorem sizing_cases (code : Table Codeword) (i t : Nat) (xs : List Byte) :
    (allCoded code xs ∧ sizing code i t xs = .ok (t + (emit code xs).length)) ∨
    ∃ info, sizing code i t xs = .error ⟨.absentSymbol, info⟩ := by
  induction xs generalizing i t with
  | nil => exact .inl ⟨by simp [allCoded], by simp [sizing, emit]⟩
  | cons x xs ih =>
    by_cases hx : code.at x = []
    · exact .inr ⟨_, by rw [sizing, if_pos (by simp [hx])]⟩
    · have hx' : ¬ (code.at x).length = 0 := fun e => hx (List.eq_nil_of_length_eq_zero e)
      rw [sizing, if_neg hx']
      rcases ih (i + 1) (t + (code.at x).length) with ⟨h, e⟩ | h
      · refine .inl ⟨?_, by rw [e]; simp [emit, Nat.add_assoc]⟩
        intro y hy
        rcases List.mem_cons.1 hy with rfl | hy
        · exact hx
        · exact h y hy
      · exact .inr h

/-- The stream has a nonempty string when its first bit is there and its rest follows. -/
theorem State.streamHas_cons (s : State) (base t : Nat) (b : Bool) (c : Codeword) :
    s.streamHas base t (b :: c) ↔ s.bitAt base t = b ∧ s.streamHas base (t + 1) c := by
  constructor
  · intro h
    refine ⟨by simpa using h 0 (by simp), fun j hj => ?_⟩
    have := h (j + 1) (by simpa using hj)
    rw [List.getD_cons_succ] at this
    rw [← this]
    congr 1; omega
  · rintro ⟨h0, h⟩ j hj
    cases j with
    | zero => simpa using h0
    | succ j =>
      have := h j (by simpa using hj)
      rw [List.getD_cons_succ, ← this]
      congr 1; omega

theorem State.streamHas_append (s : State) (base t : Nat) (c d : Codeword) :
    s.streamHas base t (c ++ d) ↔ s.streamHas base t c ∧ s.streamHas base (t + c.length) d := by
  induction c generalizing t with
  | nil => simp [State.streamHas]
  | cons b c ih =>
    have e : t + (b :: c).length = t + 1 + c.length := by simp; omega
    rw [List.cons_append, State.streamHas_cons, State.streamHas_cons, ih, e, and_assoc]

/-- The descent follows a path that the stream holds and the input covers (R84). -/
theorem descend_ok {s : State} {src limit : Nat} {t : CodeTree} {p : Codeword} {x : Byte} {n : Nat}
    (hp : t.follow p = some x) (hs : s.streamHas src n p) (hl : n + p.length ≤ limit) :
    descend s src limit t n = .ok (x, n + p.length) := by
  induction t generalizing p n with
  | leaf y w =>
    cases p with
    | nil => simp only [CodeTree.follow, Option.some.injEq] at hp; subst hp; rfl
    | cons b p => simp [CodeTree.follow] at hp
  | node i y w l r ihl ihr =>
    cases p with
    | nil => simp [CodeTree.follow] at hp
    | cons b p =>
      rw [State.streamHas_cons] at hs
      simp only [List.length_cons] at hl
      have hn : ¬ limit ≤ n := by omega
      have e : n + (b :: p).length = n + 1 + p.length := by simp; omega
      rw [descend, if_neg hn, hs.1, e]
      cases b with
      | true => exact ihr (by simpa [CodeTree.follow] using hp) hs.2 (by omega)
      | false => exact ihl (by simpa [CodeTree.follow] using hp) hs.2 (by omega)

/-- The descent either ends at a leaf, whose path the stream holds and the input covers, or raises TRUNCATED at the
first bit past the input (R84). -/
theorem descend_cases (s : State) (src limit : Nat) (t : CodeTree) {n : Nat} (hn : n ≤ limit) :
    (∃ p x, t.follow p = some x ∧ s.streamHas src n p ∧ n + p.length ≤ limit ∧
      descend s src limit t n = .ok (x, n + p.length)) ∨
    descend s src limit t n = .error ⟨.truncated, BitVec.ofNat 32 limit⟩ := by
  induction t generalizing n with
  | leaf y w => exact .inl ⟨[], y, rfl, by simp [State.streamHas], by simpa, rfl⟩
  | node i y w l r ihl ihr =>
    by_cases h : limit ≤ n
    · have e : n = limit := by omega
      subst e
      exact .inr (by rw [descend, if_pos h])
    · rw [descend, if_neg h]
      cases hb : s.bitAt src n with
      | true =>
        rcases ihr (n := n + 1) (by omega) with ⟨p, x, h1, h2, h3, h4⟩ | h4
        · refine .inl ⟨true :: p, x, by simpa [CodeTree.follow] using h1, ?_, by simp; omega, ?_⟩
          · rw [State.streamHas_cons]; exact ⟨hb, h2⟩
          · simp only [if_true, h4, List.length_cons]; congr 2; omega
        · exact .inr h4
      | false =>
        rcases ihl (n := n + 1) (by omega) with ⟨p, x, h1, h2, h3, h4⟩ | h4
        · refine .inl ⟨false :: p, x, by simpa [CodeTree.follow] using h1, ?_, by simp; omega, ?_⟩
          · rw [State.streamHas_cons]; exact ⟨hb, h2⟩
          · simp only [Bool.false_eq_true, if_false, h4, List.length_cons]; congr 2; omega
        · exact .inr h4

/-- One symbol: a codeword of the tree's own code that the stream holds and the input covers, or a raise of
TRUNCATED or BAD_CODE (R84). -/
theorem nextSymbol_error {s : State} {src limit : Nat} {t : CodeTree} {n : Nat} {e : CmdError}
    (h : nextSymbol s src limit t n = .error e) : e.cause = .truncated ∨ e.cause = .badCode := by
  cases t with
  | leaf y w =>
    simp only [nextSymbol] at h
    split at h
    · cases h; exact .inl rfl
    · split at h
      · cases h
      · cases h; exact .inr rfl
  | node i y w l r =>
    simp only [nextSymbol] at h
    by_cases hn : n ≤ limit
    · rcases descend_cases s src limit (.node i y w l r) hn with ⟨p, x, -, -, -, h4⟩ | h4
      · rw [h4] at h; cases h
      · rw [h4] at h; cases h; exact .inl rfl
    · rw [descend, if_pos (by omega)] at h; cases h; exact .inl rfl

/-- The decoding loop, whatever the stream: it changes BUF and the result counts only, BUF only at the offsets of the
symbols it decoded, which RES_BYTES counts, and a raise is TRUNCATED or BAD_CODE. -/
theorem decodeLoop_frame (src limit dst : Nat) (root : CodeTree) (n i t : Nat) (s : State) (r : Ran)
    (h : decodeLoop src limit dst root n i t s = r) (hi : s.resBytes = BitVec.ofNat 32 i) :
    r.state = { s with buf := r.state.buf, resBits := r.state.resBits, resBytes := r.state.resBytes } ∧
    (∃ k, k ≤ n ∧ r.state.resBytes = BitVec.ofNat 32 (i + k) ∧ ∀ a, a < dst + i ∨ dst + (i + k) ≤ a →
      r.state.readByte a = s.readByte a) ∧
    (∀ e, r.error = some e → e.cause = .truncated ∨ e.cause = .badCode) ∧
    (Memory.wf s.buf = true → Memory.wf r.state.buf = true) ∧
    ∀ c ∈ r.state.buf, c ∈ s.buf ∨ c.1 < dst + i + n := by
  induction n generalizing i t s with
  | zero =>
    simp only [decodeLoop] at h; subst h
    exact ⟨rfl, ⟨0, Nat.le_refl _, hi, fun _ _ => rfl⟩, by simp, id, fun c hc => .inl hc⟩
  | succ n ih =>
    simp only [decodeLoop] at h
    split at h
    · rename_i e he
      subst h
      exact ⟨rfl, ⟨0, by omega, hi, fun _ _ => rfl⟩, fun e' h' => by cases h'; exact nextSymbol_error he, id,
        fun c hc => .inl hc⟩
    · rename_i x t' hx
      obtain ⟨h1, ⟨k, hk, h2, h3⟩, h4, h5, h6⟩ := ih (i + 1) t' _ h rfl
      refine ⟨?_, ⟨k + 1, by omega, by rw [h2]; congr 1; omega, fun a ha => ?_⟩, h4, fun hw => ?_, fun c hc => ?_⟩
      · rw [h1]; rfl
      · rw [h3 a (by omega), State.readByte_setResult, State.readByte_writeByte_ne _ _ (by omega)]
      · exact h5 (by simpa using Memory.wf_set _ _ hw)
      · rcases h6 c hc with h | h
        · rw [State.setResult_buf, State.writeByte_buf] at h
          rcases Memory.mem_set h with rfl | h
          · exact .inr (by simp only; omega)
          · exact .inl h
        · exact .inr (by omega)

end Sys2Proof.Machine
end

