-- ==== Sys2Proof/Laws/Step.lean ====
section
/-!
SUPPORT. What each command body can do, what exec and one step answer: each said once, for the provers to cite.
-/

namespace Sys2Proof.Machine

/-- A bus address reaches the offset it is beyond BASE (R34). -/
theorem busOffset_eq_some {c : Config} {addr : Nat} {o : Offset} :
    busOffset c addr = some o ↔ addr = c.base + o.toNat := by
  have ho := o.isLt
  unfold busOffset
  constructor
  · intro h
    split at h
    · rename_i hr
      simp only [Option.some.injEq] at h
      have : o.toNat = (addr - c.base) % 2 ^ 17 := by rw [← h, BitVec.toNat_ofNat]
      omega
    · cases h
  · rintro rfl
    rw [if_pos (by omega), Nat.add_sub_cancel_left, BitVec.ofNat_toNat, BitVec.setWidth_eq]

/-- The body each instruction runs to its end or to a raise. -/
def bodyOf : Instr → State → Ran
  | .clrfreq, s => clrfreqBody s
  | .count, s => countBody s
  | .build, s => buildBody s
  | .encode, s => encodeBody s
  | .decode, s => decodeBody s
  | .illegal w, s => illegalBody w s

/-- Every instruction completes: exec is the completion of its body (R89). -/
theorem exec_eq (i : Instr) (s : State) : exec i s = .next ((bodyOf i s).complete (encode i)) := by cases i <;> rfl

/-- What a command body may change: FREQ, TREE, BUF and the result counts. -/
def Ran.Within (s : State) (r : Ran) : Prop :=
  r.state = { s with
    freq := r.state.freq, tree := r.state.tree, buf := r.state.buf, resBits := r.state.resBits,
    resBytes := r.state.resBytes }

theorem clrfreqBody_within (s : State) : (clrfreqBody s).Within s := rfl

theorem countBody_cases (s : State) :
    countBody s = .raised (s.setResult 0 0) .range 0#32 ∨
    (∃ x : Byte, countBody s = .raised (s.setResult 0 0) .freqOverflow (x.zeroExtend 32)) ∨
    (s.inputOut = false ∧ s.overflowing = none ∧ countBody s =
      .ok (((s.setResult 0 0).setFreq (Table.tabulate fun x => BitVec.ofNat 32 (s.countedFreq x))).invalidate.setResult
        0 s.len.toNat)) := by
  unfold countBody
  split
  · exact .inl rfl
  · split
    · exact .inr (.inl ⟨_, rfl⟩)
    · exact .inr (.inr ⟨Bool.eq_false_iff.2 ‹_›, ‹_›, rfl⟩)

theorem countBody_within (s : State) : (countBody s).Within s := by
  rcases countBody_cases s with h | ⟨x, h⟩ | ⟨-, -, h⟩ <;> rw [h] <;> rfl

theorem buildBody_within (s : State) : (buildBody s).Within s := rfl

theorem illegalBody_within (w : Word) (s : State) : (illegalBody w s).Within s := rfl

/-- ENCODE raises with nothing written, or writes the packed stream of coded bytes, inside BUF and off the input. -/
theorem encodeBody_cases (s : State) :
    (∃ c info, c ≠ .noError ∧ encodeBody s = .raised (s.setResult 0 0) c info) ∨
    ∃ b, s.tree = some b ∧ s.inputOut = false ∧ allCoded b.code s.input ∧
      s.outputOut (ceilDiv8 (emit b.code s.input).length) = false ∧
      s.overlaps (ceilDiv8 (emit b.code s.input).length) = false ∧
      encodeBody s = .ok (((s.setResult 0 0).putBits s.dst.toNat (emit b.code s.input)).setResult
        (emit b.code s.input).length (ceilDiv8 (emit b.code s.input).length)) := by
  unfold encodeBody
  cases hb : s.tree with
  | none => exact .inl ⟨_, _, by decide, rfl⟩
  | some b =>
    cases hin : s.inputOut with
    | true => exact .inl ⟨_, _, by decide, rfl⟩
    | false =>
      rcases sizing_cases b.code 0 0 s.input with ⟨hc, he⟩ | ⟨info, he⟩
      · rw [Nat.zero_add] at he
        cases hout : s.outputOut (ceilDiv8 (emit b.code s.input).length) with
        | true => exact .inl ⟨.range, 1#32, by decide, by simp [he, hout]⟩
        | false =>
          cases hov : s.overlaps (ceilDiv8 (emit b.code s.input).length) with
          | true => exact .inl ⟨.overlap, 0#32, by decide, by simp [he, hout, hov]⟩
          | false => exact .inr ⟨b, rfl, rfl, hc, hout, hov, by simp [he, hout, hov]⟩
      · exact .inl ⟨.absentSymbol, info, by decide, by simp [he, Ran.raised]⟩

theorem encodeBody_within (s : State) : (encodeBody s).Within s := by
  rcases encodeBody_cases s with ⟨c, info, -, h⟩ | ⟨b, -, -, -, -, -, h⟩
  · rw [h]; rfl
  · rw [h, Ran.Within, Ran.ok_state, putBits_eq]; rfl

/-- DECODE raises before the descent with nothing written, or succeeds on the empty tree, or runs the decoding loop
inside BUF and off the input. -/
theorem decodeBody_cases (s : State) :
    (∃ c info, c ≠ .noError ∧ decodeBody s = .raised (s.setResult 0 0) c info) ∨
    decodeBody s = .ok (s.setResult 0 0) ∨
    ∃ b root, s.tree = some b ∧ b.root = some root ∧ s.inputOut = false ∧ s.outputOut root.weight.toNat = false ∧
      s.overlaps root.weight.toNat = false ∧
      decodeBody s = decodeLoop s.src.toNat (8 * s.len.toNat) s.dst.toNat root root.weight.toNat 0 0 (s.setResult 0 0) := by
  unfold decodeBody
  cases hb : s.tree with
  | none => exact .inl ⟨_, _, by decide, rfl⟩
  | some b =>
    cases hin : s.inputOut with
    | true => exact .inl ⟨_, _, by decide, rfl⟩
    | false =>
      cases hr : b.root with
      | none =>
        cases hout : s.outputOut 0 with
        | true => exact .inl ⟨.range, 1#32, by decide, by simp [decodeRooted, hout, hr]⟩
        | false =>
          cases hov : s.overlaps 0 with
          | true => exact .inl ⟨.overlap, 0#32, by decide, by simp [decodeRooted, hout, hov, hr]⟩
          | false => exact .inr (.inl (by simp [decodeRooted, hout, hov, hr]))
      | some root =>
        cases hout : s.outputOut root.weight.toNat with
        | true => exact .inl ⟨.range, 1#32, by decide, by simp [decodeRooted, hout, hr]⟩
        | false =>
          cases hov : s.overlaps root.weight.toNat with
          | true => exact .inl ⟨.overlap, 0#32, by decide, by simp [decodeRooted, hout, hov, hr]⟩
          | false =>
            exact .inr (.inr ⟨b, root, rfl, hr, rfl, hout, hov, by simp [decodeRooted, hout, hov, hr]⟩)

/-- DECODE's changes: BUF at the offsets of the symbols it decoded, which RES_BYTES counts, and the result counts. -/
theorem decodeBody_frame (s : State) :
    (decodeBody s).state = { s with
      buf := (decodeBody s).state.buf, resBits := (decodeBody s).state.resBits,
      resBytes := (decodeBody s).state.resBytes } ∧
    sameBufOutside s (decodeBody s).state s.dst.toNat (decodeBody s).state.resBytes.toNat ∧
    (∀ e, (decodeBody s).error = some e → e.cause ≠ .noError) ∧
    (Memory.wf s.buf = true → Memory.wf (decodeBody s).state.buf = true) ∧
    ∀ c ∈ (decodeBody s).state.buf, c ∈ s.buf ∨ c.1 < s.config.bufBytes := by
  rcases decodeBody_cases s with ⟨c, info, hc, h⟩ | h | ⟨b, root, -, -, -, hout, -, h⟩
  · rw [h]
    exact ⟨rfl, fun _ _ => rfl, fun e he => by simp at he; subst he; exact hc, id, fun c hc => .inl hc⟩
  · rw [h]
    exact ⟨rfl, fun _ _ => rfl, fun e he => by simp at he, id, fun c hc => .inl hc⟩
  · rw [State.outputOut, decide_eq_false_iff_not, Nat.not_lt] at hout
    obtain ⟨h1, ⟨k, hk, h2, h3⟩, h4, h5, h6⟩ := decodeLoop_frame _ _ _ _ _ 0 0 _ _ h.symm rfl
    have hb := (bufBytes_range s.config).2.2
    have hn : (decodeBody s).state.resBytes.toNat = k := by
      rw [h2, Nat.zero_add, BitVec.toNat_ofNat]; omega
    refine ⟨by rw [h1]; rfl, fun a ha => ?_, fun e he => ?_, h5, fun c hc => ?_⟩
    · rw [hn] at ha; exact h3 a (by omega)
    · rcases h4 e he with h | h <;> rw [h] <;> decide
    · exact (h6 c hc).imp_right fun h => by omega

theorem decodeBody_within (s : State) : (decodeBody s).Within s := by
  rw [Ran.Within, (decodeBody_frame s).1]

/-- Every command body keeps to FREQ, TREE, BUF and the result counts. -/
theorem bodyOf_within (i : Instr) (s : State) : (bodyOf i s).Within s := by
  cases i with
  | clrfreq => exact clrfreqBody_within s
  | count => exact countBody_within s
  | build => exact buildBody_within s
  | encode => exact encodeBody_within s
  | decode => exact decodeBody_within s
  | illegal w => exact illegalBody_within w s

/-- A raise names a cause: never NONE (R87). -/
theorem bodyOf_error (i : Instr) (s : State) {e : CmdError} (h : (bodyOf i s).error = some e) : e.cause ≠ .noError := by
  cases i with
  | clrfreq => cases h
  | count =>
    rcases countBody_cases s with h' | ⟨x, h'⟩ | ⟨-, -, h'⟩ <;> simp only [bodyOf, h'] at h <;> cases h <;>
      exact Cause.noConfusion
  | build => cases h
  | encode =>
    rcases encodeBody_cases s with ⟨c, info, hc, h'⟩ | ⟨b, -, -, -, -, -, h'⟩ <;> simp only [bodyOf, h'] at h <;> cases h
    exact hc
  | decode => exact (decodeBody_frame s).2.2.1 e h
  | illegal w => cases h; exact Cause.noConfusion

/-- BUF stays canonical under every command body. -/
theorem bodyOf_wf (i : Instr) (s : State) (h : Memory.wf s.buf = true) : Memory.wf (bodyOf i s).state.buf = true := by
  cases i with
  | clrfreq => exact h
  | count => rcases countBody_cases s with h' | ⟨x, h'⟩ | ⟨-, -, h'⟩ <;> simp only [bodyOf, h'] <;> exact h
  | build => exact h
  | encode =>
    rcases encodeBody_cases s with ⟨c, info, -, h'⟩ | ⟨b, -, -, -, -, -, h'⟩ <;> simp only [bodyOf, h']
    · exact h
    · exact State.wf_writeBytes _ _ _ h
  | decode => exact (decodeBody_frame s).2.2.2.1 h
  | illegal w => exact h

/-- BUF keeps to its range under every command body. -/
theorem bodyOf_range (i : Instr) (s : State) : ∀ c ∈ (bodyOf i s).state.buf, c ∈ s.buf ∨ c.1 < s.config.bufBytes := by
  cases i with
  | clrfreq => exact fun c hc => .inl hc
  | count => rcases countBody_cases s with h' | ⟨x, h'⟩ | ⟨-, -, h'⟩ <;> simp only [bodyOf, h'] <;> exact fun c hc => .inl hc
  | build => exact fun c hc => .inl hc
  | encode =>
    rcases encodeBody_cases s with ⟨c, info, -, h'⟩ | ⟨b, -, -, -, hout, -, h'⟩ <;> simp only [bodyOf, h']
    · exact fun c hc => .inl hc
    · intro c hc
      rw [State.outputOut, decide_eq_false_iff_not, Nat.not_lt] at hout
      rcases State.mem_writeBytes _ _ _ hc with h | h
      · exact .inl h
      · rw [length_packedBytes] at h; exact .inr (by omega)
  | decode => exact (decodeBody_frame s).2.2.2.2
  | illegal w => exact fun c hc => .inl hc

/-- One step, taken apart: the completion of a pending command, an idle engine, a host access, or reset (R47). -/
theorem step_cases {s t : State} (h : step s = .next t) :
    (∃ ts w, (s.turns = [] ∧ ts = [] ∨ s.turns = .engine :: ts) ∧ s.pending = some w ∧
      exec (decode w) (s.setTurns ts) = .next t) ∨
    (∃ ts, (s.turns = [] ∧ ts = [] ∨ s.turns = .engine :: ts) ∧ s.pending = none ∧ t = s.setTurns ts) ∨
    (∃ addr ts, s.turns = .read addr :: ts ∧ t = readStep (s.setTurns ts) addr) ∨
    (∃ addr w ts, s.turns = .write addr w :: ts ∧ t = writeStep (s.setTurns ts) addr w) ∨
    (∃ ts, s.turns = .reset :: ts ∧ t = (s.setTurns ts).resetBlock) := by
  have engine : ∀ ts, engineStep (s.setTurns ts) = .next t →
      (∃ w, s.pending = some w ∧ exec (decode w) (s.setTurns ts) = .next t) ∨ (s.pending = none ∧ t = s.setTurns ts) := by
    intro ts h
    simp only [engineStep, State.fetch, State.setTurns_pending] at h
    cases hp : s.pending with
    | none => rw [hp] at h; cases h; exact .inr ⟨rfl, rfl⟩
    | some w => rw [hp] at h; exact .inl ⟨w, rfl, h⟩
  unfold step at h
  cases hts : s.turns with
  | nil =>
    rw [hts] at h
    have e : s = s.setTurns [] := by cases s; simp only at hts; subst hts; rfl
    have h' : engineStep (s.setTurns []) = .next t := by rw [← e]; exact h
    rcases engine [] h' with ⟨w, hp, h⟩ | ⟨hp, h⟩
    · exact .inl ⟨[], w, .inl ⟨rfl, rfl⟩, hp, h⟩
    · exact .inr (.inl ⟨[], .inl ⟨rfl, rfl⟩, hp, h⟩)
  | cons a ts =>
    rw [hts] at h
    cases a with
    | engine =>
      rcases engine ts h with ⟨w, hp, h⟩ | ⟨hp, h⟩
      · exact .inl ⟨ts, w, .inr rfl, hp, h⟩
      · exact .inr (.inl ⟨ts, .inr rfl, hp, h⟩)
    | read addr => cases h; exact .inr (.inr (.inl ⟨addr, ts, rfl, rfl⟩))
    | write addr w => cases h; exact .inr (.inr (.inr (.inl ⟨addr, w, ts, rfl, rfl⟩)))
    | reset => cases h; exact .inr (.inr (.inr (.inr ⟨ts, rfl, rfl⟩)))

/-- A run of one more step of any machine, when that step answers a next state. -/
theorem run_succ (m : Host.Core) {s t : m.State} (h : m.step s = .next t) (k : Nat) : m.run (k + 1) s = m.run k t := by
  simp only [Host.Core.run, h]

theorem core_run_succ {s t : State} (h : step s = .next t) (k : Nat) :
    Sys2Proof.core.run (k + 1) s = Sys2Proof.core.run k t := run_succ Sys2Proof.core h k

@[simp] theorem core_run_zero (s : State) : Sys2Proof.core.run 0 s = .next s := rfl

/-- A host write step is no access at all, a refused one, or what the target's write does. -/
theorem writeStep_cases (s : State) (addr : Nat) (w : Word) :
    writeStep s addr w = s ∨
    ∃ o, busOffset s.config addr = some o ∧
      ((s.busy = true ∧ refusedOffset s.config (alignedOffset o) ∧ writeStep s addr w = s.overrun) ∨
        (¬ (s.busy = true ∧ refusedOffset s.config (alignedOffset o)) ∧
          writeStep s addr w = s.writeTarget w (targetAt s.config (alignedOffset o)))) := by
  unfold writeStep
  cases h : busOffset s.config addr with
  | none => exact .inl rfl
  | some o => exact .inr ⟨o, rfl, hostWrite_cases s o w⟩

/-- A host read step changes the host's record alone. -/
theorem readStep_eq (s : State) (addr : Nat) : readStep s addr = { s with got := (readStep s addr).got } := by
  unfold readStep
  split <;> rfl

/-- A write turn at a window offset is a host write there. -/
theorem step_write {s : State} {n : Nat} {w : Word} {ts : List Turn} (h : s.turns = .write (s.config.base + n) w :: ts)
    (hn : n < 0x20000) : step s = .next (hostWrite (s.setTurns ts) (off n) w) := by
  have e : busOffset (s.setTurns ts).config (s.config.base + n) = some (off n) := by
    rw [State.setTurns_config, busOffset_eq_some]; simp [off]; omega
  simp only [step, h, takeTurn, writeStep, e]

/-- A read turn at a window offset is a host read there. -/
theorem step_read {s : State} {n : Nat} {ts : List Turn} (h : s.turns = .read (s.config.base + n) :: ts)
    (hn : n < 0x20000) : step s = .next ((s.setTurns ts).give (hostRead (s.setTurns ts) (off n))) := by
  have e : busOffset (s.setTurns ts).config (s.config.base + n) = some (off n) := by
    rw [State.setTurns_config, busOffset_eq_some]; simp [off]; omega
  simp only [step, h, takeTurn, readStep, e]

/-- A raise before any write is the completed state with that cause. -/
theorem complete_raised_eq (s : State) (w : Word) {c : Cause} (info : Word) (h : c ≠ .noError) :
    (Ran.raised (s.setResult 0 0) c info).complete w = s.completed w c info 0 0 s.buf := by
  simp [State.completed, opField, State.setResult, h]

/-- An end that wrote only BUF and the result counts is the completed state with no cause. -/
theorem complete_ok_eq (s : State) (w : Word) (bits bytes : Nat) (m : Memory) :
    (Ran.ok { s.setResult bits bytes with buf := m }).complete w = s.completed w .noError 0#32 bits bytes m := by
  simp [State.completed, opField, State.setResult]

end Sys2Proof.Machine
end

