-- ==== Sys2Proof/Laws/Frame.lean ====
section
/-!
SUPPORT. What no command reads: the flags, CTRL and the outside's own fields. exec does the same on two states
that differ in these alone (spec/30_encoding.md R56, the reads column).
-/

namespace Sys2Proof.Machine

/-- `s` with CTRL, DONE, ERR, OVR, the turns and the record of reads as given. -/
def State.outside (s : State) (doneIE errIE done err ovr : Bool) (turns : List Turn) (got : List Word) : State :=
  { s with doneIE := doneIE, errIE := errIE, done := done, err := err, ovr := ovr, turns := turns, got := got }

/-- The same on what a command body leaves. -/
def Ran.outside (r : Ran) (doneIE errIE done err ovr : Bool) (turns : List Turn) (got : List Word) : Ran :=
  ⟨r.state.outside doneIE errIE done err ovr turns got, r.error⟩

section
variable (a b c d e : Bool) (ts : List Turn) (g : List Word)

theorem writeBytes_outside (s : State) (n : Nat) (vs : List Byte) :
    (s.outside a b c d e ts g).writeBytes n vs = (s.writeBytes n vs).outside a b c d e ts g := by
  induction vs generalizing s n with
  | nil => rfl
  | cons v vs ih => exact ih (s.writeByte n v) (n + 1)

theorem descend_outside (s : State) (src limit : Nat) (t : CodeTree) (n : Nat) :
    descend (s.outside a b c d e ts g) src limit t n = descend s src limit t n := by
  induction t generalizing n with
  | leaf => rfl
  | node i x w l r ihl ihr => simp only [descend, ihl, ihr]; rfl

theorem nextSymbol_outside (s : State) (src limit : Nat) (t : CodeTree) (n : Nat) :
    nextSymbol (s.outside a b c d e ts g) src limit t n = nextSymbol s src limit t n := by
  cases t with
  | leaf => rfl
  | node i x w l r => exact descend_outside a b c d e ts g s src limit (.node i x w l r) n

theorem decodeLoop_outside (src limit dst : Nat) (t : CodeTree) (n i k : Nat) (s : State) :
    decodeLoop src limit dst t n i k (s.outside a b c d e ts g) =
      (decodeLoop src limit dst t n i k s).outside a b c d e ts g := by
  induction n generalizing i k s with
  | zero => rfl
  | succ n ih =>
    simp only [decodeLoop, nextSymbol_outside]
    cases nextSymbol s src limit t k with
    | error e => rfl
    | ok p => exact ih (i + 1) p.2 ((s.writeByte (dst + i) p.1).setResult p.2 (i + 1))

/-- No command body reads CTRL, the flags, the turns or the record of reads, or changes them. -/
theorem bodyOf_outside (i : Instr) (s : State) :
    bodyOf i (s.outside a b c d e ts g) = (bodyOf i s).outside a b c d e ts g := by
  have hin : (s.outside a b c d e ts g).inputOut = s.inputOut := rfl
  have htr : (s.outside a b c d e ts g).tree = s.tree := rfl
  have hout : ∀ n, (s.outside a b c d e ts g).outputOut n = s.outputOut n := fun _ => rfl
  have hov : ∀ n, (s.outside a b c d e ts g).overlaps n = s.overlaps n := fun _ => rfl
  cases i with
  | clrfreq => rfl
  | build => rfl
  | illegal w => rfl
  | count =>
    show countBody _ = (countBody s).outside a b c d e ts g
    have hf : (s.outside a b c d e ts g).overflowing = s.overflowing := rfl
    simp only [countBody, hin, hf]
    cases s.inputOut <;> cases s.overflowing <;> rfl
  | encode =>
    show encodeBody _ = (encodeBody s).outside a b c d e ts g
    have hi : (s.outside a b c d e ts g).input = s.input := rfl
    simp only [encodeBody]
    rw [hin, hi, htr]
    cases s.tree with
    | none => rfl
    | some built =>
      simp only []
      cases s.inputOut with
      | true => rfl
      | false =>
        cases sizing built.code 0 0 s.input with
        | error e => rfl
        | ok t =>
          simp only [hout, hov]
          cases s.outputOut (ceilDiv8 t) with
          | true => rfl
          | false =>
            cases s.overlaps (ceilDiv8 t) with
            | true => rfl
            | false =>
              simp only [Bool.false_eq_true, if_false, Ran.ok, State.putBits]
              rw [show (s.outside a b c d e ts g).setResult 0 0 = (s.setResult 0 0).outside a b c d e ts g from rfl,
                writeBytes_outside]
              rfl
  | decode =>
    show decodeBody _ = (decodeBody s).outside a b c d e ts g
    simp only [decodeBody, hin, htr]
    cases s.tree with
    | none => rfl
    | some built =>
      cases s.inputOut with
      | true => rfl
      | false =>
        simp only [Bool.false_eq_true, if_false]
        cases built.root with
        | none => simp only [decodeRooted, hout, hov]; cases s.outputOut 0 <;> cases s.overlaps 0 <;> rfl
        | some root =>
          simp only [decodeRooted, hout, hov]
          cases s.outputOut root.weight.toNat with
          | true => rfl
          | false =>
            cases s.overlaps root.weight.toNat with
            | true => rfl
            | false =>
              exact decodeLoop_outside a b c d e ts g s.src.toNat (8 * s.len.toNat) s.dst.toNat root root.weight.toNat
                0 0 (s.setResult 0 0)

end

/-- What a command body leaves of the registers it may not write. -/
theorem bodyOf_frame (i : Instr) (s : State) :
    (bodyOf i s).state.config = s.config ∧ (bodyOf i s).state.doneIE = s.doneIE ∧ (bodyOf i s).state.errIE = s.errIE ∧
    (bodyOf i s).state.done = s.done ∧ (bodyOf i s).state.err = s.err ∧ (bodyOf i s).state.ovr = s.ovr ∧
    (bodyOf i s).state.cmd = s.cmd ∧ (bodyOf i s).state.src = s.src ∧ (bodyOf i s).state.dst = s.dst ∧
    (bodyOf i s).state.len = s.len ∧ (bodyOf i s).state.pending = s.pending ∧ (bodyOf i s).state.epoch = s.epoch ∧
    (bodyOf i s).state.turns = s.turns ∧ (bodyOf i s).state.got = s.got := by
  rw [bodyOf_within i s]; simp

/-- exec does not read the turns or the record of reads. -/
theorem exec_turns_got (i : Instr) (s : State) (ts : List Turn) (g : List Word) :
    ∃ t, exec i s = .next t ∧ exec i { s with turns := ts, got := g } = .next { t with turns := ts, got := g } := by
  refine ⟨_, exec_eq i s, ?_⟩
  have h := bodyOf_outside s.doneIE s.errIE s.done s.err s.ovr ts g i s
  obtain ⟨-, h1, h2, h3, h4, h5, -⟩ := bodyOf_frame i s
  have e : ({ s with turns := ts, got := g } : State) = s.outside s.doneIE s.errIE s.done s.err s.ovr ts g := rfl
  rw [e, exec_eq, h]
  generalize bodyOf i s = r at *
  obtain ⟨st, er⟩ := r
  cases er <;> simp only [] at h1 h2 h3 h4 h5 <;> simp [Ran.complete, Ran.outside, State.outside, ← h1, ← h2, ← h3, ← h4, ← h5]

/-- The outcome a completion records: no cause, ERRINFO 0 and ERR as before, or a cause and ERR set (R89). -/
theorem complete_outcome (i : Instr) (s : State) :
    (((bodyOf i s).complete (encode i)).errCause = .noError ∧ ((bodyOf i s).complete (encode i)).errInfo = 0#32 ∧
      ((bodyOf i s).complete (encode i)).err = s.err) ∨
    (((bodyOf i s).complete (encode i)).errCause ≠ .noError ∧ ((bodyOf i s).complete (encode i)).err = true) := by
  cases h : (bodyOf i s).error with
  | none => left; simp only [Ran.complete, h]; exact ⟨trivial, trivial, (bodyOf_frame i s).2.2.2.2.1⟩
  | some e => right; simp only [Ran.complete, h]; exact ⟨bodyOf_error i s h, trivial⟩

end Sys2Proof.Machine
end

