-- ==== Sys2Proof/Laws/PerInstr.lean ====
section
/-!
SUPPORT. What holds of every instruction as syntax, one lemma per constructor.
-/

namespace Sys2Proof.Laws.Legal

/-- The legal command words are those with RSV = 0 and OP from 1 to 5, and each legal command has its own
(spec/30_encoding.md R53); every other word belongs to an illegal command (R54). -/
def Statement (i : Instr) : Prop :=
  i.wellFormed = true →
    ((rsvField (encode i) = 0#28 ∧ 1 ≤ (opField (encode i)).toNat ∧ (opField (encode i)).toNat ≤ 5) ↔
      ∀ w, i ≠ .illegal w)

theorem clrfreq : Statement .clrfreq := fun _ => ⟨fun _ _ => by simp, fun _ => by decide⟩

theorem count : Statement .count := fun _ => ⟨fun _ _ => by simp, fun _ => by decide⟩

theorem build : Statement .build := fun _ => ⟨fun _ _ => by simp, fun _ => by decide⟩

theorem encode : Statement .encode := fun _ => ⟨fun _ _ => by simp, fun _ => by decide⟩

theorem decode : Statement .decode := fun _ => ⟨fun _ _ => by simp, fun _ => by decide⟩

theorem illegal (w : Word) : Statement (.illegal w) := by
  intro h
  constructor
  · rintro ⟨h0, h1, h5⟩
    exfalso
    have hw : w.toNat = 16 * (rsvField w).toNat + (opField w).toNat := by
      have := w.isLt
      simp only [rsvField, opField, BitVec.extractLsb'_toNat, Nat.shiftRight_eq_div_pow]
      omega
    have h0' : (rsvField w).toNat = 0 := by
      have : rsvField w = 0#28 := h0
      rw [this]; rfl
    have h1' : 1 ≤ (opField w).toNat := h1
    have h5' : (opField w).toNat ≤ 5 := h5
    simp only [Instr.wellFormed, legalWord, Bool.not_eq_true', Bool.and_eq_false_iff, decide_eq_false_iff_not] at h
    omega
  · intro hn
    exact absurd rfl (hn w)

end Sys2Proof.Laws.Legal
end

