-- ==== Sys2Proof/Tests/Slice0.lean ====
section
/-!
SUPPORT. The model's own tests. Expected values are those of spec/95_test_vectors.md (V1 to V16) or hand
calculation from the rule named. The `witness_` theorems show, for each statement with hypotheses, that concrete
states and operands meet them.
-/

namespace Sys2Proof.Tests

open Sys2Proof Sys2Proof.Machine

/-! Helpers. -/

/-- A frequency table: the listed entries, 0 elsewhere (the notation FREQ of V9 to V14). -/
def freqOf (l : List (Byte × Word)) : Table Word := l.foldl (fun f p => f.put p.1 p.2) (Vector.replicate 256 0#32)

/-- Bytes at `a`, `a + 1`, and so on, as BUF cells. -/
def bytesFrom : Nat → List Byte → Memory
  | _, [] => []
  | a, v :: vs => (a, v) :: bytesFrom (a + 1) vs

/-- The reset state with a FREQ table, BUF cells and operands. -/
def start (f : Table Word) (m : Memory) (src len dst : Word) : State :=
  { State.reset with freq := f, buf := m, src := src, len := len, dst := dst }

/-- The same with TREE and CODE built from that FREQ. -/
def built (f : Table Word) (m : Memory) (src len dst : Word) : State := (start f m src len dst).setTree (buildTree f)

/-- The reset state with a tree written out from V1 or V11, and its codes. -/
def withTree (t : CodeTree) (m : Memory) (src len dst : Word) : State :=
  (start (Vector.replicate 256 0#32) m src len dst).setTree ⟨some t, codes (some t)⟩

/-- The next state of an outcome. -/
def nextOf : Host.Outcome State Fault Refusal → Option State
  | .next t => some t
  | _ => none

/-- What ERRCODE, ERRINFO, RES_BITS, RES_BYTES and STATUS read. -/
def results (s : State) : List Word :=
  [hostRead s (off 0x020), hostRead s (off 0x024), hostRead s (off 0x028), hostRead s (off 0x02C), hostRead s (off 0x00C)]

/-- The tree S8 of V1. -/
def freqS8 : Table Word := freqOf [(97, 2), (98, 4), (99, 8), (100, 16), (102, 2)]
/-- The tree S8 as V1's merges give it. -/
def treeS8 : CodeTree :=
  .node 259 97 32 (.node 258 97 16 (.node 257 97 8 (.node 256 97 4 (.leaf 97 2) (.leaf 102 2)) (.leaf 98 4)) (.leaf 99 8))
    (.leaf 100 16)
/-- The tree AB of V13, as V11's merges give it. -/
def treeAB : CodeTree :=
  .node 258 97 8 (.leaf 97 4) (.node 257 98 4 (.leaf 98 2) (.node 256 99 2 (.leaf 99 1) (.leaf 100 1)))
/-- The tree ONE of V13. -/
def freqOne : Table Word := freqOf [(7, 4)]
/-- The tree T35 of V13. -/
def freqT35 : Table Word := freqOf [(3, 1), (5, 1)]
/-- The empty FREQ. -/
def freqNone : Table Word := freqOf []

/-! Well-formedness: the smoke test. A legal word under ILLEGAL is refused. -/

theorem test_wellFormed_refuses_legal_words :
    (Instr.illegal 1#32).wellFormed = false ∧ (Instr.illegal 2#32).wellFormed = false ∧
    (Instr.illegal 3#32).wellFormed = false ∧ (Instr.illegal 4#32).wellFormed = false ∧
    (Instr.illegal 5#32).wellFormed = false := by decide

theorem test_wellFormed_takes_the_others :
    (Instr.illegal 0#32).wellFormed = true ∧ (Instr.illegal 6#32).wellFormed = true ∧
    (Instr.illegal 0x80000001#32).wellFormed = true ∧ Instr.decode.wellFormed = true := by decide

/-! Decoding: words written out from R52 (OP in bits [3:0], RSV in bits [31:4]) and R53. -/

theorem test_decode_clrfreq : decode 0b0000_0000_0000_0000_0000_0000_0000_0001#32 = .clrfreq := by decide
theorem test_decode_count : decode 0b0000_0000_0000_0000_0000_0000_0000_0010#32 = .count := by decide
theorem test_decode_build : decode 0b0000_0000_0000_0000_0000_0000_0000_0011#32 = .build := by decide
theorem test_decode_encode : decode 0b0000_0000_0000_0000_0000_0000_0000_0100#32 = .encode := by decide
theorem test_decode_decode : decode 0b0000_0000_0000_0000_0000_0000_0000_0101#32 = .decode := by decide
theorem test_decode_reserved :
    decode 0b0000_0000_0000_0000_0000_0000_0000_0110#32 = .illegal 6#32 ∧
    decode 0b0000_0000_0000_0000_0000_0000_0001_0011#32 = .illegal 0x13#32 ∧
    decode 0b1000_0000_0000_0000_0000_0000_0000_0001#32 = .illegal 0x80000001#32 := by decide
theorem test_decodeTableWord :
    decodeTableWord 32 4 = some .encode ∧ decodeTableWord 8 5 = some .decode ∧ decodeTableWord 40 1 = none := by decide
theorem test_opcode_rows_are_disjoint :
    (List.range 6).map (fun n => decode (BitVec.ofNat 32 n)) =
      [.illegal 0#32, .clrfreq, .count, .build, .encode, .decode] := by decide

/-! One step per instruction. -/

/-- V9: CLRFREQ with a valid tree. -/
theorem test_clrfreq :
    (nextOf (step ((built (freqOf [(97, 2)]) [] 0 0 0).withFetchWord 32 1))).map
        (fun t => (t.freq.at 97, results t)) = some (0, [0x10, 0, 0, 0, 0x02]) := by decide +kernel

/-- V10, first row. -/
theorem test_count :
    (nextOf (step ((start freqNone (bytesFrom 0 [0x61, 0x62, 0x61, 0x0A]) 0 4 0).withFetchWord 32 2))).map
        (fun t => ([t.freq.at 0x0A, t.freq.at 0x61, t.freq.at 0x62, t.freq.at 0x63], results t)) =
      some ([1, 2, 1, 0], [0x20, 0, 0, 4, 0x02]) := by decide +kernel

/-- V10, the lowest symbol that overflows. -/
theorem test_count_overflow :
    (nextOf (exec .count (built (freqOf [(0x61, 0xFFFFFFFF), (0x62, 0xFFFFFFFF)]) (bytesFrom 0 [0x62, 0x61]) 0 2 0))).map
        (fun t => (t.freq.at 0x62, results t)) = some (0xFFFFFFFF, [0x28, 0x61, 0, 0, 0x36]) := by decide +kernel

/-- V1, P1: the tree of the document's example, read through the registers and regions. -/
theorem test_build :
    (nextOf (step ((start freqS8 [] 0 0 0).withFetchWord 32 3))).map
        (fun t => [0x00C, 0x020, 0x030, 0x034, 0x03C, 0x984, 0x994, 0x2CC0, 0x5004, 0x5030, 0x5034, 0x4660, 0x4650].map
          fun n => hostRead t (off n)) =
      some [0x32, 0x30, 0x103, 0x20, 5, 4, 0, 0x10000000, 0x00660061, 0x80000261, 0x00640102, 0x80000166, 0] := by
  decide +kernel

/-- V11: a tie between a leaf and an internal node of equal weight. -/
theorem test_build_ties :
    (nextOf (exec .build (start (freqOf [(5, 2), (10, 1), (20, 1)]) [] 0 0 0))).bind State.root =
      some (.node 257 5 4 (.leaf 5 2) (.node 256 10 2 (.leaf 10 1) (.leaf 20 1))) := by decide +kernel

/-- V13, T35: a stream of 9 bits, which crosses a byte. -/
theorem test_encode :
    (nextOf (step ((withTree (.node 256 3 2 (.leaf 3 1) (.leaf 5 1)) (bytesFrom 0 [5, 3, 5, 5, 3, 3, 5, 5, 5]) 0 9 16).withFetchWord 32 4))).map
        (fun t => (t.bytesAt 16 2, results t)) = some ([0xB3, 0x80], [0x40, 0, 9, 2, 0x32]) := by decide +kernel

/-- V13, S8: the symbol without a codeword is checked before the output range. -/
theorem test_encode_absent :
    (nextOf (exec .encode (withTree treeS8 (bytesFrom 0 [97, 101]) 0 2 0xFFFF))).map results =
      some [0x45, 0x65000001, 0, 0, 0x36] := by decide +kernel

/-- V14, AB: a stream cut after one byte. -/
theorem test_decode_truncated :
    (nextOf (step ((withTree treeAB (bytesFrom 0x100 [0x4C]) 0x100 1 0x200).withFetchWord 32 5))).map
        (fun t => (t.bytesAt 0x200 5, results t)) = some ([97, 98, 97, 99, 97], [0x56, 8, 8, 5, 0x36]) := by
  decide +kernel

/-- V14, ONE: a 0 where a single-leaf tree needs a 1. -/
theorem test_decode_badCode :
    (nextOf (exec .decode (withTree (.leaf 7 4) (bytesFrom 4 [0xE0]) 4 1 8))).map
        (fun t => (t.bytesAt 8 3, results t)) = some ([7, 7, 7], [0x57, 3, 3, 3, 0x36]) := by decide +kernel

/-- V15: an illegal word with BUILD's OP. -/
theorem test_illegal :
    (nextOf (step (State.reset.withFetchWord 32 0x13))).map (fun t => (t.cmd, t.tree, results t)) =
      some (0x13, none, [0x31, 0x13, 0, 0, 0x06]) := by decide +kernel

/-! The host's side. -/

/-- V8: ID, CONFIG and reserved offsets after reset; V12: Insert before and at an equal weight, and its rejection. -/
theorem test_reset_reads :
    ([0x000, 0x004, 0x00C, 0x03C, 0x040, 0x7FC, 0x5FF0].map fun n => hostRead State.reset (off n)) =
      [0x48554642, 0x00010000, 0, 0, 0, 0, 0] := by decide +kernel

theorem test_insert :
    insertNode (.leaf 97 4) [.leaf 97 2, .leaf 98 4] = (true, [.leaf 97 2, .leaf 97 4, .leaf 98 4]) ∧
    insertNode (.leaf 200 1) [.leaf 97 2, .leaf 98 4] = (true, [.leaf 200 1, .leaf 97 2, .leaf 98 4]) ∧
    insertNode (.leaf 98 4) [.leaf 97 2, .leaf 98 4] = (false, [.leaf 97 2, .leaf 98 4]) := by decide +kernel

/-- V9, first row: a FREQ write invalidates the tree and keeps DONE. -/
theorem test_freq_write :
    results (hostWrite { withTree (.leaf 97 1) [] 0 0 0 with done := true } (off 0x584) 2) = [0, 0, 0, 0, 0x02] ∧
    hostRead (hostWrite (withTree (.leaf 97 1) [] 0 0 0) (off 0x584) 2) (off 0x584) = 2 := by decide +kernel

/-- V15: writes to STATUS, and IRQ. -/
theorem test_status_write :
    hostRead (hostWrite { withTree (.leaf 7 4) [] 0 0 0 with done := true, err := true } (off 0x00C) 0x04) (off 0x00C) = 0x32 ∧
    hostRead (hostWrite { withTree (.leaf 7 4) [] 0 0 0 with done := true } (off 0x00C) 0xFFFFFFFF) (off 0x00C) = 0x30 ∧
    ({ State.reset with ovr := true, errIE := true } : State).irq = true ∧
    ({ State.reset with done := true, errIE := true } : State).irq = false := by decide +kernel

/-- V16, first row: CMD BUILD, then W 0x400, 5 before or after the completion. -/
theorem test_write_while_busy :
    (nextOf (step { hostWrite (start freqOne [] 0 0 0) (off 0x010) 3 with turns := [.write 0x400 5] })).map
        (fun t => (t.freq.at 0, t.ovr, t.pending)) = some (0, true, some 3) ∧
    (nextOf (step { withTree (.leaf 7 4) [] 0 0 0 with turns := [.write 0x400 5] })).map
        (fun t => (t.freq.at 0, t.ovr, t.tree)) = some (5, false, none) := by decide +kernel

/-- R40: a BUF word is little-endian, and the last word of BUF is reached. -/
theorem test_buf_word :
    (hostWrite State.reset (off 0x1FFFC) 0x64636261).bytesAt 0xFFFC 4 = [0x61, 0x62, 0x63, 0x64] ∧
    hostRead (hostWrite State.reset (off 0x10000) 0x63616261) (off 0x10002) = 0x63616261 := by decide +kernel

/-- R58: LOADBUF pads its last word with zeros. -/
theorem test_loadbuf :
    hostLoadBuf Config.default 0x10 [0x61, 0x62, 0x63, 0x64, 0x66] =
      [.write 0x10010 0x64636261, .write 0x10014 0x00000066] := by decide +kernel

/-! The trees NONE, ONE and T35 (V11), through the laws of the builder and not by evaluating it. -/

/-- The leaves' sequence is the ascending one of the present symbols. -/
theorem leafSeq_eq {f : Table Word} {seq : List CodeTree} (hs : Ascending seq)
    (hp : ((presentSymbols f).map fun x => CodeTree.leaf x ((f.at x).zeroExtend 40)).Perm seq) : leafSeq f symbols = seq :=
  ascending_unique (leafSeq_symbols f).ascending hs ((leafSeq_forest f symbols symbols_nodup).2.trans hp)

theorem at_none (x : Byte) : freqNone.at x = 0#32 := by simp [freqNone, freqOf]
theorem at_one (x : Byte) : freqOne.at x = if x = 7 then 4 else 0 := by simp [freqOne, freqOf, Table.at_put]
theorem at_T35 (x : Byte) : freqT35.at x = if x = 5 then 1 else if x = 3 then 1 else 0 := by
  simp [freqT35, freqOf, Table.at_put]

theorem present_none : presentSymbols freqNone = [] := by simp [presentSymbols, at_none]
theorem present_one : presentSymbols freqOne = [7] := by simp only [presentSymbols, at_one]; decide +kernel
theorem present_T35 : presentSymbols freqT35 = [3, 5] := by simp only [presentSymbols, at_T35]; decide +kernel

theorem leaves_none : leafSeq freqNone symbols = [] :=
  leafSeq_eq (by unfold Ascending; decide) (by rw [present_none]; exact .refl _)
theorem leaves_one : leafSeq freqOne symbols = [.leaf 7 4] :=
  leafSeq_eq (by unfold Ascending; decide) (by rw [present_one]; simp only [List.map, at_one]; exact .refl _)
theorem leaves_T35 : leafSeq freqT35 symbols = [.leaf 3 1, .leaf 5 1] :=
  leafSeq_eq (by unfold Ascending; decide) (by rw [present_T35]; simp only [List.map, at_T35]; exact .refl _)

theorem root_none : buildRoot freqNone = none := by rw [buildRoot, finalSeq, leaves_none]; rfl
theorem root_one : buildRoot freqOne = some (.leaf 7 4) := by rw [buildRoot, finalSeq, leaves_one]; rfl
theorem root_T35 : buildRoot freqT35 = some (.node 256 3 2 (.leaf 3 1) (.leaf 5 1)) := by
  rw [buildRoot, finalSeq, leaves_T35]; decide +kernel

theorem code_one (x : Byte) : (buildTree freqOne).code.at x = if x = 7 then [true] else [] := by
  rw [buildTree, root_one, codes_leaf_at]
theorem code_T35_3 : (buildTree freqT35).code.at 3 = [false] := by rw [buildTree, root_T35]; decide +kernel
theorem code_T35_5 : (buildTree freqT35).code.at 5 = [true] := by rw [buildTree, root_T35]; decide +kernel
theorem code_T35_101 : (buildTree freqT35).code.at 101 = [] := by rw [buildTree, root_T35]; decide +kernel
theorem total_one : (buildTree freqOne).total = 4 := by rw [Built.total, buildTree, root_one]; decide
theorem total_T35 : (buildTree freqT35).total = 2 := by rw [Built.total, buildTree, root_T35]; decide

/-! Witnesses: for each statement with hypotheses, states and operands that meet them, at the ends of each range. -/

/-- A pending command word and the turns to come. -/
def busyWith (w : Word) (ts : List Turn) : State := { State.reset with pending := some w, cmd := w, turns := ts }

/-- An idle state with the turns to come. -/
def idleWith (ts : List Turn) : State := { State.reset with turns := ts }

/-- A reset turn while BUSY; a host write that changes the last byte of BUF, and DECODE's completion that changes
byte 8. -/
theorem witness_ResetPutsEveryRegisterAtItsResetValue :
    (busyWith 3 [.reset, .engine]).turns = .reset :: [.engine] ∧
    (∃ s t : State, step s = .next t ∧ (∀ ts, s.turns ≠ .reset :: ts) ∧ t.readByte 0xFFFF ≠ s.readByte 0xFFFF ∧
      s.turns = [.write 0x1FFFC 0x01000000]) ∧
    ∃ s t : State, step s = .next t ∧ (∀ ts, s.turns ≠ .reset :: ts) ∧ t.readByte 8 ≠ s.readByte 8 ∧
      s.pending = some 5 :=
  ⟨rfl, ⟨{ start freqNone (bytesFrom 0xFFFF [0]) 0 0 0 with turns := [.write 0x1FFFC 0x01000000] }, _, rfl,
      by simp, by decide +kernel, rfl⟩,
    ⟨{ withTree (.leaf 7 1) (bytesFrom 4 [0x80, 0, 0, 0, 0]) 4 1 8 with pending := some 5 }, _, rfl,
      by simp [withTree, start, State.reset, State.setTree], by decide +kernel, rfl⟩⟩

theorem witness_AccessesAreWholeWordSteps :
    (idleWith [.write 0x1FFFF 1]).turns = .write (Config.default.base + (off 0x1FFFF).toNat) 1 :: [] ∧
    (idleWith [.read 0x00000]).turns = .read (Config.default.base + (off 0x00000).toNat) :: [] ∧
    (off 0x1FFFC).toNat / 4 = (off 0x1FFFF).toNat / 4 ∧ (off 0x010).toNat / 4 = (off 0x013).toNat / 4 := by decide

theorem witness_HostReadsChangeNoState :
    (idleWith [.read 0x1FFFF, .read 0x1FFFF]).turns = .read 0x1FFFF :: (([] : List Nat).map .read ++ .read 0x1FFFF :: []) ∧
    (idleWith [.read 0, .read 4, .read 9, .read 0, .engine]).turns =
      .read 0 :: ([4, 9].map .read ++ .read 0 :: [.engine]) ∧
    busOffset (idleWith []).config 0x1FFFF = some (off 0x1FFFF) ∧ busOffset (idleWith []).config 0x20000 = none := by
  decide

theorem witness_ReservedAndReadOnlyIgnoreWrites :
    (∀ n ∈ [0x00040, 0x003FF, 0x00C00, 0x01FFF, 0x05FF0, 0x0FFFF], reservedOffset (alignedOffset (off n))) ∧
    (∀ n ∈ [0x000, 0x03C, 0x00800, 0x00BFF, 0x02000, 0x03FFF, 0x04000, 0x05FEF],
      readOnlyOffset (alignedOffset (off n))) ∧
    (0x00000011#32).toNat / 16 ≠ 0 ∧ (0x80000001#32).toNat / 16 ≠ 0 := by
  unfold reservedOffset readOnlyOffset; decide

theorem witness_BufWindowWordsAreLittleEndian :
    State.reset.pending = none ∧ 4 * 0 < State.reset.config.bufBytes ∧ 4 * 16383 < State.reset.config.bufBytes := by
  decide

/-- BUF_BYTES = 4: word 1 is the first that does not exist, word 0x3FFF the last of the window. -/
theorem witness_BufWordsPastTheEndDoNotExist :
    (1 < 0x4000 ∧ ({ State.reset with config := ⟨0, 0⟩ } : State).config.bufBytes ≤ 4 * 1) ∧
    (0x3FFF < 0x4000 ∧ ({ State.reset with config := ⟨0, 0⟩ } : State).config.bufBytes ≤ 4 * 0x3FFF) := by decide

theorem witness_FreqWriteStoresAndInvalidates :
    State.reset.pending = none ∧ (busyWith 3 []).pending ≠ none := by decide

theorem witness_AccessesWhileBusy :
    (busyWith 3 []).pending ≠ none ∧
    (∀ n ∈ [0x010, 0x01C, 0x00400, 0x007FC, 0x10000, 0x1FFFC], refusedOffset Config.default (alignedOffset (off n))) ∧
    (∀ n ∈ [0x00C, 0x008, 0x020, 0x00800, 0x05FF0], ¬ refusedOffset Config.default (alignedOffset (off n))) ∧
    (∀ n ∈ [0x00400, 0x00BFC, 0x02000, 0x05FEC, 0x10000, 0x1FFFC], maskedOffset (alignedOffset (off n))) ∧
    (∀ n ∈ [0x000, 0x03C, 0x05FF0], ¬ maskedOffset (alignedOffset (off n)) ∧ alignedOffset (off n) ≠ 0x00C) ∧
    alignedOffset (off 0x00F) = 0x00C := by
  unfold refusedOffset maskedOffset; decide

theorem witness_HostCannotDisturbARunningCommand :
    (busyWith 3 []).pending = some 3 ∧ (writeStep (busyWith 3 []) 0x400 5).ovr = true ∧
    (readStep (busyWith 3 []) 0x000).got = [0x48554642] := by decide +kernel

theorem witness_NoReadWhileBusySeesATable : (busyWith 1 []).pending ≠ none := by decide

theorem witness_RegisterWritesStoreTheirFields : State.reset.pending = none := rfl

theorem witness_AcceptanceLatchesEveryWord : State.reset.pending = none ∧ (busyWith 0 []).pending ≠ none := by decide

/-- ERR is set by a completion, and cleared by a STATUS write and by reset. -/
theorem witness_ErrIsSticky :
    (∃ s t : State, step s = .next t ∧ s.err = false ∧ t.err = true) ∧
    (∃ s t : State, step s = .next t ∧ s.err = true ∧ t.err = false ∧ s.turns = [.write 0x00C 4]) ∧
    ∃ s t : State, step s = .next t ∧ s.err = true ∧ t.err = false ∧ s.turns = [.reset] :=
  ⟨⟨busyWith 0 [], _, rfl, rfl, rfl⟩,
    ⟨{ idleWith [.write 0x00C 4] with err := true }, _, rfl, rfl, by decide +kernel, rfl⟩,
    ⟨{ idleWith [.reset] with err := true }, _, rfl, rfl, rfl, rfl⟩⟩

/-- OVR is set by a refused write, and cleared by a STATUS write and by reset. -/
theorem witness_OvrIsSetByRefusedWritesAndSticky :
    ((busyWith 3 []).pending ≠ none ∧ refusedOffset (busyWith 3 []).config (alignedOffset (off 0x1FFFC))) ∧
    (∃ s t : State, step s = .next t ∧ s.ovr = false ∧ t.ovr = true) ∧
    (∃ s t : State, step s = .next t ∧ s.ovr = true ∧ t.ovr = false ∧ s.turns = [.write 0x00C 8]) ∧
    ∃ s t : State, step s = .next t ∧ s.ovr = true ∧ t.ovr = false ∧ s.turns = [.reset] :=
  ⟨⟨by decide, by unfold refusedOffset; decide⟩, ⟨busyWith 3 [.write 0x1FFFC 0], _, rfl, rfl, by decide +kernel⟩,
    ⟨{ idleWith [.write 0x00C 8] with ovr := true }, _, rfl, rfl, by decide +kernel, rfl⟩,
    ⟨{ idleWith [.reset] with ovr := true }, _, rfl, rfl, rfl, rfl⟩⟩

theorem witness_OnlyCompletionWritesResults :
    ∃ s t : State, step s = .next t ∧ (∀ ts, s.turns ≠ .reset :: ts) ∧ ¬ (s.pending ≠ none ∧ t.pending = none) :=
  ⟨idleWith [.write 0x014 1], _, rfl, by simp [idleWith], by decide +kernel⟩

/-- An invalid tree, an empty one, and trees with a leaf and with an internal node as root. -/
theorem witness_TreeRegistersReadTheRoot :
    State.reset.tree = none ∧ ((built freqNone [] 0 0 0).tree = some (buildTree freqNone) ∧ buildRoot freqNone = none) ∧
    ((built freqOne [] 0 0 0).tree = some (buildTree freqOne) ∧ buildRoot freqOne = some (.leaf 7 4)) ∧
    buildRoot freqT35 = some (.node 256 3 2 (.leaf 3 1) (.leaf 5 1)) :=
  ⟨rfl, ⟨rfl, root_none⟩, ⟨rfl, root_one⟩, root_T35⟩

/-- Codewords of 255 bits and of none. -/
theorem witness_CodeTableReadsAsLaidOut :
    (∃ (s : State) (b : Built), s.pending = none ∧ s.tree = some b ∧ (b.code.at 255).length = 255 ∧
      (b.code.at 0).length ≤ 255) ∧
    (busyWith 3 []).pending ≠ none ∧ State.reset.tree = none :=
  ⟨⟨State.reset.setTree ⟨none, emptyCode.put 255 (List.replicate 255 true)⟩, _, rfl, rfl, by decide +kernel,
    by decide +kernel⟩, by decide, rfl⟩

/-- Node 256, node 3 and the absent node 510 of T35. -/
theorem witness_NodeRegionReadsTheTree :
    (256 ≤ 510 ∧ (built freqT35 [] 0 0 0).pending = none ∧ (built freqT35 [] 0 0 0).tree = some (buildTree freqT35) ∧
      ∃ r t, buildRoot freqT35 = some r ∧ t ∈ r.nodes ∧ t.index.toNat = 256 ∧ ∃ u ∈ r.nodes, u.index.toNat = 3) ∧
    ((busyWith 3 []).pending ≠ none ∧ State.reset.tree = none ∧
      ∀ r, buildRoot freqT35 = some r → ∀ t ∈ r.nodes, t.index.toNat ≠ 510) := by
  have h := root_T35
  refine ⟨⟨by decide, rfl, rfl, _, .node 256 3 2 (.leaf 3 1) (.leaf 5 1), h, by decide, by decide, .leaf 3 1,
    by decide, by decide⟩, by decide, rfl, fun r hr => ?_⟩
  rw [h] at hr
  cases hr
  decide

theorem witness_InvalidTreeIsUnobservable :
    State.reset.tree = none ∧ 0x00800 ≤ alignedOffset (off 0x00BFF) ∧ alignedOffset (off 0x00BFF) < 0x00C00 ∧
    0x02000 ≤ alignedOffset (off 0x05FEF) ∧ alignedOffset (off 0x05FEF) < 0x05FF0 ∧
    0x030 ≤ alignedOffset (off 0x03F) ∧ alignedOffset (off 0x03F) < 0x040 := ⟨rfl, by decide⟩

theorem witness_CommandWordsDecodeAsTabled :
    (0#32).toNat = 0 ∧ 6 ≤ (6#32).toNat ∧ 6 ≤ (0x80000001#32).toNat ∧ 6 ≤ (0xFFFFFFFF#32).toNat := by simp

theorem witness_DecodeAndEncodeAgree :
    (Instr.illegal 0#32).wellFormed = true ∧ (Instr.illegal 0xFFFFFFFF#32).wellFormed = true ∧
    Instr.count.wellFormed = true := by decide

theorem witness_StepRunsTheDecodedCommand :
    ((busyWith 5 []).pending = some 5 ∧ decode 5 = .decode ∧ (busyWith 5 []).turns = []) ∧
    (busyWith 6 [.engine]).pending = some 6 ∧ decode 6 = .illegal 6 ∧ (busyWith 6 [.engine]).turns = .engine :: [] := by
  decide

/-- Final: nothing left, and a reset or an idle engine left; not final: a command pending, and an access left. A final
state's step with and without reset. -/
theorem witness_EveryRunEnds :
    State.reset.final ∧ (idleWith [.reset]).final ∧ (idleWith [.engine]).final ∧ ¬ (busyWith 3 []).final ∧
    ¬ (idleWith [.reset, .read 0]).final ∧
    (∃ t, step (idleWith [.reset]) = .next t) ∧ ∃ t, step (idleWith [.engine]) = .next t ∧ t = idleWith [] := by
  refine ⟨⟨by decide, rfl⟩, ⟨by decide, rfl⟩, ⟨by decide, rfl⟩, fun h => absurd h.2 (by decide),
    fun h => absurd (h.1 (.read 0) (by decide)) (by decide), ⟨_, rfl⟩, _, rfl, rfl⟩

/-- A completion without and with a cause. -/
theorem witness_CompletionRecordsTheOutcome :
    (∃ t, exec .clrfreq State.reset = .next t ∧ t.errCause = .noError) ∧
    ∃ t, exec (.illegal 0) State.reset = .next t ∧ t.errCause ≠ .noError :=
  ⟨⟨_, rfl, rfl⟩, ⟨_, rfl, by decide⟩⟩

theorem witness_CommandsWriteOnlyTheirOperands :
    ∀ i ∈ [Instr.clrfreq, .count, .build, .encode, .decode, .illegal 9], ∃ t, exec i State.reset = .next t := by
  intro i _
  cases i <;> exact ⟨_, rfl⟩

/-- RANGE at the end of BUF; the counts of 5 3 there, which overflow T35 raised by 2^32 - 2 or just fit. -/
theorem witness_CountAddsByteCounts :
    (start freqNone [] 0xFFFF 2 0).config.bufBytes < (start freqNone [] 0xFFFF 2 0).src.toNat + 2 ∧
    (∀ x, (start freqT35 (bytesFrom 0xFFFE [5, 3]) 0xFFFE 2 0).countOf x =
      (List.range 2).countP fun i => decide ((start freqT35 (bytesFrom 0xFFFE [5, 3]) 0xFFFE 2 0).readByte (0xFFFE + i) = x)) ∧
    (0xFFFE : Word).toNat + (2 : Word).toNat ≤ (start freqT35 [] 0xFFFE 2 0).config.bufBytes ∧
    (2 ^ 32 - 1 < (0xFFFFFFFF : Word).toNat + 1 ∧ ∀ y < (3 : Byte), 0 + [(5 : Byte), 3].count y ≤ 2 ^ 32 - 1) ∧
    ∀ x, (freqT35.at x).toNat + [(5 : Byte), 3].count x ≤ 2 ^ 32 - 1 := by
  refine ⟨by decide, by decide +kernel, by decide, ⟨by decide, by decide +kernel⟩, fun x => ?_⟩
  have h : ∀ x : Byte, (if x = 5 then (1 : Word) else if x = 3 then 1 else 0).toNat + [(5 : Byte), 3].count x ≤ 2 := by
    decide +kernel
  rw [at_T35]
  exact (h x).trans (by decide)

theorem count_5_3 (f : Table Word) (hf : ∀ x, (f.at x).toNat ≤ 1) (s : State) (hs : s.freq = f) (hi : s.input = [5, 3]) :
    s.overflowing = none := by
  rw [State.overflowing, List.find?_eq_none]
  intro x _
  have h1 := hf x
  have h2 : s.input.count x ≤ 2 := by rw [hi]; exact List.count_le_length
  simp only [State.countedFreq, State.countOf, hs, decide_eq_true_eq]
  omega

theorem witness_FreqTotalCountsTheBytes :
    (∃ t, exec .clrfreq (start freqT35 [] 0 0 0) = .next t) ∧
    ∃ t, exec .count (start freqNone (bytesFrom 0xFFFE [5, 3]) 0xFFFE 2 0) = .next t ∧ t.errCause = .noError := by
  refine ⟨⟨_, rfl⟩, _, rfl, ?_⟩
  have h := count_5_3 freqNone (by simp [at_none]) (start freqNone (bytesFrom 0xFFFE [5, 3]) 0xFFFE 2 0) rfl
    (by decide +kernel)
  rw [countBody, if_neg (by decide +kernel), h]
  rfl

/-- A step that changes FREQ, and one that makes a tree. -/
theorem witness_TreeFollowsFreq :
    (∃ t, step { built freqOne [] 0 0 0 with turns := [.write 0x400 5] } = .next t ∧ t.freq ≠ freqOne) ∧
    ∃ t, step { start freqOne [] 0 0 0 with pending := some 3 } = .next t ∧ t.tree ≠ none := by
  refine ⟨⟨_, rfl, fun h => ?_⟩, ⟨_, rfl, fun h =>
    absurd (show some (buildTree freqOne) = none from h) (by simp)⟩⟩
  have h0 := congrArg (fun f => Table.at f 0) h
  revert h0
  decide +kernel

theorem witness_IllegalWordsRaiseIllegalCmd :
    (0x00000010#32).toNat % 16 = 0 ∧ 6 ≤ (0x00000006#32).toNat % 16 ∧ 6 ≤ (0xF#32).toNat % 16 ∧
    (0x80000001#32).toNat / 16 ≠ 0 ∧ State.reset.pending = none := by decide

/-- V12: an equal key, and keys below, between and above. -/
theorem witness_InsertPlacesByKey :
    Ascending [.leaf 97 2, .leaf 98 4] ∧
    (∃ x ∈ [CodeTree.leaf 97 2, .leaf 98 4], x.weight = (CodeTree.leaf 98 4).weight ∧ x.sym = (CodeTree.leaf 98 4).sym) ∧
    ∀ n ∈ [CodeTree.leaf 200 1, .leaf 97 4, .leaf 0 9],
      ∀ x ∈ [CodeTree.leaf 97 2, .leaf 98 4], ¬ (x.weight = n.weight ∧ x.sym = n.sym) := by
  unfold Ascending; decide

theorem witness_InsertNeverRejectsInBuild :
    seqAfter freqT35 0 = .leaf 3 1 :: .leaf 5 1 :: [] ∧
    symbols = [] ++ 0 :: symbols.tail ∧ symbols = symbols ++ [] ∧ symbols.reverse.Perm symbols :=
  ⟨leaves_T35, by decide +kernel, by simp, List.reverse_perm _⟩

theorem witness_SequenceIsStrictlyAscending : symbols = [] ++ symbols ∧ symbols = symbols ++ [] := by simp

theorem witness_BuildMergesTheTwoLowest :
    presentSymbols freqNone = [] ∧ presentSymbols freqOne ≠ [] ∧ seqAfter freqT35 0 = .leaf 3 1 :: .leaf 5 1 :: [] :=
  ⟨present_none, by rw [present_one]; decide, leaves_T35⟩

theorem witness_SymIsTheLeastLeaf : ∃ r, buildRoot freqT35 = some r ∧ .leaf 5 1 ∈ r.nodes := ⟨_, root_T35, by decide⟩

theorem witness_NodeCountsAndIndices :
    (presentSymbols freqNone).length = 0 ∧ (presentSymbols freqOne).length = 1 ∧ (presentSymbols freqT35).length = 2 ∧
    seqAfter freqT35 0 = .leaf 3 1 :: .leaf 5 1 :: [] ∧
    (built freqT35 [] 0 0 0).tree = some (buildTree freqT35) := by
  rw [present_none, present_one, present_T35]; exact ⟨rfl, rfl, rfl, leaves_T35, rfl⟩

theorem witness_WeightsAreExactSums : ∃ r, buildRoot freqT35 = some r ∧ .leaf 3 1 ∈ r.nodes := ⟨_, root_T35, by decide⟩

theorem witness_DepthIsBelowTheLeafCount : ∃ r, buildRoot freqOne = some r ∧ r.depth = 0 := ⟨_, root_one, by decide⟩

theorem witness_BuildReadsOnlyFreq : (start freqS8 [] 0 0 0).freq = (built freqS8 [(0, 1)] 1 2 3).freq := rfl

theorem witness_CodesAreRootPaths :
    buildRoot freqNone = none ∧ buildRoot freqOne = some (.leaf 7 4) ∧
    buildRoot freqT35 = some (.node 256 3 2 (.leaf 3 1) (.leaf 5 1)) ∧
    (CodeTree.node 256 3 2 (.leaf 3 1) (.leaf 5 1)).follow [true] = some 5 ∧
    (4 : Byte) ∉ (CodeTree.node 256 3 2 (.leaf 3 1) (.leaf 5 1)).leaves :=
  ⟨root_none, root_one, root_T35, by decide, by decide⟩

/-- The codewords of T35 (V11). -/
theorem witness_CodesFormAPrefixCode :
    (3 : Byte) ≠ 5 ∧ (buildTree freqT35).code.at 3 ≠ [] ∧ (buildTree freqT35).code.at 5 ≠ [] := by
  rw [code_T35_3, code_T35_5]; decide

/-- Nine bits: bits 0 and 8 are data, bits 9 and 15 are padding. -/
theorem witness_PutBitsPacksMsbFirst :
    0 < (List.replicate 9 true).length ∧ 8 < (List.replicate 9 true).length ∧ (List.replicate 9 true).length ≤ 9 ∧
    15 < 8 * (((List.replicate 9 true).length + 7) / 8) := by decide

/-- The two bytes 5 3 under T35: coded, and their stream of two bits. -/
theorem coded_5_3 : allCoded (buildTree freqT35).code [5, 3] ∧ emit (buildTree freqT35).code [5, 3] = [true, false] := by
  have h3 := code_T35_3
  have h5 := code_T35_5
  refine ⟨?_, ?_⟩
  · intro x hx
    simp only [List.mem_cons, List.not_mem_nil, or_false] at hx
    rcases hx with rfl | rfl
    · rw [h5]; decide
    · rw [h3]; decide
  · show (buildTree freqT35).code.at 5 ++ ((buildTree freqT35).code.at 3 ++ []) = _
    rw [h3, h5]; rfl

/-- No tree; RANGE 0; the absent byte 101 after 3; then for 5 3 at 0: RANGE 1, OVERLAP, and success touching the input. -/
theorem witness_EncodePacksTheCodewords :
    State.reset.tree = none ∧
    (∃ (s : State) (b : Built), s.tree = some b ∧ s.config.bufBytes < s.src.toNat + s.len.toNat) ∧
    (∃ (s : State) (b : Built), s.tree = some b ∧ s.src.toNat + s.len.toNat ≤ s.config.bufBytes ∧ 1 < s.len.toNat ∧
      b.code.at (s.readByte (s.src.toNat + 1)) = [] ∧ ∀ j < 1, b.code.at (s.readByte (s.src.toNat + j)) ≠ []) ∧
    ∀ dst : Word, ∃ (s : State) (b : Built), s.tree = some b ∧ s.dst = dst ∧ s.src.toNat + s.len.toNat ≤ s.config.bufBytes ∧
      s.len.toNat = 2 ∧ s.src.toNat = 0 ∧ s.config.bufBytes = 65536 ∧
      (∀ i < s.len.toNat, b.code.at (s.readByte (s.src.toNat + i)) ≠ []) ∧
      [true, false] = ((List.range s.len.toNat).map fun i => b.code.at (s.readByte (s.src.toNat + i))).flatten ∧
      1 = ([true, false].length + 7) / 8 ∧
      (dst = 0xFFFF → s.dst.toNat + 1 ≤ s.config.bufBytes) ∧ (dst = 0x10000 → s.config.bufBytes < s.dst.toNat + 1) ∧
      (dst = 1 → 0 < s.len.toNat ∧ 0 < 1 ∧ s.src.toNat < s.dst.toNat + 1 ∧ s.dst.toNat < s.src.toNat + s.len.toNat) ∧
      (dst = 2 → ¬ (s.src.toNat < s.dst.toNat + 1 ∧ s.dst.toNat < s.src.toNat + s.len.toNat)) := by
  have h3 := code_T35_3
  have h5 := code_T35_5
  refine ⟨rfl, ⟨built freqT35 [] 0xFFFF 2 0, _, rfl, by decide⟩,
    ⟨built freqT35 (bytesFrom 0 [3, 101]) 0 2 16, _, rfl, by decide, by decide, code_T35_101, ?_⟩, fun dst =>
    ⟨built freqT35 (bytesFrom 0 [5, 3]) 0 2 dst, _, rfl, rfl,
      show (0 : Word).toNat + (2 : Word).toNat ≤ 65536 by decide, rfl, rfl, rfl, ?_, ?_, rfl, ?_, ?_, ?_, ?_⟩⟩
  · intro j hj
    interval_cases j
    exact fun e => absurd (h3.symm.trans e) (by decide)
  · intro i hi
    have hi' : i < 2 := hi
    interval_cases i
    · exact fun e => absurd (h5.symm.trans e) (by decide)
    · exact fun e => absurd (h3.symm.trans e) (by decide)
  · show [true, false] = [(buildTree freqT35).code.at 5, (buildTree freqT35).code.at 3].flatten
    rw [h3, h5]; rfl
  all_goals (intro h; subst h; decide)

theorem witness_StreamsParseUniquely :
    allCoded (buildTree freqT35).code [5, 3] ∧ allCoded (buildTree freqT35).code [] ∧
    emit (buildTree freqT35).code [] <+: emit (buildTree freqT35).code [5, 3] :=
  ⟨coded_5_3.1, by simp [allCoded], by simp [emit]⟩

theorem witness_EncodedSizeBounds :
    allCoded (buildTree freqT35).code [5, 3] ∧ ∀ x, (freqT35.at x).toNat = [(5 : Byte), 3].count x := by
  refine ⟨coded_5_3.1, fun x => ?_⟩
  rw [at_T35]
  revert x
  decide +kernel

/-- T35 (N = 2): RANGE 0, RANGE 1, OVERLAP, and the empty tree. -/
theorem witness_DecodeChecksInOrder :
    State.reset.tree = none ∧ (buildTree freqT35).total = 2 ∧
    Config.default.bufBytes < (0xFFFF : Word).toNat + (2 : Word).toNat ∧
    Config.default.bufBytes < (0xFFFF : Word).toNat + 2 ∧
    (1 < 0 + 2 ∧ 0 < 1 + 1) ∧ (buildTree freqNone).root = none :=
  ⟨rfl, total_T35, by decide, by decide, by decide, by rw [buildTree, root_none]⟩

/-- A state ready to decode by T35: one byte of stream at 0, two symbols to write at 0xFFFE, the end of BUF. -/
def decodable (b : Byte) : State := built freqT35 (bytesFrom 0 [b]) 0 1 0xFFFE

theorem decodable_ready (b : Byte) : (decodable b).decodeReady freqT35 := by
  refine ⟨rfl, show (0 : Word).toNat + (1 : Word).toNat ≤ 65536 by decide, ?_, ?_⟩
  · rw [total_T35]; show (0xFFFE : Word).toNat + 2 ≤ 65536; decide
  · rw [total_T35]
    show ¬ (0 < (1 : Word).toNat ∧ 0 < 2 ∧ (0 : Word).toNat < (0xFFFE : Word).toNat + 2 ∧
      (0xFFFE : Word).toNat < (0 : Word).toNat + (1 : Word).toNat)
    decide

/-- The stream 10 000000 begins with the codewords of 5 3. -/
theorem witness_DecodeReadsTheCodewords :
    (decodable 0x80).decodeReady freqT35 ∧ [(5 : Byte), 3].length = (buildTree freqT35).total ∧
    allCoded (buildTree freqT35).code [5, 3] ∧ [true, false] = emit (buildTree freqT35).code [5, 3] ∧
    [true, false].length ≤ 8 * (decodable 0x80).len.toNat ∧
    (decodable 0x80).streamHas (decodable 0x80).src.toNat 0 [true, false] := by
  refine ⟨decodable_ready _, total_T35.symm, coded_5_3.1, coded_5_3.2.symm, by decide, ?_⟩
  unfold State.streamHas
  decide +kernel

/-- The tree ONE with a stream of one byte: 1110 0000 stops at a 0, and with LEN = 0 the stream ends. -/
def oneStream (len : Word) : State := built freqOne (bytesFrom 4 [0x00]) 4 len 8

theorem witness_DecodeStopsWhereTheStreamDoes :
    ∀ len ∈ [(0 : Word), 1], (oneStream len).decodeReady freqOne ∧ ([] : List Byte).length < (buildTree freqOne).total ∧
      allCoded (buildTree freqOne).code [] ∧ [] = emit (buildTree freqOne).code [] ∧
      ([] : Codeword).length ≤ 8 * (oneStream len).len.toNat ∧
      (oneStream len).streamHas (oneStream len).src.toNat 0 [] ∧
      (∀ x, (buildTree freqOne).code.at x ≠ [] →
        ([] : Codeword).length + ((buildTree freqOne).code.at x).length ≤ 8 * (oneStream len).len.toNat →
        ¬ (oneStream len).streamHas (oneStream len).src.toNat ([] : Codeword).length ((buildTree freqOne).code.at x)) ∧
      ∃ x w, buildRoot freqOne = some (.leaf x w) := by
  have h := total_one
  have hb := root_one
  intro len hl
  simp only [List.mem_cons, List.not_mem_nil, or_false] at hl
  refine ⟨⟨rfl, ?_, ?_, ?_⟩, by rw [h]; decide, by simp [allCoded], rfl, by simp, by simp [State.streamHas], ?_, _, _, hb⟩
  · rcases hl with rfl | rfl <;> decide
  · rw [h]; rcases hl with rfl | rfl <;> decide
  · rw [h]; rcases hl with rfl | rfl <;> decide
  · intro x hx _ hs
    have hc : (buildTree freqOne).code.at x = [true] := by
      rw [code_one] at hx ⊢
      split at hx
      · rw [if_pos (by assumption)]
      · exact absurd rfl hx
    rw [hc] at hs
    have h0 := hs 0 (by decide)
    rcases hl with rfl | rfl <;> exact absurd h0 (by decide +kernel)

/-- The input 5 3 at 0, read in any state that holds it. -/
theorem input_5_3 {s : State} (hs : s.src = 0) (hl : s.len = 2) (hb : s.buf = bytesFrom 0 [5, 3]) : s.input = [5, 3] := by
  simp [State.input, State.bytesAt, State.readByte, hs, hl, hb, bytesFrom, Memory.get, List.range_succ]

/-- After CLRFREQ, COUNT of 5 3 leaves the table of T35. -/
theorem count_5_3_next {s : State} (hf : ∀ x, s.freq.at x = 0#32) (hs : s.src = 0) (hl : s.len = 2)
    (hc : s.config = Config.default) (hb : s.buf = bytesFrom 0 [5, 3]) :
    countBody s = .ok (((s.setResult 0 0).setFreq freqT35).invalidate.setResult 0 2) := by
  have hi := input_5_3 hs hl hb
  have ht : (Table.tabulate fun x => BitVec.ofNat 32 (s.countedFreq x)) = freqT35 := by
    refine Table.ext fun x => ?_
    rw [Table.at_tabulate, State.countedFreq, State.countOf, hf, at_T35, hi]
    revert x
    decide +kernel
  have hr : ¬ s.inputOut = true := by simp only [State.inputOut, hs, hl, hc]; decide
  rw [countBody, if_neg hr, count_5_3 s.freq (by simp [hf]) s rfl hi]
  simp only [ht, hl]
  rfl

/-- ENCODE of 5 3 with T35 gives one byte. -/
theorem encode_5_3_next {s : State} (ht : s.tree = some (buildTree freqT35)) (hs : s.src = 0) (hl : s.len = 2)
    (hd : s.dst = 16) (hc : s.config = Config.default) (hb : s.buf = bytesFrom 0 [5, 3]) :
    encodeBody s = .ok (((s.setResult 0 0).putBits 16 [true, false]).setResult 2 1) := by
  have hi := input_5_3 hs hl hb
  have hz := sizing_ok coded_5_3.1 0 0
  rw [coded_5_3.2] at hz
  have hr : ¬ s.inputOut = true := by simp only [State.inputOut, hs, hl, hc]; decide
  have ho : ¬ s.outputOut (ceilDiv8 2) = true := by simp only [State.outputOut, hd, hc]; decide
  have hv : ¬ s.overlaps (ceilDiv8 2) = true := by simp only [State.overlaps, hs, hl, hd]; decide
  simp only [encodeBody, ht, hi, coded_5_3.2, hd]
  rw [if_neg hr, show sizing (buildTree freqT35).code 0 0 [5, 3] = .ok 2 from hz]
  simp only [if_neg ho, if_neg hv]
  rfl

/-- The round trip of the input 5 3 at 0, its stream at 16 (one byte, given as two), the copy at 18. -/
theorem witness_RoundTripReproducesTheInput :
    ∃ s s1 s1' s2 s3 s4 s4' : State,
      exec .clrfreq s = .next s1 ∧ s1'.freq = s1.freq ∧ s1'.bytesAt s1'.src.toNat s1'.len.toNat = [5, 3] ∧
      exec .count s1' = .next s2 ∧ s2.errCause = .noError ∧ exec .build s2 = .next s3 ∧
      s3.bytesAt s3.src.toNat s3.len.toNat = [5, 3] ∧ exec .encode s3 = .next s4 ∧
      s4.errCause = .noError ∧ s4'.tree = s4.tree ∧
      s4'.bytesAt s4'.src.toNat s4.resBytes.toNat = s4.bytesAt s3.dst.toNat s4.resBytes.toNat ∧
      s4.resBytes.toNat ≤ s4'.len.toNat ∧ s4'.src.toNat + s4'.len.toNat ≤ s4'.config.bufBytes ∧
      s4'.dst.toNat + [(5 : Byte), 3].length ≤ s4'.config.bufBytes ∧ s4'.src.toNat + s4'.len.toNat ≤ s4'.dst.toNat := by
  let s : State := start freqNone (bytesFrom 0 [5, 3]) 0 0 0
  let s1 : State := (clrfreqBody s).complete (encode .clrfreq)
  let s1' : State := { s1 with src := 0, len := 2, dst := 16 }
  have h2 : countBody s1' = .ok (((s1'.setResult 0 0).setFreq freqT35).invalidate.setResult 0 2) :=
    count_5_3_next (fun x => Table.at_replicate _ _) rfl rfl rfl rfl
  let s2 : State := (Ran.ok (((s1'.setResult 0 0).setFreq freqT35).invalidate.setResult 0 2)).complete (encode .count)
  let s3 : State := (buildBody s2).complete (encode .build)
  have h4 : encodeBody s3 = .ok (((s3.setResult 0 0).putBits 16 [true, false]).setResult 2 1) :=
    encode_5_3_next rfl rfl rfl rfl rfl rfl
  let s4 : State := (Ran.ok (((s3.setResult 0 0).putBits 16 [true, false]).setResult 2 1)).complete (encode .encode)
  refine ⟨s, s1, s1', s2, s3, s4, { s4 with src := 16, len := 2, dst := 18 }, rfl, rfl,
    input_5_3 (s := s1') rfl rfl rfl, ?_, rfl, rfl, input_5_3 (s := s3) rfl rfl rfl, ?_, rfl, rfl, rfl, ?_,
    show (16 : Word).toNat + (2 : Word).toNat ≤ 65536 by decide, show (18 : Word).toNat + 2 ≤ 65536 by decide,
    show (16 : Word).toNat + (2 : Word).toNat ≤ (18 : Word).toNat by decide⟩
  · show Host.Outcome.next ((countBody s1').complete (encode .count)) = _
    rw [h2]
  · show Host.Outcome.next ((encodeBody s3).complete (encode .encode)) = _
    rw [h4]
  · show (BitVec.ofNat 32 1).toNat ≤ (2 : Word).toNat
    decide

/-- The last entry of FREQ. -/
theorem witness_SetFreqSetsOneEntry :
    (idleWith (hostSetFreq Config.default 255 7)).pending = none ∧
    (idleWith (hostSetFreq Config.default 255 7)).turns = hostSetFreq State.reset.config 255 7 := ⟨rfl, rfl⟩

/-- Five bytes whose last word is the last of BUF. -/
theorem witness_LoadBufLeavesItsBytes :
    (idleWith (hostLoadBuf Config.default 0xFFF8 [1, 2, 3, 4, 5])).pending = none ∧ 0xFFF8 % 4 = 0 ∧
    0xFFF8 + [(1 : Byte), 2, 3, 4, 5].length ≤ State.reset.config.bufBytes ∧
    (idleWith (hostLoadBuf Config.default 0xFFF8 [1, 2, 3, 4, 5])).turns =
      hostLoadBuf State.reset.config 0xFFF8 [1, 2, 3, 4, 5] := ⟨rfl, by decide, by decide, rfl⟩

theorem witness_RunRunsTheCommand :
    (idleWith (hostRun Config.default .count 0 4 0 2)).pending = none ∧ Instr.count.wellFormed = true ∧
    (idleWith (hostRun Config.default .count 0 4 0 2)).turns = hostRun State.reset.config .count 0 4 0 2 :=
  ⟨rfl, rfl, rfl⟩

/-- A state that meets the invariant, with a step of each kind. -/
theorem witness_EveryStepKeepsTheInvariant :
    ∀ ts ∈ [[], [Turn.reset], [.engine], [.read 0], [.write 0x010 3]], State.Inv (idleWith ts) ∧
      ∃ t, step (idleWith ts) = .next t := by
  intro ts h
  refine ⟨⟨rfl, ?_, ?_, ?_, fun _ => rfl⟩, ?_⟩
  · intro c hc; cases hc
  · intro b hb; cases hb
  · intro w hw; cases hw
  · simp only [List.mem_cons, List.not_mem_nil, or_false] at h
    rcases h with rfl | rfl | rfl | rfl | rfl <;> exact ⟨_, rfl⟩

end Sys2Proof.Tests
end

section
/-!
SUPPORT. Further laws of the registers, the host's writes, the bodies and the step, which the proofs below cite.
-/

namespace Sys2Proof.Machine

/-! Words and registers. -/

/-- A field below zeros has the field's value. -/
theorem toNat_zero_append {m n : Nat} (x : BitVec n) : (0#m ++ x).toNat = x.toNat := by
  rw [BitVec.toNat_append]; simp

/-- A word that is none of the five legal ones is illegal (R53, R54). -/
theorem decode_of_not_legal {w : Word} (h : w.toNat = 0 ∨ 6 ≤ w.toNat) : decode w = .illegal w := by
  have hne : ∀ n, 1 ≤ n → n ≤ 5 → w ≠ BitVec.ofNat 32 n := by
    rintro n h1 h5 rfl
    rw [BitVec.toNat_ofNat] at h
    omega
  unfold decode
  rw [if_neg (hne 1 (by decide) (by decide)), if_neg (hne 2 (by decide) (by decide)),
    if_neg (hne 3 (by decide) (by decide)), if_neg (hne 4 (by decide) (by decide)),
    if_neg (hne 5 (by decide) (by decide))]

/-! TREE_ROOT, TOTAL_LO, TOTAL_HI and NSYM (R27): 0 without a root, and fields of the root with one. -/

theorem State.root_of_tree {s : State} {b : Built} (h : s.tree = some b) : s.root = b.root := by rw [State.root, h]; rfl

theorem State.root_of_invalid {s : State} (h : s.tree = none) : s.root = none := by rw [State.root, h]; rfl

/-- A state with a root has a valid tree with that root. -/
theorem State.tree_of_root {s : State} {r : CodeTree} (h : s.root = some r) : ∃ c, s.tree = some ⟨some r, c⟩ := by
  obtain ⟨⟨root, c⟩, hb, hr⟩ := Option.bind_eq_some_iff.1 h
  exact ⟨c, by rw [hb]; congr 2⟩

/-- TREE_VALID is 1 exactly when TREE is VALID (R26). -/
theorem State.treeValid_iff (s : State) : s.treeValid = true ↔ s.tree ≠ none := Option.isSome_iff_ne_none

/-- TREE_NONEMPTY is 1 exactly when TREE is VALID and has a root (R26). -/
theorem State.treeNonempty_iff (s : State) : s.treeNonempty = true ↔ ∃ b r, s.tree = some b ∧ b.root = some r := by
  rw [State.treeNonempty, Option.isSome_iff_exists]
  constructor
  · rintro ⟨r, hr⟩
    obtain ⟨b, hb⟩ := Option.bind_eq_some_iff.1 hr
    exact ⟨b, r, hb⟩
  · rintro ⟨b, r, hb, hr⟩
    exact ⟨r, (State.root_of_tree hb).trans hr⟩

theorem State.busy_iff (s : State) : s.busy = true ↔ s.pending ≠ none := Option.isSome_iff_ne_none

/-- A state without a root has no valid tree, or an empty one (R26). -/
theorem State.tree_of_root_none {s : State} (h : s.root = none) : s.tree = none ∨ ∃ c, s.tree = some ⟨none, c⟩ := by
  cases ht : s.tree with
  | none => exact .inl rfl
  | some b =>
    obtain ⟨root, c⟩ := b
    obtain rfl : root = none := (State.root_of_tree ht).symm.trans h
    exact .inr ⟨c, rfl⟩

theorem treeWords_of_root_none {s : State} (h : s.root = none) :
    s.treeRootWord = 0#32 ∧ s.totalLoWord = 0#32 ∧ s.totalHiWord = 0#32 ∧ s.nsymWord = 0#32 := by
  rcases State.tree_of_root_none h with ht | ⟨c, ht⟩ <;>
    simp [State.treeRootWord, State.totalLoWord, State.totalHiWord, State.nsymWord, ht]

theorem treeWords_of_root_some {s : State} {r : CodeTree} (h : s.root = some r) :
    s.treeRootWord = 0#23 ++ r.index ∧ s.totalLoWord = r.weight.extractLsb' 0 32 ∧
      s.totalHiWord = 0#24 ++ r.weight.extractLsb' 32 8 ∧ s.nsymWord = 0#23 ++ BitVec.ofNat 9 r.numLeaves := by
  obtain ⟨c, hc⟩ := State.tree_of_root h
  simp [State.treeRootWord, State.totalLoWord, State.totalHiWord, State.nsymWord, hc]

/-- The reserved bits of TREE_ROOT, TOTAL_HI and NSYM are 0 (R27, R33). -/
theorem treeWords_lt (s : State) :
    s.treeRootWord.toNat < 2 ^ 9 ∧ s.totalHiWord.toNat < 2 ^ 8 ∧ s.nsymWord.toNat < 2 ^ 9 := by
  cases hr : s.root with
  | none =>
    obtain ⟨hroot, -, hhi, hnsym⟩ := treeWords_of_root_none hr
    rw [hroot, hhi, hnsym]
    decide
  | some r =>
    obtain ⟨hroot, -, hhi, hnsym⟩ := treeWords_of_root_some hr
    rw [hroot, hhi, hnsym, toNat_zero_append, toNat_zero_append, toNat_zero_append]
    exact ⟨BitVec.isLt _, BitVec.isLt _, BitVec.isLt _⟩

/-- A built tree has at most 256 leaves. -/
theorem buildRoot_leaves_le {f : Table Word} {r : CodeTree} (h : buildRoot f = some r) : r.leaves.length ≤ 256 := by
  rcases buildRoot_cases f with ⟨-, hn⟩ | ⟨r', hr', -, -, hperm, -⟩
  · rw [hn] at h; cases h
  · obtain rfl : r' = r := Option.some.inj (hr'.symm.trans h)
    exact hperm.length_eq.trans_le (length_presentSymbols_le f)

/-- BUF_BYTES as CONFIG reads it (R17). -/
theorem toNat_configWord (c : Config) : (BitVec.ofNat 32 c.bufBytes).toNat = c.bufBytes := by
  obtain ⟨-, -, hle⟩ := bufBytes_range c
  rw [BitVec.toNat_ofNat]
  omega

/-! The registers the statements read and write by their offsets (R15). -/

section
variable (s : State) (w : Word)

theorem hostRead_id : hostRead s (off 0x000) = 0x48554642#32 := hostRead_register s (k := 0) (by decide)
theorem hostRead_config : hostRead s (off 0x004) = BitVec.ofNat 32 s.config.bufBytes :=
  hostRead_register s (k := 1) (by decide)
theorem hostRead_ctrl : hostRead s (off 0x008) = s.ctrlWord := hostRead_register s (k := 2) (by decide)
theorem hostRead_status : hostRead s (off 0x00C) = s.statusWord := hostRead_register s (k := 3) (by decide)
theorem hostRead_cmd : hostRead s (off 0x010) = s.cmd := hostRead_register s (k := 4) (by decide)
theorem hostRead_errcode : hostRead s (off 0x020) = s.errCodeWord := hostRead_register s (k := 8) (by decide)
theorem hostRead_treeRoot : hostRead s (off 0x030) = s.treeRootWord := hostRead_register s (k := 12) (by decide)
theorem hostRead_totalLo : hostRead s (off 0x034) = s.totalLoWord := hostRead_register s (k := 13) (by decide)
theorem hostRead_totalHi : hostRead s (off 0x038) = s.totalHiWord := hostRead_register s (k := 14) (by decide)
theorem hostRead_nsym : hostRead s (off 0x03C) = s.nsymWord := hostRead_register s (k := 15) (by decide)

/-- CTRL takes a write BUSY or not (R43). -/
theorem hostWrite_ctrl : hostWrite s (off 0x008) w = s.writeCtrl w := by
  refine (hostWrite_register s (k := 2) (by decide) w).trans (if_neg ?_)
  simp [registers, Target.writeRefused]

/-- STATUS takes a write BUSY or not (R43). -/
theorem hostWrite_status : hostWrite s (off 0x00C) w = s.acknowledge w := by
  refine (hostWrite_register s (k := 3) (by decide) w).trans (if_neg ?_)
  simp [registers, Target.writeRefused]

end

/-! Writes that do nothing (R37). -/

/-- A write at a reserved or read-only offset reaches nothing that a write changes. -/
theorem writeTarget_of_inert (s : State) (w : Word) {a : Nat} (h : reservedOffset a ∨ readOnlyOffset a) :
    s.writeTarget w (targetAt s.config a) = s := by
  rcases h with h | h | h
  · rw [targetAt_reserved _ h]; rfl
  · simp only [List.mem_cons, List.not_mem_nil, or_false] at h
    rcases h with rfl | rfl | rfl | rfl | rfl | rfl | rfl | rfl | rfl | rfl <;> rfl
  · unfold targetAt
    rcases h with h | h | h
    · rw [if_neg (by omega), if_neg (by omega), if_neg (by omega), if_pos (by omega)]; rfl
    · rw [if_neg (by omega), if_neg (by omega), if_neg (by omega), if_neg (by omega), if_neg (by omega),
        if_pos (by omega)]; rfl
    · rw [if_neg (by omega), if_neg (by omega), if_neg (by omega), if_neg (by omega), if_neg (by omega),
        if_neg (by omega), if_pos (by omega)]; rfl

/-- No write at a reserved or read-only offset is refused: the offsets R43 lists are others. -/
theorem not_refused_of_inert (c : Config) {a : Nat} (h : reservedOffset a ∨ readOnlyOffset a) : ¬ refusedOffset c a := by
  unfold reservedOffset readOnlyOffset at h
  unfold refusedOffset
  simp only [List.mem_cons, List.not_mem_nil, or_false] at h ⊢
  omega

/-- A write to a reserved or read-only offset does nothing, BUSY or not, OVR included (R37). -/
theorem hostWrite_of_inert (s : State) (o : Offset) (w : Word)
    (h : reservedOffset (alignedOffset o) ∨ readOnlyOffset (alignedOffset o)) : hostWrite s o w = s := by
  rcases hostWrite_cases s o w with ⟨-, hr, -⟩ | ⟨-, he⟩
  · exact absurd hr (not_refused_of_inert _ h)
  · rw [he, writeTarget_of_inert s w h]

/-- The same for a register named by its own offset. -/
theorem hostWrite_readOnly_register (s : State) {n : Nat} (w : Word) (hn : n < 0x40) (h4 : n % 4 = 0)
    (h : readOnlyOffset n) : hostWrite s (off n) w = s := by
  refine hostWrite_of_inert s (off n) w (.inr ?_)
  rwa [alignedOffset_off (by omega) h4]

/-- A reserved offset reads 0 (R37). -/
theorem hostRead_of_reserved (s : State) {o : Offset} (h : reservedOffset (alignedOffset o)) : hostRead s o = 0#32 := by
  rw [hostRead_aligned, targetAt_reserved _ h]
  exact ite_self _

/-! Steps. -/

/-- What exec answers is the completion of its body (R89). -/
theorem eq_complete_of_exec {i : Instr} {s t : State} (h : exec i s = .next t) :
    t = (bodyOf i s).complete (encode i) := by
  rw [exec_eq] at h
  cases h
  rfl

/-- What a command leaves of FREQ and TREE: both as they were, TREE INVALID, or BUILD's tree of the same FREQ. -/
theorem bodyOf_freq_tree (i : Instr) (s : State) :
    ((bodyOf i s).state.freq = s.freq ∧ (bodyOf i s).state.tree = s.tree) ∨ (bodyOf i s).state.tree = none ∨
      (i = .build ∧ (bodyOf i s).state.freq = s.freq ∧ (bodyOf i s).state.tree = some (buildTree s.freq)) := by
  cases i with
  | clrfreq => exact .inr (.inl rfl)
  | count =>
    rcases countBody_cases s with h | ⟨x, h⟩ | ⟨-, -, h⟩ <;> simp only [bodyOf, h]
    · exact .inl ⟨rfl, rfl⟩
    · exact .inl ⟨rfl, rfl⟩
    · exact .inr (.inl rfl)
  | build => exact .inr (.inr ⟨rfl, rfl, rfl⟩)
  | encode =>
    rcases encodeBody_cases s with ⟨c, info, -, h⟩ | ⟨b, -, -, -, -, -, h⟩ <;> simp only [bodyOf, h]
    · exact .inl ⟨rfl, rfl⟩
    · rw [putBits_eq]; exact .inl ⟨rfl, rfl⟩
  | decode => simp only [bodyOf]; rw [(decodeBody_frame s).1]; exact .inl ⟨rfl, rfl⟩
  | illegal w => exact .inl ⟨rfl, rfl⟩

/-- What one step does to ERR: nothing, or a completion that raised sets it, reset clears it, or a host write of STATUS
clears it by bit 2 (R19, R94). -/
theorem step_err {s t : State} (h : step s = .next t) :
    t.err = s.err ∨ (s.pending ≠ none ∧ t.pending = none ∧ t.errCause ≠ .noError ∧ t.err = true) ∨
      ((∃ ts, s.turns = .reset :: ts) ∧ t.err = false) ∨
      ∃ addr w o ts, s.turns = .write addr w :: ts ∧ busOffset s.config addr = some o ∧ alignedOffset o = 0x00C ∧
        t.err = (s.err && !w.getLsbD 2) := by
  rcases step_cases h with ⟨ts, w, -, hp, he⟩ | ⟨ts, -, -, rfl⟩ | ⟨addr, ts, -, rfl⟩ | ⟨addr, w, ts, hts, rfl⟩ |
    ⟨ts, hts, rfl⟩
  · rw [eq_complete_of_exec he]
    rcases complete_outcome (decode w) (s.setTurns ts) with ⟨-, -, herr⟩ | ⟨hcause, herr⟩
    · exact .inl herr
    · exact .inr (.inl ⟨by simp [hp], Ran.complete_pending _ _, hcause, herr⟩)
  · exact .inl rfl
  · rw [readStep_eq]; exact .inl rfl
  · rcases writeStep_cases (s.setTurns ts) addr w with he | ⟨o, ho, ⟨-, -, he⟩ | ⟨-, he⟩⟩ <;> rw [he]
    · exact .inl rfl
    · exact .inl rfl
    · obtain ⟨-, herr, -⟩ := writeTarget_effects (s.setTurns ts) w (targetAt (s.setTurns ts).config (alignedOffset o))
      rcases herr with herr | ⟨hstatus, herr⟩
      · exact .inl herr
      · obtain ⟨-, h4⟩ := alignedOffset_lt o
        exact .inr (.inr (.inr ⟨addr, w, o, ts, hts, ho, targetAt_eq_status h4 hstatus, herr⟩))
  · exact .inr (.inr (.inl ⟨⟨ts, hts⟩, rfl⟩))

end Sys2Proof.Machine
end

section
/-!
SUPPORT. The invariant State.Inv, kept by each thing a step can do: a completion, a host access, reset.
-/

namespace Sys2Proof.Machine

/-! The invariant says nothing of the turns, OVR and the record of reads. -/

theorem State.Inv.setTurns {s : State} (h : s.Inv) (ts : List Turn) : (s.setTurns ts).Inv :=
  ⟨h.bufCanonical, h.bufInRange, h.treeOfFreq, h.pendingIsCmd, h.infoZero⟩

theorem State.Inv.overrun {s : State} (h : s.Inv) : s.overrun.Inv :=
  ⟨h.bufCanonical, h.bufInRange, h.treeOfFreq, h.pendingIsCmd, h.infoZero⟩

theorem State.Inv.readStep {s : State} (h : s.Inv) (addr : Nat) : (Machine.readStep s addr).Inv := by
  rw [readStep_eq]
  exact ⟨h.bufCanonical, h.bufInRange, h.treeOfFreq, h.pendingIsCmd, h.infoZero⟩

/-- The reset values meet the invariant, whatever the configuration. -/
theorem State.inv_resetBlock (s : State) : s.resetBlock.Inv where
  bufCanonical := Memory.wf_nil
  bufInRange := by intro c hc; cases hc
  treeOfFreq := by intro b hb; cases hb
  pendingIsCmd := by intro w hw; cases hw
  infoZero _ := rfl

/-- A valid tree stays the tree of FREQ under every command body (R104). -/
theorem bodyOf_treeOfFreq (i : Instr) {s : State} (h : ∀ b, s.tree = some b → b = buildTree s.freq) (b : Built)
    (hb : (bodyOf i s).state.tree = some b) : b = buildTree (bodyOf i s).state.freq := by
  rcases bodyOf_freq_tree i s with ⟨hf, ht⟩ | hn | ⟨-, hf, ht⟩
  · rw [hf]; exact h b (ht.symm.trans hb)
  · rw [hn] at hb; cases hb
  · rw [hf]; exact (Option.some.inj (ht.symm.trans hb)).symm

/-- Completion keeps the invariant (R89). -/
theorem State.Inv.complete {s : State} (h : s.Inv) (i : Instr) : ((bodyOf i s).complete (encode i)).Inv where
  bufCanonical := by
    rw [Ran.complete_buf]
    exact bodyOf_wf i s h.bufCanonical
  bufInRange := by
    obtain ⟨hconfig, -⟩ := bodyOf_frame i s
    rw [Ran.complete_buf, Ran.complete_config, hconfig]
    exact fun c hc => (bodyOf_range i s c hc).elim (h.bufInRange c) id
  treeOfFreq := by
    rw [Ran.complete_tree, Ran.complete_freq]
    exact bodyOf_treeOfFreq i h.treeOfFreq
  pendingIsCmd := by
    intro w hw
    rw [Ran.complete_pending] at hw
    cases hw
  infoZero := by
    intro hc
    rcases complete_outcome i s with ⟨-, hinfo, -⟩ | ⟨hcause, -⟩
    · exact hinfo
    · exact absurd hc hcause

/-- A run of byte writes inside BUF keeps the invariant. -/
theorem State.Inv.writeBytes {s : State} (h : s.Inv) {a : Nat} {vs : List Byte}
    (hr : a + vs.length ≤ s.config.bufBytes) : (s.writeBytes a vs).Inv := by
  have hwf := State.wf_writeBytes s a vs h.bufCanonical
  have hmem : ∀ c ∈ (s.writeBytes a vs).buf, c.1 < s.config.bufBytes := by
    intro c hc
    rcases State.mem_writeBytes s a vs hc with hc | hc
    · exact h.bufInRange c hc
    · omega
  rw [State.writeBytes_eq]
  exact ⟨hwf, hmem, h.treeOfFreq, h.pendingIsCmd, h.infoZero⟩

/-- A host write that is performed keeps the invariant; a BUF word has to lie in BUF. -/
theorem State.Inv.writeTarget {s : State} (h : s.Inv) (w : Word) {t : Target}
    (hbuf : ∀ a, t = .buf a → a + 4 ≤ s.config.bufBytes) : (s.writeTarget w t).Inv := by
  cases t with
  | cmd => exact ⟨h.bufCanonical, h.bufInRange, h.treeOfFreq, fun v hv => ⟨Option.some.inj hv, rfl⟩, h.infoZero⟩
  | status =>
    refine ⟨h.bufCanonical, h.bufInRange, h.treeOfFreq, fun v hv => ?_, h.infoZero⟩
    obtain ⟨hcmd, hdone⟩ := h.pendingIsCmd v hv
    exact ⟨hcmd, by simp [State.writeTarget, hdone]⟩
  | freq x =>
    refine ⟨h.bufCanonical, h.bufInRange, fun b hb => ?_, h.pendingIsCmd, h.infoZero⟩
    cases hb
  | buf a => exact h.writeBytes (hbuf a rfl)
  | ctrl | src | dst | len => exact ⟨h.bufCanonical, h.bufInRange, h.treeOfFreq, h.pendingIsCmd, h.infoZero⟩
  | _ => exact h

/-- A host write turn keeps the invariant. -/
theorem State.Inv.writeStep {s : State} (h : s.Inv) (addr : Nat) (w : Word) : (Machine.writeStep s addr w).Inv := by
  rcases writeStep_cases s addr w with he | ⟨o, -, ⟨-, -, he⟩ | ⟨-, he⟩⟩ <;> rw [he]
  · exact h
  · exact h.overrun
  · refine h.writeTarget w fun a ha => ?_
    obtain ⟨-, h4⟩ := alignedOffset_lt o
    obtain ⟨hoff, hlt⟩ := targetAt_eq_buf h4 ha
    obtain ⟨hmul, -, -⟩ := bufBytes_range s.config
    omega

/-- Settles O58: each thing a step can do keeps the invariant. -/
theorem everyStepKeepsTheInvariant : Obligations.EveryStepKeepsTheInvariant := by
  intro s t hs hstep
  rcases step_cases hstep with ⟨ts, w, -, -, he⟩ | ⟨ts, -, -, rfl⟩ | ⟨addr, ts, -, rfl⟩ | ⟨addr, w, ts, -, rfl⟩ |
    ⟨ts, -, rfl⟩
  · rw [eq_complete_of_exec he]
    exact (hs.setTurns ts).complete (decode w)
  · exact hs.setTurns ts
  · exact (hs.setTurns ts).readStep addr
  · exact (hs.setTurns ts).writeStep addr w
  · exact (s.setTurns ts).inv_resetBlock

end Sys2Proof.Machine
end

section
/-!
The statements on the registers and on the steps that change them.
-/

namespace Sys2Proof.Machine

/-- Settles O5: the writes by what their offset reaches, the reserved bits register by register. -/
theorem reservedAndReadOnlyIgnoreWrites : Obligations.ReservedAndReadOnlyIgnoreWrites := by
  intro s o w
  obtain ⟨-, -, hconfig⟩ := bufBytes_range s.config
  obtain ⟨-, -, hctrl⟩ := ctrlWord_bits s
  obtain ⟨-, -, -, -, -, -, hstatus⟩ := statusWord_bits s
  obtain ⟨hroot, hhi, hnsym⟩ := treeWords_lt s
  have herr : s.errCodeWord.toNat < 2 ^ 8 := by
    have hop := s.errOp.isLt
    have hcause := s.errCause.code.isLt
    rw [toNat_errCodeWord]
    omega
  rw [hostWrite_ctrl, hostWrite_ctrl, hostWrite_status, hostWrite_status, hostRead_config, toNat_configWord,
    hostRead_ctrl, hostRead_status, hostRead_errcode, hostRead_treeRoot, hostRead_totalHi, hostRead_nsym, hostRead_cmd]
  refine ⟨hostRead_of_reserved s, hostWrite_of_inert s o w, ?_, ?_, by omega, hctrl, hstatus, herr, hroot, hhi, hnsym,
    rfl, fun h => decode_of_not_legal (by omega)⟩
  · simp [State.writeCtrl]
  · simp [State.acknowledge]

/-- Settles O15: of the four things a step can do to ERR, the completion that raised sets it, the STATUS write and reset
clear it. -/
theorem errIsSticky : Obligations.ErrIsSticky := by
  intro s t hstep
  rcases step_err hstep with he | ⟨hp, hp', hcause, he⟩ | ⟨hreset, he⟩ | ⟨addr, w, o, ts, hts, ho, ha, he⟩ <;> rw [he]
  · exact ⟨fun h0 h1 => by simp [h0] at h1, fun h1 h0 => by simp [h1] at h0⟩
  · exact ⟨fun _ _ => ⟨hp, hp', hcause⟩, fun _ h => absurd h.symm Bool.false_ne_true⟩
  · exact ⟨fun _ h => absurd h Bool.false_ne_true, fun _ _ => .inl hreset⟩
  · exact ⟨fun h0 h1 => by simp [h0] at h1,
      fun h1 h0 => .inr ⟨addr, w, o, ts, hts, ho, ha, by rw [h1] at h0; simpa using h0⟩⟩

/-- Settles O17: a step that is neither a completion nor reset is an idle turn or a host access. -/
theorem onlyCompletionWritesResults : Obligations.OnlyCompletionWritesResults := by
  intro s t hstep hreset hcomplete
  rcases step_cases hstep with ⟨ts, w, -, hp, he⟩ | ⟨ts, -, -, rfl⟩ | ⟨addr, ts, -, rfl⟩ | ⟨addr, w, ts, -, rfl⟩ |
    ⟨ts, hts, -⟩
  · refine absurd ⟨by simp [hp], ?_⟩ hcomplete
    rw [eq_complete_of_exec he, Ran.complete_pending]
  · exact ⟨rfl, rfl, rfl, rfl, rfl⟩
  · rw [readStep_eq]; exact ⟨rfl, rfl, rfl, rfl, rfl⟩
  · rcases writeStep_cases (s.setTurns ts) addr w with he | ⟨o, -, ⟨-, -, he⟩ | ⟨-, he⟩⟩ <;> rw [he]
    · exact ⟨rfl, rfl, rfl, rfl, rfl⟩
    · exact ⟨rfl, rfl, rfl, rfl, rfl⟩
    · obtain ⟨-, -, -, -, hresults⟩ := writeTarget_frame (s.setTurns ts) w (targetAt (s.setTurns ts).config (alignedOffset o))
      exact hresults
  · exact absurd hts (hreset ts)

/-- Settles O19: the four words are fields of ROOT, which is `buildRoot` of the tree's table. -/
theorem treeRegistersReadTheRoot : Obligations.TreeRegistersReadTheRoot := by
  intro s f
  rw [hostRead_treeRoot, hostRead_totalLo, hostRead_totalHi, hostRead_nsym]
  constructor
  · intro h
    apply treeWords_of_root_none
    rcases h with h | ⟨h, hr⟩
    · exact State.root_of_invalid h
    · exact (State.root_of_tree h).trans hr
  · intro r h hr
    obtain ⟨hroot, hlo, hhi, hnsym⟩ := treeWords_of_root_some ((State.root_of_tree h).trans hr)
    have hle := buildRoot_leaves_le hr
    rw [hroot, hlo, hhi, hnsym]
    refine ⟨toNat_zero_append r.index, toNat_weight_words r.weight, ?_⟩
    rw [toNat_zero_append, BitVec.toNat_ofNat, CodeTree.numLeaves_eq]
    omega

/-- Settles O2: ID and CONFIG are read-only registers, and BUF_BYTES is in R6's range. -/
theorem idAndConfigAreHardwired : Obligations.IdAndConfigAreHardwired := by
  refine ⟨hostRead_config State.reset, fun s w => ?_⟩
  obtain ⟨hmul, hlo, hhi⟩ := bufBytes_range s.config
  refine ⟨hmul, hlo, hhi, hostRead_id s, ?_, hostWrite_readOnly_register s w (by decide) (by decide) ?_,
    hostWrite_readOnly_register s w (by decide) (by decide) ?_⟩
  · rw [hostRead_config, toNat_configWord]
  · exact .inl (by decide)
  · exact .inl (by decide)

/-- Settles O14: STATUS bit by bit, and what its views BUSY, TREE_VALID and TREE_NONEMPTY say. -/
theorem statusReadsItsFlags : Obligations.StatusReadsItsFlags := by
  intro s
  obtain ⟨hbusy, hdone, herr, hovr, hvalid, hnonempty, -⟩ := statusWord_bits s
  rw [hostRead_status, hbusy, hvalid, hnonempty]
  exact ⟨s.busy_iff, hdone, herr, hovr, s.treeValid_iff, s.treeNonempty_iff⟩

/-- Settles O18: the flags and enables of R32 are the bits of STATUS and CTRL. -/
theorem irqIsALevelOfStatusAndCtrl : Obligations.IrqIsALevelOfStatusAndCtrl := by
  refine ⟨fun s => ?_, rfl⟩
  obtain ⟨-, hdone, herr, hovr, -⟩ := statusWord_bits s
  obtain ⟨hdoneIE, herrIE, -⟩ := ctrlWord_bits s
  rw [hostRead_status, hostRead_ctrl, hdone, herr, hovr, hdoneIE, herrIE, State.irq]

end Sys2Proof.Machine
end

section
/-!
SUPPORT. Further laws of the window: accesses by offset and by region, what a read depends on, and what a host access
while BUSY can change.
-/

namespace Sys2Proof.Machine

/-! Offsets. Bits [1:0] of an offset do not count (R36). -/

@[simp] theorem off_toNat (o : Offset) : off o.toNat = o := by rw [off, BitVec.ofNat_toNat, BitVec.setWidth_eq]

theorem hostRead_congr_offset (s : State) {o o' : Offset} (h : alignedOffset o = alignedOffset o') :
    hostRead s o = hostRead s o' := by rw [hostRead_aligned, h, hostRead_aligned]

theorem hostWrite_congr_offset (s : State) (w : Word) {o o' : Offset} (h : alignedOffset o = alignedOffset o') :
    hostWrite s o w = hostWrite s o' w := by rw [hostWrite_aligned, h, hostWrite_aligned]

/-! The FREQ region and the BUF window (R40 to R43). -/

theorem hostRead_freq (s : State) (x : Byte) :
    hostRead s (off (0x00400 + 4 * x.toNat)) = if s.busy then 0#32 else s.freq.at x := by
  have hx := x.isLt
  rw [hostRead_aligned, alignedOffset_off (by omega) (by omega), targetAt_freq]
  simp [Target.readMasked, State.readTarget]

theorem hostWrite_freq (s : State) (x : Byte) (w : Word) :
    hostWrite s (off (0x00400 + 4 * x.toNat)) w = if s.busy then s.overrun else s.writeFreq x w := by
  have hx := x.isLt
  rw [hostWrite_aligned, alignedOffset_off (by omega) (by omega), targetAt_freq]
  simp [Target.writeRefused, State.writeTarget]

/-- The BUF-window word `k` is at its own aligned offset. -/
theorem alignedOffset_window {k : Nat} (hk : k < 0x4000) : alignedOffset (off (0x10000 + 4 * k)) = 0x10000 + 4 * k :=
  alignedOffset_off (by omega) (by omega)

/-- A word that starts inside BUF is in the window, which has room for 65536 bytes (R6, R41). -/
theorem lt_window_of_lt_bufBytes {c : Config} {k : Nat} (h : 4 * k < c.bufBytes) : k < 0x4000 := by
  obtain ⟨-, -, hle⟩ := bufBytes_range c
  omega

theorem hostRead_buf (s : State) {k : Nat} (h : 4 * k < s.config.bufBytes) :
    hostRead s (off (0x10000 + 4 * k)) = if s.busy then 0#32 else s.readBufWord (4 * k) := by
  rw [hostRead_aligned, alignedOffset_window (lt_window_of_lt_bufBytes h), targetAt_buf _ h]
  simp [Target.readMasked, State.readTarget]

theorem hostWrite_buf (s : State) {k : Nat} (w : Word) (h : 4 * k < s.config.bufBytes) :
    hostWrite s (off (0x10000 + 4 * k)) w = if s.busy then s.overrun else s.writeBufWord (4 * k) w := by
  rw [hostWrite_aligned, alignedOffset_window (lt_window_of_lt_bufBytes h), targetAt_buf _ h]
  simp [Target.writeRefused, State.writeTarget]

/-- The write of a BUF word changes BUF alone (R40). -/
theorem writeBufWord_eq (s : State) (a : Nat) (w : Word) :
    s.writeBufWord a w = { s with buf := (s.writeBufWord a w).buf } := State.writeBytes_eq _ _ _

/-! SRC, DST and LEN (R21). -/

theorem hostRead_src (s : State) : hostRead s (off 0x014) = s.src := hostRead_register s (k := 5) (by decide)
theorem hostRead_dst (s : State) : hostRead s (off 0x018) = s.dst := hostRead_register s (k := 6) (by decide)
theorem hostRead_len (s : State) : hostRead s (off 0x01C) = s.len := hostRead_register s (k := 7) (by decide)

/-- While BUSY is 0 every register's write is performed (R39). -/
theorem hostWrite_register_idle {s : State} (hp : s.pending = none) {k : Nat} (hk : k < 16) (w : Word) :
    hostWrite s (off (4 * k)) w = s.writeTarget w (registers.getD k .reserved) := by
  rw [hostWrite_register s hk, State.busy_of_none hp]
  rfl

/-- Acknowledging twice is acknowledging once (R39). -/
theorem State.acknowledge_acknowledge (s : State) (w : Word) : (s.acknowledge w).acknowledge w = s.acknowledge w := by
  simp [State.acknowledge]

/-! What a read depends on. -/

/-- No read sees the turns or the record of reads. -/
theorem readTarget_turns_got (s : State) (ts : List Turn) (g : List Word) (t : Target) :
    ({ s with turns := ts, got := g } : State).readTarget t = s.readTarget t := by cases t <;> rfl

theorem hostRead_turns_got (s : State) (ts : List Turn) (g : List Word) (o : Offset) :
    hostRead { s with turns := ts, got := g } o = hostRead s o := by
  rw [hostRead_aligned, hostRead_aligned, readTarget_turns_got]
  rfl

/-- Of the reads, only STATUS shows PENDING. -/
theorem readTarget_pending (s : State) (p : Option Word) {t : Target} (h : t ≠ .status) :
    ({ s with pending := p } : State).readTarget t = s.readTarget t := by
  cases t with
  | status => exact absurd rfl h
  | _ => rfl

/-- STATUS with BUSY 1 is STATUS with BUSY 0 and bit 0 set (R19). -/
theorem statusWord_of_busy {s : State} (h : s.busy = true) :
    s.statusWord = ({ s with pending := none } : State).statusWord ||| 1#32 := by
  have flags : ∀ f5 f4 f3 f2 f1 : Bool,
      (0#26 ++ BitVec.ofBool f5 ++ BitVec.ofBool f4 ++ BitVec.ofBool f3 ++ BitVec.ofBool f2 ++ BitVec.ofBool f1 ++
        BitVec.ofBool true : Word) =
      (0#26 ++ BitVec.ofBool f5 ++ BitVec.ofBool f4 ++ BitVec.ofBool f3 ++ BitVec.ofBool f2 ++ BitVec.ofBool f1 ++
        BitVec.ofBool false : Word) ||| 1#32 := by decide
  rw [State.statusWord, h]
  exact flags _ _ _ _ _

/-- TREE_ROOT, TOTAL_LO, TOTAL_HI and NSYM depend on the root alone (R27). -/
theorem treeWords_congr {s t : State} (h : t.root = s.root) :
    t.treeRootWord = s.treeRootWord ∧ t.totalLoWord = s.totalLoWord ∧ t.totalHiWord = s.totalHiWord ∧
      t.nsymWord = s.nsymWord := by
  cases hr : s.root with
  | none =>
    obtain ⟨hroot, hlo, hhi, hnsym⟩ := treeWords_of_root_none hr
    rw [hroot, hlo, hhi, hnsym]
    exact treeWords_of_root_none (h.trans hr)
  | some r =>
    obtain ⟨hroot, hlo, hhi, hnsym⟩ := treeWords_of_root_some hr
    rw [hroot, hlo, hhi, hnsym]
    exact treeWords_of_root_some (h.trans hr)

/-- `s` with other tables: FREQ, the code table of a valid tree, BUF's bytes and its draw. -/
def State.withTables (s : State) (f : Table Word) (c : Table Codeword) (m : Memory) (e : Nat) : State :=
  { s with freq := f, tree := s.tree.map fun b => { b with code := c }, buf := m, epoch := e }

section
variable (s : State) (f : Table Word) (c : Table Codeword) (m : Memory) (e : Nat)

theorem State.root_withTables : (s.withTables f c m e).root = s.root := by
  simp only [State.root, State.withTables]
  cases s.tree <;> rfl

theorem State.treeValid_withTables : (s.withTables f c m e).treeValid = s.treeValid := Option.isSome_map

theorem State.statusWord_withTables : (s.withTables f c m e).statusWord = s.statusWord := by
  simp only [State.statusWord, State.treeNonempty, State.root_withTables, State.treeValid_withTables]
  rfl

/-- The reads that R43 does not mask see none of the tables. -/
theorem readTarget_withTables {t : Target} (h : t.readMasked = false) :
    (s.withTables f c m e).readTarget t = s.readTarget t := by
  obtain ⟨hroot, hlo, hhi, hnsym⟩ := treeWords_congr (s.root_withTables f c m e)
  cases t with
  | status => exact s.statusWord_withTables f c m e
  | treeRoot => exact hroot
  | totalLo => exact hlo
  | totalHi => exact hhi
  | nsym => exact hnsym
  | freq | codeLen | codeBits | node | buf => cases h
  | _ => rfl

end

/-! Accesses while BUSY (R43). -/

theorem readMasked_of_not_masked (c : Config) {o : Offset} (h : ¬ maskedOffset (alignedOffset o)) :
    (targetAt c (alignedOffset o)).readMasked = false := by
  obtain ⟨-, h4⟩ := alignedOffset_lt o
  exact Bool.eq_false_iff.2 fun ht => h ((readMasked_iff c h4).1 ht).1

theorem writeRefused_of_not_refused {c : Config} {o : Offset} (h : ¬ refusedOffset c (alignedOffset o)) :
    (targetAt c (alignedOffset o)).writeRefused = false := by
  obtain ⟨-, h4⟩ := alignedOffset_lt o
  exact Bool.eq_false_iff.2 fun ht => h ((writeRefused_iff c h4).1 ht)

/-- A masked offset reads 0: its read is refused, or its word does not exist. -/
theorem hostRead_of_masked {s : State} (hb : s.busy = true) {o : Offset} (h : maskedOffset (alignedOffset o)) :
    hostRead s o = 0#32 := by
  obtain ⟨-, h4⟩ := alignedOffset_lt o
  rw [hostRead_aligned, hb, Bool.true_and]
  by_cases hr : targetAt s.config (alignedOffset o) = .reserved
  · rw [hr]; rfl
  · exact if_pos ((readMasked_iff s.config h4).2 ⟨h, hr⟩)

/-- An offset that is not masked reads its target, BUSY or not. -/
theorem hostRead_of_not_masked (s : State) {o : Offset} (h : ¬ maskedOffset (alignedOffset o)) :
    hostRead s o = s.readTarget (targetAt s.config (alignedOffset o)) := by
  rw [hostRead_aligned, readMasked_of_not_masked _ h, Bool.and_false]
  rfl

/-- A refused offset's write sets OVR alone (R90). -/
theorem hostWrite_of_refused {s : State} (hb : s.busy = true) {o : Offset} (w : Word)
    (h : refusedOffset s.config (alignedOffset o)) : hostWrite s o w = s.overrun := by
  rcases hostWrite_cases s o w with ⟨-, -, he⟩ | ⟨hn, -⟩
  · exact he
  · exact absurd ⟨hb, h⟩ hn

/-- An offset that is not refused is written, BUSY or not. -/
theorem hostWrite_of_not_refused (s : State) {o : Offset} (w : Word) (h : ¬ refusedOffset s.config (alignedOffset o)) :
    hostWrite s o w = s.writeTarget w (targetAt s.config (alignedOffset o)) := by
  rcases hostWrite_cases s o w with ⟨-, hr, -⟩ | ⟨-, he⟩
  · exact absurd hr h
  · exact he

/-- No write that is performed while BUSY sees PENDING or changes it. -/
theorem writeTarget_pending (s : State) (w : Word) (p : Option Word) {t : Target} (h : t.writeRefused = false) :
    s.writeTarget w t = { ({ s with pending := p } : State).writeTarget w t with pending := s.pending } := by
  cases t with
  | cmd | src | dst | len | freq | buf => cases h
  | _ => rfl

/-- A write that is performed while BUSY changes CTRL and the flags at most, which no command reads. -/
theorem writeTarget_outside (s : State) (w : Word) {t : Target} (h : t.writeRefused = false) :
    ∃ a b c d e, s.writeTarget w t = s.outside a b c d e s.turns s.got := by
  cases t with
  | ctrl => exact ⟨w.getLsbD 0, w.getLsbD 1, s.done, s.err, s.ovr, rfl⟩
  | status => exact ⟨s.doneIE, s.errIE, s.done && !w.getLsbD 1, s.err && !w.getLsbD 2, s.ovr && !w.getLsbD 3, rfl⟩
  | cmd | src | dst | len | freq | buf => cases h
  | _ => exact ⟨s.doneIE, s.errIE, s.done, s.err, s.ovr, rfl⟩

/-- A write turn while BUSY changes CTRL and the flags at most. -/
theorem writeStep_outside {s : State} (hb : s.busy = true) (addr : Nat) (w : Word) :
    ∃ a b c d e, writeStep s addr w = s.outside a b c d e s.turns s.got := by
  rcases writeStep_cases s addr w with he | ⟨o, -, ⟨-, -, he⟩ | ⟨hn, he⟩⟩ <;> rw [he]
  · exact ⟨s.doneIE, s.errIE, s.done, s.err, s.ovr, rfl⟩
  · exact ⟨s.doneIE, s.errIE, s.done, s.err, true, rfl⟩
  · exact writeTarget_outside s w (writeRefused_of_not_refused fun hr => hn ⟨hb, hr⟩)

/-- The completion of a command sets DONE whatever the flags were, and ERR if it raised (R89). -/
theorem Ran.complete_outside (r : Ran) (w : Word) (a b c d e : Bool) (ts : List Turn) (g : List Word) :
    (r.outside a b c d e ts g).complete w = (r.complete w).outside a b true (d || r.error.isSome) e ts g := by
  obtain ⟨t, err⟩ := r
  cases err with
  | none => simp [Ran.complete, Ran.outside, State.outside]
  | some x => simp [Ran.complete, Ran.outside, State.outside]

/-- exec on two states that differ in CTRL, the flags, the turns and the record of reads gives two that do, both with
DONE 1. -/
theorem exec_outside (i : Instr) (s : State) (a b c d e : Bool) (ts : List Turn) (g : List Word) :
    ∃ u d', exec i s = .next u ∧ u.done = true ∧
      exec i (s.outside a b c d e ts g) = .next (u.outside a b true d' e ts g) := by
  refine ⟨_, d || (bodyOf i s).error.isSome, exec_eq i s, Ran.complete_done _ _, ?_⟩
  rw [exec_eq, bodyOf_outside, Ran.complete_outside]

/-! Turns. -/

/-- A read turn in the window is one step, which hands the word to the host (R36, R38). -/
theorem step_read_offset {s : State} {addr : Nat} {o : Offset} {ts : List Turn} (h : s.turns = .read addr :: ts)
    (ho : busOffset s.config addr = some o) :
    step s = .next { s with turns := ts, got := hostRead s o :: s.got } := by
  have hr : hostRead (s.setTurns ts) o = hostRead s o := hostRead_turns_got s ts s.got o
  rw [busOffset_eq_some.1 ho] at h
  rw [step_read h o.isLt, off_toNat, hr]
  rfl

/-- A read turn at any address adds at most one word to the host's record (R38). -/
theorem step_read_any {s : State} {addr : Nat} {ts : List Turn} (h : s.turns = .read addr :: ts) :
    ∃ g, step s = .next { s with turns := ts, got := g ++ s.got } := by
  cases ho : busOffset s.config addr with
  | some o => exact ⟨[hostRead s o], step_read_offset h ho⟩
  | none =>
    refine ⟨[], ?_⟩
    simp [step, h, takeTurn, readStep, ho, State.setTurns]

/-- Any number of read turns add words to the host's record and change nothing else. -/
theorem run_reads (addrs : List Nat) (k : Nat) {s : State} {ts : List Turn} (h : s.turns = addrs.map .read ++ ts) :
    ∃ g, Sys2Proof.core.run (addrs.length + k) s =
      Sys2Proof.core.run k { s with turns := ts, got := g ++ s.got } := by
  induction addrs generalizing s with
  | nil =>
    obtain rfl : ts = s.turns := h.symm
    exact ⟨[], by rw [List.length_nil, Nat.zero_add]; rfl⟩
  | cons addr addrs ih =>
    obtain ⟨g, hg⟩ := step_read_any h
    obtain ⟨g', hg'⟩ := ih (s := { s with turns := addrs.map .read ++ ts, got := g ++ s.got }) rfl
    refine ⟨g' ++ g, ?_⟩
    rw [List.length_cons, Nat.add_right_comm, List.append_assoc]
    exact (core_run_succ hg _).trans hg'

/-- The engine's step with a command pending is exec of the decoded word (R89). -/
theorem engineStep_of_pending {s : State} {w : Word} (h : s.pending = some w) : engineStep s = exec (decode w) s := by
  rw [engineStep, State.fetch, h]

end Sys2Proof.Machine
end

section
/-!
The statements on the host's accesses, PutBits and the engine's turn.
-/

namespace Sys2Proof.Machine

/-- Settles O3: a bus address BASE + o reaches `o`, and an access sees its aligned offset only. -/
theorem accessesAreWholeWordSteps : Obligations.AccessesAreWholeWordSteps := by
  refine ⟨fun s o w ts h => ?_, fun s o ts h => step_read_offset h (busOffset_eq_some.2 rfl), fun s o o' w h => ?_⟩
  · rw [step_write h o.isLt, off_toNat]
  · have ha : alignedOffset o = alignedOffset o' := by rw [alignedOffset, h, alignedOffset]
    exact ⟨hostRead_congr_offset s ha, hostWrite_congr_offset s w ha⟩

/-- Settles O4: the two reads and the reads between them only add to the record, which no read sees. -/
theorem hostReadsChangeNoState : Obligations.HostReadsChangeNoState := by
  refine ⟨fun s addr ts h => ?_, fun s addr o others ts h ho => ?_⟩
  · obtain ⟨g, hg⟩ := step_read_any h
    exact ⟨g ++ s.got, hg⟩
  · have first := step_read_offset h ho
    obtain ⟨g, between⟩ := run_reads others 1 (ts := .read addr :: ts)
      (s := { s with turns := others.map .read ++ .read addr :: ts, got := hostRead s o :: s.got }) rfl
    have last := step_read_offset
      (s := { s with turns := .read addr :: ts, got := g ++ hostRead s o :: s.got }) rfl ho
    rw [hostRead_turns_got] at last
    exact ⟨g, (core_run_succ first _).trans (between.trans (core_run_succ last 0))⟩

/-- Settles O6: BUSY being 0, the access is that of the four bytes. -/
theorem bufWindowWordsAreLittleEndian : Obligations.BufWindowWordsAreLittleEndian := by
  intro s k w hp hk
  have hb := State.busy_of_none hp
  rw [hostRead_buf s hk, hostWrite_buf s w hk, hb]
  exact ⟨fun i hi => extract_readBufWord s (4 * k) hi, _, rfl, fun i hi => readByte_writeBufWord s (4 * k) w hi,
    fun j hj => readByte_writeBufWord_outside s (4 * k) w hj, writeBufWord_eq s (4 * k) w⟩

/-- Settles O7: a word past BUF_BYTES is a reserved target. -/
theorem bufWordsPastTheEndDoNotExist : Obligations.BufWordsPastTheEndDoNotExist := by
  intro s k w hk hpast
  rw [hostRead_aligned, hostWrite_aligned, alignedOffset_window hk, targetAt_past_buf _ hpast]
  exact ⟨ite_self _, if_neg (by simp [Target.writeRefused])⟩

/-- Settles O8: BUSY being 0 the access is that of the entry, otherwise it is masked or refused. -/
theorem freqWriteStoresAndInvalidates : Obligations.FreqWriteStoresAndInvalidates := by
  intro s x w
  rw [hostRead_freq, hostWrite_freq]
  refine ⟨fun hp => ?_, fun hp => ?_⟩
  · rw [State.busy_of_none hp]
    obtain ⟨-, -, -, -, hvalid, hnonempty, -⟩ := statusWord_bits (s.writeFreq x w)
    refine ⟨s.writeFreq x w, rfl, rfl, Table.at_put_self _ _ _, fun y hy => Table.at_put_ne _ _ hy, rfl, ?_, ?_⟩
    · rw [hostRead_status, hvalid]; rfl
    · rw [hostRead_status, hnonempty]; rfl
  · rw [State.busy_of_ne hp]
    exact ⟨rfl, rfl⟩

/-- Settles O9: refused and masked offsets by R43's lists; every other access acts on a target that does not see
PENDING, but for STATUS. -/
theorem accessesWhileBusy : Obligations.AccessesWhileBusy := by
  intro s o w hp
  have hb := State.busy_of_ne hp
  obtain ⟨-, h4⟩ := alignedOffset_lt o
  refine ⟨hostWrite_of_refused hb w, hostRead_of_masked hb, fun hr => ?_, fun hm hs => ?_, fun hs => ?_⟩
  · rw [hostWrite_of_not_refused s w hr, hostWrite_of_not_refused { s with pending := none } w hr]
    exact writeTarget_pending s w none (writeRefused_of_not_refused hr)
  · rw [hostRead_of_not_masked s hm, hostRead_of_not_masked { s with pending := none } hm]
    exact (readTarget_pending s none fun ht => hs (targetAt_eq_status h4 ht)).symm
  · have ha : alignedOffset o = alignedOffset (off 0x00C) := hs
    rw [hostRead_congr_offset s ha, hostRead_congr_offset _ ha, hostRead_status, hostRead_status]
    exact statusWord_of_busy hb

/-- Settles O10: while BUSY a host access changes CTRL, the flags and the record of reads at most, which no command
reads. -/
theorem hostCannotDisturbARunningCommand : Obligations.HostCannotDisturbARunningCommand := by
  intro s t w addr v hp ht
  obtain ⟨a, b, c, d, e, g, rfl⟩ : ∃ a b c d e g, t = s.outside a b c d e s.turns g := by
    rcases ht with rfl | rfl
    · obtain ⟨a, b, c, d, e, he⟩ := writeStep_outside (State.busy_of_some hp) addr v
      exact ⟨a, b, c, d, e, s.got, he⟩
    · exact ⟨s.doneIE, s.errIE, s.done, s.err, s.ovr, _, readStep_eq s addr⟩
  obtain ⟨u, d', hu, hdone, hu'⟩ := exec_outside (decode w) s a b c d e s.turns g
  exact ⟨u, _, hu, hu', rfl, rfl, rfl, rfl, rfl, rfl, rfl, rfl, rfl, hdone.symm, rfl, rfl, rfl, rfl, rfl⟩

/-- Settles O11: the reads that see a table are masked while BUSY. -/
theorem noReadWhileBusySeesATable : Obligations.NoReadWhileBusySeesATable := by
  intro s f c m e o hp
  show hostRead (s.withTables f c m e) o = hostRead s o
  have hb := State.busy_of_ne hp
  have hb' : (s.withTables f c m e).busy = true := hb
  by_cases hm : maskedOffset (alignedOffset o)
  · rw [hostRead_of_masked hb hm, hostRead_of_masked hb' hm]
  · rw [hostRead_of_not_masked s hm, hostRead_of_not_masked _ hm]
    exact readTarget_withTables s f c m e (readMasked_of_not_masked _ hm)

/-- Settles O46: BitAt reads what PutBits wrote up to the end of the last byte, where the string is over or not. -/
theorem putBitsPacksMsbFirst : Obligations.PutBitsPacksMsbFirst := by
  refine ⟨fun _ _ _ => rfl, ?_⟩
  rintro s _ base c rfl
  have written : ∀ j < 8 * ceilDiv8 c.length, (s.putBits base c).bitAt base j = c.getD j false :=
    fun j hj => bitAt_putBits s base c hj
  refine ⟨fun j hj => ?_, fun j hlen hj => ?_, fun a ha => readByte_putBits_outside s base c ha,
    putBits_eq s base c⟩
  · have h := written j (by rw [ceilDiv8]; omega)
    exact ⟨h, h⟩
  · have h := written j hj
    rw [List.getD_eq_default _ _ hlen] at h
    exact ⟨h, h⟩

/-- Settles O12: the registers' reads in every state, and their writes while BUSY is 0. -/
theorem registerWritesStoreTheirFields : Obligations.RegisterWritesStoreTheirFields := by
  refine ⟨fun s => ?_, fun s w hp => ?_⟩
  · obtain ⟨hdoneIE, herrIE, -⟩ := ctrlWord_bits s
    rw [hostRead_ctrl]
    exact ⟨hdoneIE, herrIE, hostRead_src s, hostRead_dst s, hostRead_len s⟩
  · refine ⟨hostWrite_ctrl s w, hostWrite_status s w, hostWrite_register_idle hp (k := 5) (by decide) w,
      hostWrite_register_idle hp (k := 6) (by decide) w, hostWrite_register_idle hp (k := 7) (by decide) w, ?_⟩
    rw [hostWrite_status, hostWrite_status, State.acknowledge_acknowledge]

/-- Settles O25: the engine's step runs the pending word, which the turns do not change. -/
theorem stepRunsTheDecodedCommand : Obligations.StepRunsTheDecodedCommand := by
  rintro s w _ hp rfl
  refine ⟨fun h => ?_, fun ts h => ?_⟩
  · rw [step, h]
    exact engineStep_of_pending hp
  · rw [step, h]
    exact engineStep_of_pending (s := s.setTurns ts) hp

end Sys2Proof.Machine
end

section
/-!
SUPPORT. Command words and their decoding, what each command leaves of FREQ, TREE and BUF, and the turns of host
programs.
-/

namespace Sys2Proof.Machine

/-! Command words (R52 to R54). -/

/-- A word is one of the five legal ones, or none of them (R53). -/
theorem word_cases (w : Word) :
    (w = 1#32 ∨ w = 2#32 ∨ w = 3#32 ∨ w = 4#32 ∨ w = 5#32) ∨ (w.toNat = 0 ∨ 6 ≤ w.toNat) := by
  simp only [← BitVec.toNat_inj, BitVec.toNat_ofNat]
  omega

/-- The words that are not legal, as numbers (R53). -/
theorem legalWord_eq_false_iff (w : Word) : legalWord w = false ↔ w.toNat = 0 ∨ 6 ≤ w.toNat := by
  simp only [legalWord, Bool.and_eq_false_iff, decide_eq_false_iff_not]
  omega

/-- Decoding undoes encoding. -/
theorem decode_encode {i : Instr} (h : i.wellFormed = true) : decode (encode i) = i := by
  cases i with
  | illegal w =>
    have hw : legalWord w = false := by simpa [Instr.wellFormed] using h
    exact decode_of_not_legal ((legalWord_eq_false_iff w).1 hw)
  | _ => rfl

/-- Encoding undoes decoding. -/
theorem encode_decode (w : Word) : encode (decode w) = w := by
  rcases word_cases w with (rfl | rfl | rfl | rfl | rfl) | h
  case inr => rw [decode_of_not_legal h, encode]
  all_goals rfl

/-- What the decoder answers is well formed. -/
theorem wellFormed_decode (w : Word) : (decode w).wellFormed = true := by
  rcases word_cases w with (rfl | rfl | rfl | rfl | rfl) | h
  case inr => rw [decode_of_not_legal h, Instr.wellFormed, (legalWord_eq_false_iff w).2 h, Bool.not_false]
  all_goals rfl

/-! The writes column of R56. -/

/-- ENCODE's changes: BUF at the bytes that RES_BYTES counts, and the result counts. -/
theorem encodeBody_frame (s : State) :
    (encodeBody s).state = { s with
      buf := (encodeBody s).state.buf, resBits := (encodeBody s).state.resBits,
      resBytes := (encodeBody s).state.resBytes } ∧
    sameBufOutside s (encodeBody s).state s.dst.toNat (encodeBody s).state.resBytes.toNat := by
  rcases encodeBody_cases s with ⟨c, info, -, h⟩ | ⟨b, -, -, -, hout, -, h⟩ <;> rw [h]
  · exact ⟨rfl, fun _ _ => rfl⟩
  · rw [State.outputOut, decide_eq_false_iff_not, Nat.not_lt] at hout
    obtain ⟨-, -, hle⟩ := bufBytes_range s.config
    refine ⟨by rw [Ran.ok_state, putBits_eq]; rfl, fun k hk => ?_⟩
    rw [Ran.ok_state, State.setResult_resBytes, BitVec.toNat_ofNat, Nat.mod_eq_of_lt (by omega)] at hk
    exact readByte_putBits_outside (s.setResult 0 0) s.dst.toNat (emit b.code s.input) hk

/-- Only CLRFREQ and COUNT write FREQ. -/
theorem bodyOf_freq {i : Instr} (s : State) (hclr : i ≠ .clrfreq) (hcount : i ≠ .count) :
    (bodyOf i s).state.freq = s.freq := by
  cases i with
  | clrfreq => exact absurd rfl hclr
  | count => exact absurd rfl hcount
  | encode => rw [bodyOf, (encodeBody_frame s).1]
  | decode => rw [bodyOf, (decodeBody_frame s).1]
  | build | illegal => rfl

/-- Only CLRFREQ, COUNT and BUILD write TREE and the code table. -/
theorem bodyOf_tree {i : Instr} (s : State) (hclr : i ≠ .clrfreq) (hcount : i ≠ .count) (hbuild : i ≠ .build) :
    (bodyOf i s).state.tree = s.tree := by
  cases i with
  | clrfreq => exact absurd rfl hclr
  | count => exact absurd rfl hcount
  | build => exact absurd rfl hbuild
  | encode => rw [bodyOf, (encodeBody_frame s).1]
  | decode => rw [bodyOf, (decodeBody_frame s).1]
  | illegal => rfl

/-- Only ENCODE and DECODE write BUF. -/
theorem bodyOf_readByte {i : Instr} (s : State) (henc : i ≠ .encode) (hdec : i ≠ .decode) (a : Nat) :
    (bodyOf i s).state.readByte a = s.readByte a := by
  cases i with
  | count => rcases countBody_cases s with h | ⟨x, h⟩ | ⟨-, -, h⟩ <;> rw [bodyOf, h] <;> rfl
  | encode => exact absurd rfl henc
  | decode => exact absurd rfl hdec
  | clrfreq | build | illegal => rfl

/-- ENCODE and DECODE write the RES_BYTES bytes at DST alone. -/
theorem bodyOf_sameBufOutside {i : Instr} (s : State) (h : i = .encode ∨ i = .decode) :
    sameBufOutside s (bodyOf i s).state s.dst.toNat (bodyOf i s).state.resBytes.toNat := by
  rcases h with rfl | rfl
  · exact (encodeBody_frame s).2
  · exact (decodeBody_frame s).2.1

/-! The turns of a host program (R57, R58). -/

theorem State.setTurns_self {s : State} {ts : List Turn} (h : s.turns = ts) : s.setTurns ts = s := by subst h; rfl

/-- A run that begins with `W n, w` continues from the state after that write. -/
theorem run_hostW {s : State} {n : Nat} {w : Word} {ts : List Turn} (h : s.turns = hostW s.config n w ++ ts)
    (hn : n < 0x20000) (k : Nat) :
    Sys2Proof.core.run (k + 1) s = Sys2Proof.core.run k (hostWrite (s.setTurns ts) (off n) w) :=
  core_run_succ (step_write h hn) k

/-- A run that begins with a write of a register of an idle block continues from what the write does to it. -/
theorem run_hostW_register {s : State} (hp : s.pending = none) {r : Nat} (hr : r < 16) {w : Word} {ts : List Turn}
    (h : s.turns = hostW s.config (4 * r) w ++ ts) (k : Nat) :
    Sys2Proof.core.run (k + 1) s =
      Sys2Proof.core.run k ((s.setTurns ts).writeTarget w (registers.getD r .reserved)) :=
  (run_hostW h (by omega) k).trans
    (congrArg (Sys2Proof.core.run k) (hostWrite_register_idle (s := s.setTurns ts) hp hr w))

/-- A run that begins with a write of a BUF word of an idle block continues from the state with that word written. -/
theorem run_hostW_buf {s : State} (hp : s.pending = none) {a : Nat} (h4 : a % 4 = 0) (ha : a < s.config.bufBytes)
    {w : Word} {ts : List Turn} (h : s.turns = hostW s.config (0x10000 + a) w ++ ts) (k : Nat) :
    Sys2Proof.core.run (k + 1) s = Sys2Proof.core.run k ((s.setTurns ts).writeBufWord a w) := by
  obtain ⟨n, rfl⟩ := Nat.dvd_of_mod_eq_zero h4
  have hn := lt_window_of_lt_bufBytes ha
  have hw : hostWrite (s.setTurns ts) (off (0x10000 + 4 * n)) w = (s.setTurns ts).writeBufWord (4 * n) w := by
    rw [hostWrite_buf (s.setTurns ts) w ha, State.busy_of_none (s := s.setTurns ts) hp]
    rfl
  exact (run_hostW h (by omega) k).trans (congrArg (Sys2Proof.core.run k) hw)

/-- Byte `j` of a word put together from its four bytes. -/
theorem extract_four_bytes (b : Nat → Byte) {j : Nat} (h : j < 4) :
    (b 3 ++ b 2 ++ b 1 ++ b 0 : Word).extractLsb' (8 * j) 8 = b j := by
  refine BitVec.eq_of_getLsbD_eq fun i hi => ?_
  rw [BitVec.getLsbD_extractLsb', decide_eq_true hi, Bool.true_and]
  obtain rfl | rfl | rfl | rfl : j = 0 ∨ j = 1 ∨ j = 2 ∨ j = 3 := by omega
  all_goals
    simp only [BitVec.getLsbD_append]
    grind

/-- Byte `j` of LOADBUF's word `i` is byte 4i + j of the list, 0 past its end (R58). -/
theorem extract_loadWord (bytes : List Byte) (i : Nat) {j : Nat} (h : j < 4) :
    (loadWord bytes i).extractLsb' (8 * j) 8 = bytes.getD (4 * i + j) 0#8 :=
  extract_four_bytes (fun j => bytes.getD (4 * i + j) 0#8) h

/-- LOADBUF's write of word `i` leaves its four bytes and every other one. -/
theorem readByte_loadWord (s : State) (o : Nat) (bytes : List Byte) (i b : Nat) :
    (s.writeBufWord (o + 4 * i) (loadWord bytes i)).readByte b =
      if o + 4 * i ≤ b ∧ b < o + 4 * (i + 1) then bytes.getD (b - o) 0#8 else s.readByte b := by
  split
  case isTrue h =>
    obtain ⟨j, rfl⟩ : ∃ j, b = o + 4 * i + j := ⟨b - (o + 4 * i), by omega⟩
    have hj : j < 4 := by omega
    rw [readByte_writeBufWord _ _ _ hj, extract_loadWord _ _ hj, Nat.add_assoc, Nat.add_sub_cancel_left]
  case isFalse h => exact readByte_writeBufWord_outside _ _ _ (by omega)

/-- The turns of LOADBUF for its words `k` to `k + m - 1`. -/
def loadTurns (c : Config) (o : Nat) (bytes : List Byte) (k m : Nat) : List Turn :=
  (List.range' k m).flatMap fun i => hostW c (0x10000 + (o + 4 * i)) (loadWord bytes i)

theorem hostLoadBuf_eq (c : Config) (o : Nat) (bytes : List Byte) :
    hostLoadBuf c o bytes = loadTurns c o bytes 0 ((bytes.length + 3) / 4) := by
  simp only [hostLoadBuf, loadTurns, List.range_eq_range', Nat.add_assoc]

theorem loadTurns_succ (c : Config) (o : Nat) (bytes : List Byte) (k m : Nat) :
    loadTurns c o bytes k (m + 1) =
      hostW c (0x10000 + (o + 4 * k)) (loadWord bytes k) ++ loadTurns c o bytes (k + 1) m := by
  rw [loadTurns, List.range'_succ, List.flatMap_cons, loadTurns]

theorem length_loadTurns (c : Config) (o : Nat) (bytes : List Byte) (k m : Nat) :
    (loadTurns c o bytes k m).length = m := by
  induction m generalizing k with
  | zero => rfl
  | succ m ih => rw [loadTurns_succ, List.length_append, ih, Nat.add_comm]; rfl

/-- What LOADBUF's words `k` to `k + m - 1` leave in the BUF of an idle block, when it holds them. -/
theorem run_loadTurns {o : Nat} (h4 : o % 4 = 0) (bytes : List Byte) (k m : Nat) {s : State} (hp : s.pending = none)
    (hfit : o + 4 * (k + m) ≤ s.config.bufBytes) (h : s.turns = loadTurns s.config o bytes k m) :
    ∃ t : State, Sys2Proof.core.run m s = .next t ∧ t = { s with turns := [], buf := t.buf } ∧
      ∀ b, t.readByte b =
        if o + 4 * k ≤ b ∧ b < o + 4 * (k + m) then bytes.getD (b - o) 0#8 else s.readByte b := by
  induction m generalizing k s with
  | zero => exact ⟨s, rfl, (State.setTurns_self h).symm, fun b => (if_neg (by omega)).symm⟩
  | succ m ih =>
    rw [loadTurns_succ] at h
    generalize hts : loadTurns s.config o bytes (k + 1) m = ts at h
    have first := run_hostW_buf hp (by omega) (by omega) h m
    have read := readByte_loadWord (s.setTurns ts) o bytes k
    have frame := writeBufWord_eq (s.setTurns ts) (o + 4 * k) (loadWord bytes k)
    generalize (s.setTurns ts).writeBufWord (o + 4 * k) (loadWord bytes k) = u at first read frame
    have hconfig : u.config = s.config := by rw [frame]; rfl
    obtain ⟨t, ht, hframe, hread⟩ := ih (k + 1) (s := u) (by rw [frame]; exact hp) (by rw [hconfig]; omega)
      (by rw [hconfig, hts, frame]; rfl)
    refine ⟨t, first.trans ht, by rw [hframe, frame]; rfl, fun b => ?_⟩
    rw [hread, read, State.readByte_setTurns]
    -- The bytes of word `k` and those of the later words make up the range.
    grind

/-- STATUS reads while BUSY or not: each hands the host the same word and changes nothing else. -/
theorem run_statusReads (n k : Nat) {s : State} {ts : List Turn}
    (h : s.turns = (List.replicate n (hostR s.config 0x00C)).flatten ++ ts) :
    Sys2Proof.core.run (n + k) s =
      Sys2Proof.core.run k { s with turns := ts, got := List.replicate n s.statusWord ++ s.got } := by
  induction n generalizing s with
  | zero => rw [Nat.zero_add]; exact congrArg (Sys2Proof.core.run k) (State.setTurns_self h).symm
  | succ n ih =>
    have first := step_read (n := 0x00C) h (by decide)
    rw [hostRead_status] at first
    rw [Nat.add_right_comm, List.replicate_succ', List.append_assoc]
    exact (core_run_succ first _).trans (ih rfl)

/-- A completed command has left the parameters as they were and PENDING is NONE (R89). -/
theorem config_pending_of_exec {i : Instr} {s t : State} (h : exec i s = .next t) :
    t.config = s.config ∧ t.pending = none := by
  obtain ⟨hconfig, -⟩ := bodyOf_frame i s
  rw [eq_complete_of_exec h, Ran.complete_config, Ran.complete_pending]
  exact ⟨hconfig, rfl⟩

/-- WAIT on a pending command ends in exec of it, and gives the host the STATUS words before and after (R58). -/
theorem run_hostWait {s : State} {w : Word} (hp : s.pending = some w) (polls : Nat) :
    ∃ u : State, exec (decode w) s = .next u ∧
      Sys2Proof.core.run (polls + 2) (s.setTurns (hostWait s.config polls)) =
        .next { u with turns := [], got := u.statusWord :: (List.replicate polls s.statusWord ++ s.got) } := by
  let g := List.replicate polls s.statusWord ++ s.got
  obtain ⟨u, hu, hu'⟩ := exec_turns_got (decode w) s (hostR s.config 0x00C) g
  obtain ⟨hconfig, -⟩ := config_pending_of_exec hu
  have reads := run_statusReads polls 2 (s := s.setTurns (hostWait s.config polls))
    (ts := .engine :: hostR s.config 0x00C) (by simp [hostWait])
  obtain ⟨-, engine⟩ := stepRunsTheDecodedCommand { s with turns := .engine :: hostR s.config 0x00C, got := g } w _ hp rfl
  have last := step_read (s := { u with turns := hostR s.config 0x00C, got := g }) (n := 0x00C) (ts := [])
    (by rw [hconfig]; rfl) (by decide)
  rw [hostRead_status] at last
  exact ⟨u, hu, reads.trans ((core_run_succ ((engine _ rfl).trans hu') 1).trans (core_run_succ last 0))⟩

/-- `s` with its operands given and the command `i` accepted. -/
def State.issued (s : State) (i : Instr) (src len dst : Word) : State :=
  { s with src := src, len := len, dst := dst, cmd := encode i, pending := some (encode i), done := false }

/-- RUN's four writes on an idle block set the operands and have the command accepted; WAIT comes next (R58). -/
theorem run_hostRun {s : State} (hp : s.pending = none) {i : Instr} {a n d : Word} {polls : Nat}
    (h : s.turns = hostRun s.config i a n d polls) (k : Nat) :
    Sys2Proof.core.run (k + 4) s =
      Sys2Proof.core.run k ((s.issued i a n d).setTurns (hostWait s.config polls)) := by
  calc Sys2Proof.core.run (k + 4) s
    _ = Sys2Proof.core.run (k + 3) ((s.setSrc a).setTurns (hostW s.config 0x01C n ++ (hostW s.config 0x018 d ++
          (hostW s.config 0x010 (encode i) ++ hostWait s.config polls)))) :=
        run_hostW_register hp (r := 5) (by decide) h (k + 3)
    _ = Sys2Proof.core.run (k + 2) (((s.setSrc a).setLen n).setTurns (hostW s.config 0x018 d ++
          (hostW s.config 0x010 (encode i) ++ hostWait s.config polls))) :=
        run_hostW_register (s := (s.setSrc a).setTurns _) hp (r := 7) (by decide) rfl (k + 2)
    _ = Sys2Proof.core.run (k + 1) ((((s.setSrc a).setLen n).setDst d).setTurns
          (hostW s.config 0x010 (encode i) ++ hostWait s.config polls)) :=
        run_hostW_register (s := ((s.setSrc a).setLen n).setTurns _) hp (r := 6) (by decide) rfl (k + 1)
    _ = Sys2Proof.core.run k ((s.issued i a n d).setTurns (hostWait s.config polls)) :=
        run_hostW_register (s := (((s.setSrc a).setLen n).setDst d).setTurns _) hp (r := 4) (by decide) rfl k

theorem length_hostRun (c : Config) (i : Instr) (a n d : Word) (polls : Nat) :
    (hostRun c i a n d polls).length = polls + 2 + 4 := by
  simp [hostRun, hostCmd, hostW, hostWait, hostR]

end Sys2Proof.Machine
end

section
/-!
The statements on command words, on what commands write and on host programs.
-/

namespace Sys2Proof.Machine

/-- Settles O29: a completion is that of the command's body, which keeps to FREQ, TREE, BUF and the result counts, and
of these each body writes its own. -/
theorem commandsWriteOnlyTheirOperands : Obligations.CommandsWriteOnlyTheirOperands := by
  intro i s t h
  rw [eq_complete_of_exec h]
  obtain ⟨hconfig, hdoneIE, herrIE, -, -, hovr, hcmd, hsrc, hdst, hlen, -, hepoch, hturns, hgot⟩ := bodyOf_frame i s
  simp only [Ran.complete_config, Ran.complete_doneIE, Ran.complete_errIE, Ran.complete_ovr, Ran.complete_cmd,
    Ran.complete_src, Ran.complete_dst, Ran.complete_len, Ran.complete_epoch, Ran.complete_turns, Ran.complete_got,
    Ran.complete_freq, Ran.complete_tree, Ran.complete_resBytes, State.readByte_complete, sameBufOutside]
  exact ⟨hconfig, hdoneIE, herrIE, hovr, hcmd, hsrc, hdst, hlen, hepoch, hturns, hgot, bodyOf_freq s, bodyOf_tree s,
    bodyOf_readByte s, bodyOf_sameBufOutside s⟩

/-- Settles O55: the words of LOADBUF, one write each, by induction on their number. -/
theorem loadBufLeavesItsBytes : Obligations.LoadBufLeavesItsBytes := by
  intro s o bytes hp h4 hfit h
  obtain ⟨hmul, -, -⟩ := bufBytes_range s.config
  rw [hostLoadBuf_eq] at h
  obtain ⟨t, ht, hframe, hread⟩ := run_loadTurns h4 bytes 0 _ hp (by omega) h
  rw [h, length_loadTurns]
  refine ⟨t, ht, hframe, State.bytesAt_eq fun i hi => ?_, fun i hlen hi => ?_, fun b hb => ?_⟩
  · rw [hread, if_pos (by omega), Nat.add_sub_cancel_left, List.getD_eq_getElem _ _ hi]
  · rw [hread, if_pos (by omega), Nat.add_sub_cancel_left, List.getD_eq_default _ _ hlen]
  · rw [hread, if_neg (by omega)]

/-- Settles O56: RUN's writes issue the command, and WAIT reads BUSY = 1 until the completion clears PENDING. -/
theorem runRunsTheCommand : Obligations.RunRunsTheCommand := by
  intro s i a n d polls hp hwf h
  obtain ⟨u, hu, hrun⟩ := run_hostWait (s := s.issued i a n d) rfl polls
  rw [decode_encode hwf] at hu
  obtain ⟨-, hidle⟩ := config_pending_of_exec hu
  obtain ⟨hbusy, -⟩ := statusWord_bits (s.issued i a n d)
  obtain ⟨hbusy', -⟩ := statusWord_bits u
  have run := (run_hostRun hp h (polls + 2)).trans hrun
  rw [← length_hostRun s.config i a n d polls, ← h] at run
  refine ⟨_, u, run, hu, rfl, u.statusWord, List.replicate polls (s.issued i a n d).statusWord, rfl,
    List.length_replicate, fun v hv => ?_, hbusy'.trans (State.busy_of_none hidle)⟩
  rw [List.eq_of_mem_replicate hv]
  exact hbusy

/-- Settles O23: the five words by evaluation, every other word by R54. -/
theorem commandWordsDecodeAsTabled : Obligations.CommandWordsDecodeAsTabled :=
  ⟨rfl, rfl, rfl, rfl, rfl, fun _ h => decode_of_not_legal h⟩

/-- Settles O24: the two round trips, and well-formedness of what the decoder answers. -/
theorem decodeAndEncodeAgree : Obligations.DecodeAndEncodeAgree :=
  ⟨fun _ h => decode_encode h, fun w => ⟨encode_decode w, wellFormed_decode w⟩⟩

/-- Settles O34: such a word is none of the five legal ones, CMD takes any word, and the completion is a raise before
any write. -/
theorem illegalWordsRaiseIllegalCmd : Obligations.IllegalWordsRaiseIllegalCmd := by
  refine ⟨fun w h => decode_of_not_legal (by omega), fun s w hp => hostWrite_register_idle hp (k := 4) (by decide) w,
    fun s w => ?_⟩
  rw [exec_eq, bodyOf, illegalBody, encode, complete_raised_eq s w w (by decide)]

/-- Settles O54: the one turn is a write of the entry while BUSY is 0. -/
theorem setFreqSetsOneEntry : Obligations.SetFreqSetsOneEntry := by
  intro s x v hp h
  have hx := x.isLt
  have hw : hostWrite (s.setTurns []) (off (0x00400 + 4 * x.toNat)) v = (s.setTurns []).writeFreq x v := by
    rw [hostWrite_freq, State.busy_of_none (s := s.setTurns []) hp]
    rfl
  refine ⟨(s.setTurns []).writeFreq x v, ?_, rfl, Table.at_put_self _ _ _, fun y hy => Table.at_put_ne _ _ hy⟩
  rw [h, ← hw]
  exact run_hostW (h.trans (List.append_nil _).symm) (by omega) 0

end Sys2Proof.Machine
end

section
/-!
SUPPORT. The counts of COUNT, its overflow check, the completions that replace FREQ, and the sum of FREQ, which the
statements on the frequency table cite.
-/

namespace Sys2Proof.Machine

/-! The counts and the overflow check (R61). -/

/-- `c[x]` counts the offsets in the input whose byte is `x`. -/
theorem State.countOf_eq_countP (s : State) (x : Byte) :
    s.countOf x = (List.range s.len.toNat).countP fun i => decide (s.readByte (s.src.toNat + i) = x) := by
  simp only [State.countOf, State.input, State.bytesAt, List.count_eq_countP, List.countP_map]
  rfl

/-- The symbols ascend, so a search among them finds the lowest symbol that meets the test. -/
theorem find?_symbols_eq_some {p : Byte → Bool} {x : Byte} (hx : p x = true) (hlow : ∀ y < x, p y = false) :
    symbols.find? p = some x := by
  obtain ⟨before, after, hsplit⟩ := List.append_of_mem (mem_symbols x)
  refine List.find?_eq_some_iff_append.2 ⟨hx, before, after, hsplit, fun y hy => ?_⟩
  have hasc : (before ++ x :: after).Pairwise (· < ·) := hsplit ▸ symbols_ascend
  have hlt : y < x := (List.pairwise_append.1 hasc).2.2 y hy x List.mem_cons_self
  simp [hlow y hlt]

theorem State.overflowing_eq_some {s : State} {x : Byte} (hx : 2 ^ 32 - 1 < s.countedFreq x)
    (hlow : ∀ y < x, s.countedFreq y ≤ 2 ^ 32 - 1) : s.overflowing = some x :=
  find?_symbols_eq_some (decide_eq_true hx) fun y hy => decide_eq_false (Nat.not_lt.2 (hlow y hy))

theorem State.overflowing_eq_none_iff (s : State) : s.overflowing = none ↔ ∀ x, s.countedFreq x ≤ 2 ^ 32 - 1 := by
  simp only [State.overflowing, List.find?_eq_none, mem_symbols, forall_const, decide_eq_true_eq, Nat.not_lt]

/-! The table that a COUNT without an overflow leaves (R61). -/

/-- FREQ with the counts added, each entry narrowed to its 32 bits. -/
def State.countedTable (s : State) : Table Word := Table.tabulate fun x => BitVec.ofNat 32 (s.countedFreq x)

/-- Without an overflow the narrowing loses nothing. -/
theorem State.toNat_at_countedTable {s : State} (h : s.overflowing = none) (x : Byte) :
    (s.countedTable.at x).toNat = s.countedFreq x := by
  have hle := s.overflowing_eq_none_iff.1 h x
  rw [State.countedTable, Table.at_tabulate, BitVec.toNat_ofNat, Nat.mod_eq_of_lt (by omega)]

/-! Completions. -/

/-- A success that replaced FREQ and made TREE INVALID is the completed state with these two. -/
theorem complete_setFreq_eq (s : State) (w : Word) (f : Table Word) (bytes : Nat) :
    (Ran.ok (((s.setResult 0 0).setFreq f).invalidate.setResult 0 bytes)).complete w =
      { s.completed w .noError 0#32 0 bytes s.buf with freq := f, tree := none } := by
  simp [State.completed, opField, State.setResult, State.setFreq, State.invalidate]

theorem State.inputOut_iff (s : State) : s.inputOut = true ↔ s.config.bufBytes < s.src.toNat + s.len.toNat :=
  decide_eq_true_iff

theorem exec_clrfreq (s : State) : exec .clrfreq s =
    .next { s.completed (encode .clrfreq) .noError 0#32 0 0 s.buf with
      freq := Vector.replicate 256 0#32, tree := none } :=
  congrArg Host.Outcome.next (complete_setFreq_eq s (encode .clrfreq) (Vector.replicate 256 0#32) 0)

theorem exec_count_of_range {s : State} (h : s.config.bufBytes < s.src.toNat + s.len.toNat) :
    exec .count s = .next (s.completed (encode .count) .range 0#32 0 0 s.buf) := by
  rw [exec_eq, bodyOf, countBody, if_pos (s.inputOut_iff.2 h), complete_raised_eq s _ _ (by decide)]

theorem exec_count_of_overflow {s : State} {x : Byte} (hin : s.src.toNat + s.len.toNat ≤ s.config.bufBytes)
    (h : s.overflowing = some x) :
    exec .count s = .next (s.completed (encode .count) .freqOverflow (x.zeroExtend 32) 0 0 s.buf) := by
  rw [exec_eq, bodyOf, countBody, if_neg (s.inputOut_iff.not.2 hin.not_gt), h, complete_raised_eq s _ _ (by decide)]

theorem exec_count_of_no_overflow {s : State} (hin : s.src.toNat + s.len.toNat ≤ s.config.bufBytes)
    (h : s.overflowing = none) : exec .count s =
      .next { s.completed (encode .count) .noError 0#32 0 s.len.toNat s.buf with
        freq := s.countedTable, tree := none } := by
  rw [exec_eq, bodyOf, countBody, if_neg (s.inputOut_iff.not.2 hin.not_gt), h]
  exact congrArg Host.Outcome.next (complete_setFreq_eq s _ _ _)

/-- A COUNT that records no cause met no overflow, and its table is the counted one. -/
theorem freq_of_count_noError {s t : State} (h : exec .count s = .next t) (hok : t.errCause = .noError) :
    s.overflowing = none ∧ t.freq = s.countedTable := by
  obtain rfl := eq_complete_of_exec h
  rw [bodyOf] at hok ⊢
  rcases countBody_cases s with hb | ⟨x, hb⟩ | ⟨-, hover, hb⟩
  · rw [hb] at hok; cases hok
  · rw [hb] at hok; cases hok
  · rw [hb]; exact ⟨hover, rfl⟩

/-! The sum of FREQ (R62). -/

theorem freqTotal_replicate_zero : freqTotal (Vector.replicate 256 0#32) = 0 := by
  simp only [freqTotal, Table.at_replicate, BitVec.toNat_zero, List.map_const', List.sum_replicate, smul_zero]

/-- Each byte of `xs` is counted under exactly one entry of a list without repetition that has them all. -/
theorem sum_count_of_nodup {l xs : List Byte} (hl : l.Nodup) (hmem : ∀ x ∈ xs, x ∈ l) :
    (l.map fun x => xs.count x).sum = xs.length := by
  have hsum := Multiset.sum_count_eq_card (m := (xs : Multiset Byte)) fun x hx => List.mem_toFinset.2 (hmem x hx)
  simp only [Multiset.coe_count, Multiset.coe_card] at hsum
  rw [← hsum, List.sum_toFinset _ hl]

theorem freqTotal_countedTable {s : State} (h : s.overflowing = none) :
    freqTotal s.countedTable = freqTotal s.freq + s.len.toNat :=
  calc freqTotal s.countedTable
    _ = (symbols.map fun x => (s.freq.at x).toNat + s.input.count x).sum := by
        simp only [freqTotal, State.toNat_at_countedTable h, State.countedFreq, State.countOf]
    _ = freqTotal s.freq + (symbols.map fun x => s.input.count x).sum := List.sum_map_add
    _ = freqTotal s.freq + s.len.toNat := by
        rw [sum_count_of_nodup symbols_nodup fun x _ => mem_symbols x, State.input, State.length_bytesAt]

end Sys2Proof.Machine
end

section
/-!
The statements on the frequency table.
-/

namespace Sys2Proof.Machine

/-- Settles O31: `c` is COUNT's own count; then the range check, the lowest overflowing symbol, or the counted table. -/
theorem countAddsByteCounts : Obligations.CountAddsByteCounts := by
  intro s c hc
  obtain rfl : c = s.countOf := funext fun x => (hc x).trans (s.countOf_eq_countP x).symm
  refine ⟨exec_count_of_range, fun hin x hx hlow => exec_count_of_overflow hin (State.overflowing_eq_some hx hlow),
    fun hin hfit => ?_⟩
  have hover : s.overflowing = none := s.overflowing_eq_none_iff.2 hfit
  exact ⟨s.countedTable, State.toNat_at_countedTable hover, exec_count_of_no_overflow hin hover⟩

/-- Settles O32: CLRFREQ's entries are 0, and a successful COUNT adds counts that sum to the length of the input. -/
theorem freqTotalCountsTheBytes : Obligations.FreqTotalCountsTheBytes := by
  refine fun s t => ⟨fun h => ?_, fun h hok => ?_⟩
  · obtain rfl := eq_complete_of_exec h
    exact freqTotal_replicate_zero
  · obtain ⟨hover, hfreq⟩ := freq_of_count_noError h hok
    rw [hfreq, freqTotal_countedTable hover]

/-- Settles O30: the completion of CLRFREQ's body. -/
theorem clrfreqClearsAndInvalidates : Obligations.ClrfreqClearsAndInvalidates := exec_clrfreq

end Sys2Proof.Machine
end

section
/-!
SUPPORT. Further laws of the builder, which the statements on BUILD cite: its sequence at every point, the merges one
by one, its root, and the completion of BUILD.
-/

namespace Sys2Proof.Machine

/-! The sequence at every point of a BUILD (R64, R69). -/

theorem CodeTree.leaves_length_pos (t : CodeTree) : 0 < t.leaves.length := Nat.zero_lt_of_lt t.depth_lt

/-- Every tree has a leaf, so there are no more trees than leaves. -/
theorem Forest.length_le {f : Table Word} {xs : List Byte} {seq : List CodeTree} (h : Forest f xs seq) :
    seq.length ≤ xs.length := by
  have hsum : seq.length ≤ (seq.map fun t => t.leaves.length).sum := by
    rw [← List.length_map (fun t : CodeTree => t.leaves.length)]
    exact List.length_le_sum_of_one_le _ (by simpa using fun t _ => t.leaves_length_pos)
  rwa [← List.length_flatMap, h.leaves.length_eq] at hsum

/-- The trees of a forest over distinct symbols have distinct SYM values (R69). -/
theorem Forest.pairwise_sym_ne {f : Table Word} {xs : List Byte} {seq : List CodeTree} (h : Forest f xs seq)
    (hn : xs.Nodup) : seq.Pairwise fun a b => a.sym ≠ b.sym :=
  Machine.pairwise_sym_ne h.sound (h.leaves.nodup_iff.2 hn)

/-- Insert takes any node whose SYM is none of the forest's symbols. -/
theorem Forest.insert_accepts {f : Table Word} {xs : List Byte} {seq : List CodeTree} (h : Forest f xs seq)
    {t : CodeTree} (ht : t.sym ∉ xs) : (insertNode t seq).1 = true := by
  refine (insertNode_ok t h.ascending fun u hu hkey => ht ?_).1
  obtain ⟨-, hsym⟩ := (keyNat_eq_iff u t).1 hkey
  exact h.leaves.mem_iff.1 (List.mem_flatMap.2 ⟨u, hu, hsym ▸ (h.sound u hu).sym_mem⟩)

/-- The leaves do not depend on the order in which they are inserted (R69). -/
theorem leafSeq_perm (f : Table Word) {xs ys : List Byte} (hn : ys.Nodup) (hp : xs.Perm ys) :
    leafSeq f xs = leafSeq f ys := by
  obtain ⟨hx, hpx⟩ := leafSeq_forest f xs (hp.nodup_iff.2 hn)
  obtain ⟨hy, hpy⟩ := leafSeq_forest f ys hn
  exact ascending_unique hx.ascending hy.ascending (hpx.trans (((hp.filter _).map _).trans hpy.symm))

/-- Symbols inserted before others are distinct, and none of the others. -/
theorem nodup_of_symbols_eq {before after : List Byte} (h : symbols = before ++ after) :
    before.Nodup ∧ ∀ x ∈ after, x ∉ before := by
  have hn := symbols_nodup
  rw [h, List.nodup_append] at hn
  obtain ⟨hbefore, -, hne⟩ := hn
  exact ⟨hbefore, fun x hx hx' => hne x hx' x hx rfl⟩

/-! The merges (R67 step 2, R70). -/

/-- The merge that takes the two lowest items of the sequence. -/
theorem seqAfter_succ_of_cons {f : Table Word} {n : Nat} {a b : CodeTree} {rest : List CodeTree}
    (h : seqAfter f n = a :: b :: rest) : seqAfter f (n + 1) = (insertNode (mergeNode n a b) rest).2 := by
  rw [seqAfter_succ, h]

/-- A merge inserts its node, which is then an item of the sequence. -/
theorem merge_inserted {f : Table Word} {n : Nat} {a b : CodeTree} {rest : List CodeTree}
    (h : seqAfter f n = a :: b :: rest) :
    (insertNode (mergeNode n a b) rest).1 = true ∧ mergeNode n a b ∈ seqAfter f (n + 1) := by
  obtain ⟨hf, -, -⟩ := seqAfter_forest f n
  rw [h] at hf
  obtain ⟨hok, hperm, -⟩ := hf.merge (presentSymbols_nodup f) n
  rw [seqAfter_succ_of_cons h]
  exact ⟨hok, hperm.mem_iff.2 List.mem_cons_self⟩

/-- There is a merge number `n` only with `n + 2` leaves or more. -/
theorem merge_lt {f : Table Word} {n : Nat} {a b : CodeTree} {rest : List CodeTree}
    (h : seqAfter f n = a :: b :: rest) : n + 2 ≤ (presentSymbols f).length := by
  obtain ⟨-, hlen, -⟩ := seqAfter_forest f n
  rw [h, List.length_cons, List.length_cons] at hlen
  omega

/-- The index of an internal node is not narrowed: there are fewer than 256 merges. -/
theorem toNat_internalIndex {k : Nat} (h : k < 256) : (BitVec.ofNat 9 (256 + k)).toNat = 256 + k := by
  rw [BitVec.toNat_ofNat, Nat.mod_eq_of_lt (by omega)]

theorem mergeNode_index {k : Nat} (h : k < 256) (a b : CodeTree) : (mergeNode k a b).index.toNat = 256 + k :=
  toNat_internalIndex h

/-- The merged node with its weight as a sum of weights (R67). -/
theorem mergeNode_eq (k : Nat) (a b : CodeTree) :
    mergeNode k a b =
      .node (BitVec.ofNat 9 (256 + k)) (if a.sym ≤ b.sym then a.sym else b.sym) (a.weight + b.weight) a b := rfl

/-- A leaf's index is its symbol (R26). -/
theorem toNat_index_leaf (x : Byte) (w : Weight) : (CodeTree.leaf x w).index.toNat = x.toNat := by
  have hx := x.isLt
  rw [CodeTree.index, BitVec.zeroExtend, BitVec.toNat_setWidth, Nat.mod_eq_of_lt (by omega)]

/-! The root (R67 step 3). -/

theorem buildRoot_eq_none {f : Table Word} (h : presentSymbols f = []) : buildRoot f = none := by
  rcases buildRoot_cases f with ⟨-, hnone⟩ | ⟨r, -, -, -, hleaves, -⟩
  · exact hnone
  · rw [h] at hleaves
    exact absurd hleaves.length_eq r.leaves_length_pos.ne'

theorem exists_buildRoot {f : Table Word} (h : presentSymbols f ≠ []) : ∃ r, buildRoot f = some r := by
  rcases buildRoot_cases f with ⟨hnil, -⟩ | ⟨r, hr, -⟩
  · exact absurd hnil h
  · exact ⟨r, hr⟩

section
variable {f : Table Word} {r : CodeTree} (h : buildRoot f = some r)
include h

/-- What a root is: the last item of the sequence, sound, over the present symbols, with internal nodes 256 on. -/
theorem buildRoot_spec :
    seqAfter f ((presentSymbols f).length - 1) = [r] ∧ r.Sound f ∧ r.leaves.Perm (presentSymbols f) ∧
      r.internals.Perm ((List.range ((presentSymbols f).length - 1)).map fun k => BitVec.ofNat 9 (256 + k)) := by
  rcases buildRoot_cases f with ⟨-, hnone⟩ | ⟨r', hr', hspec⟩
  · rw [hnone] at h; cases h
  · obtain rfl : r' = r := Option.some.inj (hr'.symm.trans h)
    exact hspec

/-- Every node of a built tree is sound and has at most 256 leaves. -/
theorem buildRoot_node {t : CodeTree} (ht : t ∈ r.nodes) : t.Sound f ∧ t.leaves.length ≤ 256 := by
  obtain ⟨-, hsound, -, -⟩ := buildRoot_spec h
  obtain ⟨hsub, hleaves⟩ := hsound.subtree ht
  exact ⟨hsub, hleaves.length_le.trans (buildRoot_leaves_le h)⟩

/-- The indices of the internal nodes as numbers (R70). -/
theorem buildRoot_internals :
    (r.internals.map BitVec.toNat).Perm ((List.range ((presentSymbols f).length - 1)).map fun k => 256 + k) := by
  obtain ⟨-, -, -, hint⟩ := buildRoot_spec h
  have hle := length_presentSymbols_le f
  refine (hint.map BitVec.toNat).trans (List.Perm.of_eq ?_)
  rw [List.map_map]
  refine List.map_congr_left fun k hk => toNat_internalIndex ?_
  rw [List.mem_range] at hk
  omega

/-- One present symbol gives its leaf (R67). -/
theorem buildRoot_of_one (h1 : (presentSymbols f).length = 1) : ∃ x w, r = .leaf x w ∧ presentSymbols f = [x] := by
  obtain ⟨-, -, hleaves, -⟩ := buildRoot_spec h
  cases r with
  | leaf x w => exact ⟨x, w, rfl, List.perm_singleton.1 hleaves.symm⟩
  | node i y w a b =>
    have hlen := hleaves.length_eq
    rw [CodeTree.leaves_node, List.length_append, h1] at hlen
    have ha := a.leaves_length_pos
    have hb := b.leaves_length_pos
    omega

/-- From two present symbols on, the root is the node of the last merge (R70). -/
theorem buildRoot_index (h2 : 2 ≤ (presentSymbols f).length) :
    r.index.toNat = 256 + (presentSymbols f).length - 2 := by
  obtain ⟨hlast, -, -, -⟩ := buildRoot_spec h
  have hle := length_presentSymbols_le f
  obtain ⟨n, hn⟩ : ∃ n, (presentSymbols f).length = n + 2 := ⟨_, (Nat.sub_add_cancel h2).symm⟩
  obtain ⟨-, hlen, -⟩ := seqAfter_forest f n
  rw [hn] at hlast hlen ⊢
  obtain ⟨a, b, hab⟩ := List.length_eq_two.1 (hlen.trans (by omega))
  rw [Nat.add_sub_cancel (n + 1) 1, seqAfter_succ_of_cons hab] at hlast
  obtain rfl : mergeNode n a b = r := List.singleton_injective hlast
  rw [mergeNode_index (by omega)]
  omega

/-- A tree of `m` leaves has depth at most m - 1 (R72). -/
theorem buildRoot_depth_lt : r.depth < (presentSymbols f).length := by
  obtain ⟨-, -, hleaves, -⟩ := buildRoot_spec h
  exact r.depth_lt.trans_eq hleaves.length_eq

end

/-- No codeword of a tree with distinct leaves is longer than its depth, or than the one bit of a single leaf. -/
theorem length_codes_at_le {r : CodeTree} (hn : r.leaves.Nodup) (x : Byte) :
    ((codes (some r)).at x).length ≤ max r.depth 1 := by
  cases r with
  | leaf y w =>
    rw [codes_leaf_at]
    split <;> simp
  | node i y w a b =>
    obtain ⟨hpath, habsent⟩ := codes_node_at hn x
    by_cases hx : x ∈ (CodeTree.node i y w a b).leaves
    · obtain ⟨p, hp, hlen⟩ := CodeTree.exists_follow hx
      rw [hpath p hp]
      exact hlen.trans (le_max_left _ _)
    · rw [habsent hx]
      exact Nat.zero_le _

/-- Entries that are 0 add nothing to the sum of FREQ. -/
theorem sum_presentSymbols (f : Table Word) :
    ((presentSymbols f).map fun x => (f.at x).toNat).sum = freqTotal f := by
  have hne : ∀ x, (f.at x != 0#32) = ((f.at x).toNat != 0) := fun x => by
    rw [Bool.eq_iff_iff, bne_iff_ne, bne_iff_ne, ne_eq, ne_eq, ← BitVec.toNat_inj]
    rfl
  calc ((presentSymbols f).map fun x => (f.at x).toNat).sum
    _ = ((symbols.map fun x => (f.at x).toNat).filter (· != 0)).sum := by
        rw [List.filter_map, presentSymbols, List.filter_congr fun x _ => hne x]
        rfl
    _ = freqTotal f := List.sum_filter_bne_zero _

/-! The completion of BUILD. -/

/-- BUILD's success is the completed state with the tree of FREQ. -/
theorem exec_build (s : State) : exec .build s =
    .next { s.completed (encode .build) .noError 0#32 0 0 s.buf with tree := some (buildTree s.freq) } := by
  rw [exec_eq, bodyOf, buildBody]
  simp [State.completed, opField, State.setResult, State.setTree]

end Sys2Proof.Machine
end

section
/-!
The statements on the tree builder.
-/

namespace Sys2Proof.Machine

/-- Settles O35: an equal key is an item with the same weight and symbol; then Insert's reject and its split. -/
theorem insertPlacesByKey : Obligations.InsertPlacesByKey := by
  refine ⟨fun a b => by simp [keyLt], fun n seq hs => ?_⟩
  simp only [← keyNat_eq_iff, keyLt_iff]
  refine ⟨insertNode_reject n hs, fun hn => ?_⟩
  obtain ⟨-, -, hasc⟩ := insertNode_ok n hs hn
  obtain ⟨lo, hi, hseq, hins, hlo, hhi⟩ := insertNode_split n hs hn
  rw [hins] at hasc
  exact ⟨lo, hi, hseq, hins, hlo, hhi, hasc⟩

/-- Settles O36: the sequence is a forest, which is ascending, over at most 256 symbols. -/
theorem sequenceIsStrictlyAscending : Obligations.SequenceIsStrictlyAscending := by
  refine fun f => ⟨fun before after h => ?_, fun n => ?_⟩
  · obtain ⟨hn, -⟩ := nodup_of_symbols_eq h
    obtain ⟨hf, -⟩ := leafSeq_forest f before hn
    have hle : before.length ≤ 256 := by
      rw [← length_symbols, h, List.length_append]
      exact Nat.le_add_right _ _
    exact ⟨hf.ascending, hf.length_le.trans ((List.length_filter_le _ _).trans hle)⟩
  · obtain ⟨hf, -⟩ := seqAfter_forest f n
    exact ⟨hf.ascending, hf.length_le.trans (length_presentSymbols_le f)⟩

/-- Settles O37: the sequence is a forest over distinct symbols, and what is inserted has a SYM that no item has. -/
theorem insertNeverRejectsInBuild : Obligations.InsertNeverRejectsInBuild := by
  refine fun f => ⟨fun before after h => ?_, fun n => ?_, fun n a b rest h => (merge_inserted h).1,
    fun before x after h => ?_, fun xs hp => leafSeq_perm f symbols_nodup hp⟩
  · obtain ⟨hn, -⟩ := nodup_of_symbols_eq h
    exact (leafSeq_forest f before hn).1.pairwise_sym_ne (hn.filter _)
  · exact (seqAfter_forest f n).1.pairwise_sym_ne (presentSymbols_nodup f)
  · obtain ⟨hn, hnew⟩ := nodup_of_symbols_eq h
    refine (leafSeq_forest f before hn).1.insert_accepts fun hx => ?_
    exact hnew x List.mem_cons_self (List.mem_filter.1 hx).1

/-- Settles O38: BUILD's completion, the two kinds of root, the leaves and the merge equation. -/
theorem buildMergesTheTwoLowest : Obligations.BuildMergesTheTwoLowest := by
  intro s
  obtain ⟨hf, hleaves⟩ := leafSeq_forest s.freq symbols symbols_nodup
  refine ⟨exec_build s, rfl, rfl, buildRoot_eq_none, fun hne => ?_, hf.ascending, hleaves,
    fun n a b rest h => mergeNode_eq n a b ▸ seqAfter_succ_of_cons h⟩
  obtain ⟨r, hr⟩ := exists_buildRoot hne
  exact ⟨r, hr, (buildRoot_spec hr).1⟩

/-- Settles O39: every subtree is sound. -/
theorem symIsTheLeastLeaf : Obligations.SymIsTheLeastLeaf := by
  intro f r hr t ht
  obtain ⟨hsound, -⟩ := buildRoot_node hr ht
  exact ⟨hsound.sym_mem, fun x hx => hsound.sym_le hx⟩

/-- Settles O40: the leaves and internal nodes of the root, its own index by the number of leaves, each merge's index,
and NSYM. -/
theorem nodeCountsAndIndices : Obligations.NodeCountsAndIndices := by
  rintro f m rfl
  have hle := length_presentSymbols_le f
  refine ⟨hle, fun h0 => buildRoot_eq_none (List.length_eq_zero_iff.1 h0), fun hne => ?_, fun n a b rest h => ?_,
    fun s hs => ?_⟩
  · obtain ⟨r, hr⟩ := exists_buildRoot (List.length_eq_zero_iff.not.1 hne)
    obtain ⟨-, -, hleaves, -⟩ := buildRoot_spec hr
    refine ⟨r, hr, hleaves, buildRoot_internals hr, fun x w _ => toNat_index_leaf x w, fun _ _ _ _ _ _ => rfl,
      fun h1 => ?_, buildRoot_index hr⟩
    obtain ⟨x, w, rfl, hx⟩ := buildRoot_of_one hr h1
    exact ⟨x, w, rfl, hx, toNat_index_leaf x w⟩
  · have hlt := merge_lt h
    exact ⟨hlt, (merge_inserted h).2, mergeNode_index (by omega) a b⟩
  · obtain ⟨hempty, hroot⟩ := treeRegistersReadTheRoot s f
    by_cases h0 : presentSymbols f = []
    · obtain ⟨-, -, -, hnsym⟩ := hempty (.inr ⟨hs, buildRoot_eq_none h0⟩)
      rw [hnsym, h0]
      rfl
    · obtain ⟨r, hr⟩ := exists_buildRoot h0
      obtain ⟨-, -, hleaves, -⟩ := buildRoot_spec hr
      obtain ⟨-, -, hnsym⟩ := hroot r hs hr
      exact hnsym.trans hleaves.length_eq

/-- Settles O41: sound trees of at most 256 leaves have exact weights, and the root's leaves are the present symbols. -/
theorem weightsAreExactSums : Obligations.WeightsAreExactSums := by
  intro f r hr
  obtain ⟨-, hsound, hleaves, -⟩ := buildRoot_spec hr
  refine ⟨fun t ht => ?_, ?_⟩
  · obtain ⟨hsub, hle⟩ := buildRoot_node hr ht
    obtain ⟨heq, hbound⟩ := hsub.weight_eq hle
    exact ⟨heq, hbound.trans (Nat.mul_le_mul_right _ hle)⟩
  · obtain ⟨heq, -⟩ := hsound.weight_eq (buildRoot_leaves_le hr)
    rw [heq, (hleaves.map _).sum_eq, sum_presentSymbols]

/-- Settles O42: the depth is below the number of leaves, and no codeword is longer than the depth, or than 1. -/
theorem depthIsBelowTheLeafCount : Obligations.DepthIsBelowTheLeafCount := by
  intro f
  have hle := length_presentSymbols_le f
  have hdepth : ∀ r, buildRoot f = some r → r.depth ≤ (presentSymbols f).length - 1 ∧ r.depth ≤ 255 := by
    intro r hr
    have hlt := buildRoot_depth_lt hr
    omega
  refine ⟨hdepth, fun x => ?_⟩
  rw [buildTree]
  cases hr : buildRoot f with
  | none => simp
  | some r =>
    obtain ⟨-, -, hleaves, -⟩ := buildRoot_spec hr
    obtain ⟨-, h255⟩ := hdepth r hr
    have hlen := length_codes_at_le (hleaves.nodup_iff.2 (presentSymbols_nodup f)) x
    exact hlen.trans (max_le h255 (by decide))

/-- Settles O43: BUILD leaves the tree and the codes of FREQ. -/
theorem buildReadsOnlyFreq : Obligations.BuildReadsOnlyFreq :=
  fun s s' h => ⟨_, _, exec_build s, exec_build s', congrArg (fun f => some (buildTree f)) h⟩

end Sys2Proof.Machine
end

section
/-!
SUPPORT. Further laws of the code table and of the NODE region: what their words read, the nodes of a built tree by
their index, and the codewords of a built tree.
-/

namespace Sys2Proof.Machine

/-! The read-only regions (R35, R37, R43). -/

/-- A write at a read-only offset does nothing, BUSY or not (R37). -/
theorem hostWrite_readOnly (s : State) {a : Nat} (w : Word) (h4 : a % 4 = 0) (h : readOnlyOffset a) :
    hostWrite s (off a) w = s := by
  have hlt : a < 0x20000 := by
    simp only [readOnlyOffset, List.mem_cons, List.not_mem_nil, or_false] at h
    omega
  exact hostWrite_of_inert s (off a) w (.inr (by rwa [alignedOffset_off hlt h4]))

/-- A masked target, BUSY or not (R43). -/
theorem hostRead_of_target (s : State) {a : Nat} {t : Target} (ha : a < 0x20000) (h4 : a % 4 = 0)
    (ht : targetAt s.config a = t) (hm : t.readMasked = true) :
    hostRead s (off a) = if s.busy then 0#32 else s.readTarget t := by
  rw [hostRead_aligned, alignedOffset_off ha h4, ht, hm, Bool.and_true]

theorem hostRead_codeLen (s : State) (x : Byte) :
    hostRead s (off (0x00800 + 4 * x.toNat)) = if s.busy then 0#32 else codeLenWord (s.codeAt x) := by
  have hx := x.isLt
  exact hostRead_of_target s (t := .codeLen x) (by omega) (by omega) (targetAt_codeLen _ x) rfl

theorem hostRead_codeBits (s : State) (x : Byte) {k : Nat} (hk : k < 8) :
    hostRead s (off (0x02000 + 32 * x.toNat + 4 * k)) = if s.busy then 0#32 else codeBitsWord (s.codeAt x) k := by
  have hx := x.isLt
  exact hostRead_of_target s (t := .codeBits x k) (by omega) (by omega) (targetAt_codeBits _ x hk) rfl

theorem hostRead_node (s : State) {n k : Nat} (hn : n ≤ 510) (hk : k < 4) :
    hostRead s (off (0x04000 + 16 * n + 4 * k)) = if s.busy then 0#32 else s.nodeRead (BitVec.ofNat 9 n) k :=
  hostRead_of_target s (t := .node _ k) (by omega) (by omega) (targetAt_node _ hn hk) rfl

/-! The words of a codeword (R76, R77). -/

theorem State.codeAt_of_tree {s : State} {b : Built} (h : s.tree = some b) (x : Byte) : s.codeAt x = b.code.at x := by
  rw [State.codeAt, h]

theorem State.codeAt_of_invalid {s : State} (h : s.tree = none) (x : Byte) : s.codeAt x = [] := by
  rw [State.codeAt, h]

/-- A codeword of at most 255 bits has its length in CODE_LEN (R28, R76). -/
theorem toNat_codeLenWord {c : Codeword} (h : c.length ≤ 255) : (codeLenWord c).toNat = c.length := by
  rw [codeLenWord, toNat_zero_append, BitVec.toNat_ofNat, Nat.mod_eq_of_lt (by omega)]

@[simp] theorem codeLenWord_nil : codeLenWord [] = 0#32 := rfl

/-! TREE INVALID (R80). -/

/-- The targets whose words are fields of TREE or CODE: the CODE_LEN, CODE_BITS and NODE regions, TREE_ROOT, TOTAL_LO,
TOTAL_HI and NSYM. -/
def Target.showsTree : Target → Bool
  | .treeRoot | .totalLo | .totalHi | .nsym | .codeLen _ | .codeBits _ _ | .node _ _ => true
  | _ => false

/-- The offsets R80 lists reach such targets. -/
theorem showsTree_targetAt (c : Config) {a : Nat} (h4 : a % 4 = 0)
    (h : (0x00800 ≤ a ∧ a < 0x00C00) ∨ (0x02000 ≤ a ∧ a < 0x05FF0) ∨ (0x030 ≤ a ∧ a < 0x040)) :
    (targetAt c a).showsTree = true := by
  by_cases h1 : a < 0x40
  · obtain ⟨k, hk, rfl⟩ := register_of_lt h1 h4
    have hk' : 12 ≤ k := by omega
    rw [targetAt_register c hk]
    clear h1 h4 h
    revert k
    decide
  · unfold targetAt
    rw [if_neg h1]
    repeat' split
    all_goals simp only [Target.showsTree, Bool.false_eq_true]
    all_goals omega

theorem State.nodeRead_of_invalid {s : State} (h : s.tree = none) (n : NodeIndex) (k : Nat) : s.nodeRead n k = 0#32 := by
  rw [State.nodeRead, h]

/-- They all read 0 while TREE is INVALID. -/
theorem readTarget_of_invalid {s : State} (h : s.tree = none) {t : Target} (ht : t.showsTree = true) :
    s.readTarget t = 0#32 := by
  obtain ⟨hroot, hlo, hhi, hnsym⟩ := treeWords_of_root_none (State.root_of_invalid h)
  cases t with
  | treeRoot => exact hroot
  | totalLo => exact hlo
  | totalHi => exact hhi
  | nsym => exact hnsym
  | codeLen x => rw [State.readTarget, State.codeAt_of_invalid h, codeLenWord_nil]
  | codeBits x k => rw [State.readTarget, State.codeAt_of_invalid h, codeBitsWord_nil]
  | node n k => exact State.nodeRead_of_invalid h n k
  | _ => cases ht

theorem exec_encode_of_invalid {s : State} (h : s.tree = none) :
    exec .encode s = .next (s.completed (encode .encode) .noTree 0#32 0 0 s.buf) := by
  rw [exec_eq, bodyOf, encodeBody, h, complete_raised_eq s _ _ (by decide)]

theorem exec_decode_of_invalid {s : State} (h : s.tree = none) :
    exec .decode s = .next (s.completed (encode .decode) .noTree 0#32 0 0 s.buf) := by
  rw [exec_eq, bodyOf, decodeBody, h, complete_raised_eq s _ _ (by decide)]

/-! The words of a node (R79). -/

/-- LEFT and RIGHT of a leaf are 0 (R26). -/
theorem nodeWord_one_leaf (x : Byte) (w : Weight) (isRoot : Bool) : nodeWord (.leaf x w) isRoot 1 = 0#32 := by
  rw [nodeWord, CodeTree.rightIndex, CodeTree.leftIndex]
  decide

theorem State.nodeRead_of_found {s : State} {r t : CodeTree} {n : NodeIndex} (hs : s.root = some r)
    (hf : r.findNode n = some t) (k : Nat) : s.nodeRead n k = nodeWord t (decide (n = r.index)) k := by
  obtain ⟨c, hc⟩ := State.tree_of_root hs
  simp only [State.nodeRead, hc, hf]

/-- Where no root has a node of the index, its words are 0. -/
theorem State.nodeRead_of_absent {s : State} {n : NodeIndex} (h : ∀ r, s.root = some r → ∀ t ∈ r.nodes, t.index ≠ n)
    (k : Nat) : s.nodeRead n k = 0#32 := by
  cases hs : s.root with
  | none => rcases State.tree_of_root_none hs with ht | ⟨c, ht⟩ <;> simp only [State.nodeRead, ht]
  | some r =>
    obtain ⟨c, hc⟩ := State.tree_of_root hs
    have hf : r.findNode n = none := Option.eq_none_iff_forall_ne_some.2 fun t ht =>
      have ⟨hmem, hindex⟩ := CodeTree.findNode_some ht
      h r hs t hmem hindex
    simp only [State.nodeRead, hc, hf]

theorem CodeTree.index_mem_internals {t l r : CodeTree} {i : NodeIndex} {y : Byte} {w : Weight}
    (h : .node i y w l r ∈ t.nodes) : i ∈ t.internals := by
  induction t with
  | leaf => simp [CodeTree.nodes] at h
  | node j z v a b iha ihb =>
    simp only [CodeTree.nodes, List.mem_cons, List.mem_append, CodeTree.node.injEq] at h
    rw [CodeTree.internals_node, List.mem_cons, List.mem_append]
    rcases h with ⟨rfl, -⟩ | h | h
    · exact .inl rfl
    · exact .inr (.inl (iha h))
    · exact .inr (.inr (ihb h))

section
variable {f : Table Word} {r : CodeTree} (h : buildRoot f = some r)
include h

theorem buildRoot_leaves_nodup : r.leaves.Nodup := by
  obtain ⟨-, -, hleaves, -⟩ := buildRoot_spec h
  exact hleaves.nodup_iff.2 (presentSymbols_nodup f)

theorem buildRoot_internals_nodup : r.internals.Nodup := by
  refine List.Nodup.of_map BitVec.toNat ((buildRoot_internals h).nodup_iff.2 ?_)
  exact List.nodup_range.map fun a b => Nat.add_left_cancel

/-- Internal nodes are numbered from 256 on (R70). -/
theorem buildRoot_internals_ge {i : NodeIndex} (hi : i ∈ r.internals) : 256 ≤ i.toNat := by
  obtain ⟨k, -, hk⟩ := List.mem_map.1 ((buildRoot_internals h).mem_iff.1 (List.mem_map_of_mem hi))
  exact hk ▸ Nat.le_add_right 256 k

/-- Every node of a built tree is found under its index. -/
theorem buildRoot_findNode {t : CodeTree} (ht : t ∈ r.nodes) : r.findNode t.index = some t :=
  CodeTree.findNode_index (buildRoot_leaves_nodup h) (buildRoot_internals_nodup h) (fun _ => buildRoot_internals_ge h) ht

/-- The leaves are the nodes numbered below 256 (R26, R70). -/
theorem buildRoot_isLeaf {t : CodeTree} (ht : t ∈ r.nodes) : t.isLeaf = decide (t.index.toNat < 256) := by
  cases t with
  | leaf x w => exact (decide_eq_true ((toNat_index_leaf x w).trans_lt x.isLt)).symm
  | node i y w a b =>
    exact (decide_eq_false (Nat.not_lt.2 (buildRoot_internals_ge h (CodeTree.index_mem_internals ht)))).symm

/-! The codewords of a built tree (R74, R75, R78). -/

theorem buildTree_code_of_root : (buildTree f).code = codes (some r) := by rw [buildTree, h]

end

theorem buildTree_code_of_empty {f : Table Word} (h : buildRoot f = none) (x : Byte) : (buildTree f).code.at x = [] := by
  rw [buildTree, h, codes_none_at]

/-- The codeword of a leaf below an internal root is its path. -/
theorem follow_codes_at {i : NodeIndex} {y : Byte} {w : Weight} {l r : CodeTree}
    (hn : (CodeTree.node i y w l r).leaves.Nodup) {x : Byte} (hx : x ∈ (CodeTree.node i y w l r).leaves) :
    (CodeTree.node i y w l r).follow ((codes (some (.node i y w l r))).at x) = some x := by
  obtain ⟨hpath, -⟩ := codes_node_at hn x
  obtain ⟨p, hp, -⟩ := CodeTree.exists_follow hx
  rwa [hpath p hp]

/-- The symbols with a codeword are the leaves. -/
theorem codes_at_ne_nil_iff {t : CodeTree} (hn : t.leaves.Nodup) (x : Byte) :
    (codes (some t)).at x ≠ [] ↔ x ∈ t.leaves := by
  cases t with
  | leaf y w => rw [codes_leaf_at, CodeTree.leaves_leaf, List.mem_singleton]; simp
  | node i y w l r =>
    refine ⟨not_imp_comm.1 (codes_node_at hn x).2, fun hx => ?_⟩
    exact CodeTree.follow_node_ne_nil (follow_codes_at hn hx)

/-- No leaf's codeword begins another leaf's. -/
theorem eq_of_codes_isPrefix {t : CodeTree} (hn : t.leaves.Nodup) {x y : Byte} (hx : x ∈ t.leaves) (hy : y ∈ t.leaves)
    (h : (codes (some t)).at x <+: (codes (some t)).at y) : x = y := by
  cases t with
  | leaf z w =>
    rw [CodeTree.leaves_leaf, List.mem_singleton] at hx hy
    exact hx.trans hy.symm
  | node i z w l r =>
    have hpx := follow_codes_at hn hx
    have hpy := follow_codes_at hn hy
    obtain ⟨q, hq⟩ := h
    rw [← hq] at hpy
    rw [CodeTree.follow_append hpx hpy, List.append_nil, hpx] at hpy
    exact Option.some.inj hpy

end Sys2Proof.Machine
end

section
/-!
The statements on the code table and the NODE region.
-/

namespace Sys2Proof.Machine

/-- Settles O20: the two regions read the words of CODE[x], which is empty while TREE is INVALID, and are masked while
BUSY. -/
theorem codeTableReadsAsLaidOut : Obligations.CodeTableReadsAsLaidOut := by
  intro s x
  have hx := x.isLt
  refine ⟨fun b hp ht hlen => ?_, fun h => ?_, fun w => ⟨?_, fun k hk => ?_⟩⟩
  · rw [hostRead_codeLen, State.busy_of_none hp, State.codeAt_of_tree ht]
    refine ⟨toNat_codeLenWord hlen, fun k hk j hj => ?_⟩
    rw [hostRead_codeBits s x hk, State.busy_of_none hp, State.codeAt_of_tree ht]
    exact getLsbD_codeBitsWord _ k hj
  · rw [hostRead_codeLen]
    rcases h with hp | ht
    · exact ⟨if_pos (State.busy_of_ne hp), fun k hk => by rw [hostRead_codeBits s x hk, if_pos (State.busy_of_ne hp)]⟩
    · rw [State.codeAt_of_invalid ht, codeLenWord_nil]
      refine ⟨ite_self _, fun k hk => ?_⟩
      rw [hostRead_codeBits s x hk, State.codeAt_of_invalid ht, codeBitsWord_nil, ite_self]
  · exact hostWrite_readOnly s w (by omega) (.inr (.inl (by omega)))
  · exact hostWrite_readOnly s w (by omega) (.inr (.inr (.inl (by omega))))

/-- Settles O21: a node of a built tree is found under its index, and the leaves are those below 256. -/
theorem nodeRegionReadsTheTree : Obligations.NodeRegionReadsTheTree := by
  intro s n hn
  have hidx : (BitVec.ofNat 9 n).toNat = n := by rw [BitVec.toNat_ofNat]; omega
  refine ⟨fun f r t hp hs hr ht htn => ?_, fun h k hk => ?_, fun k hk w => ?_⟩
  · obtain rfl := htn
    have hread : ∀ k < 4, hostRead s (off (0x04000 + 16 * t.index.toNat + 4 * k)) =
        nodeWord t (decide (t.index = r.index)) k := by
      intro k hk
      rw [hostRead_node s hn hk, State.busy_of_none hp, BitVec.ofNat_toNat, BitVec.setWidth_eq]
      exact State.nodeRead_of_found ((State.root_of_tree hs).trans hr) (buildRoot_findNode hr ht) k
    refine ⟨?_, ?_, ?_, ?_⟩
    · rw [← buildRoot_isLeaf hr ht, decide_eq_decide.2 BitVec.toNat_inj]
      exact hread 0 (by decide)
    · rintro i y w left right rfl
      exact hread 1 (by decide)
    · rintro x w rfl
      exact (hread 1 (by decide)).trans (nodeWord_one_leaf x w _)
    · rw [hread 2 (by decide), hread 3 (by decide)]
      exact toNat_weight_words t.weight
  · rw [hostRead_node s hn hk]
    by_cases hp : s.pending = none
    · rw [State.nodeRead_of_absent, ite_self]
      intro r hs t ht hi
      rcases h with h | h | ⟨f, hf, habsent⟩
      · exact h hp
      · exact Option.some_ne_none r (hs.symm.trans (State.root_of_invalid h))
      · exact habsent r ((State.root_of_tree hf).symm.trans hs) t ht (hi ▸ hidx)
    · exact if_pos (State.busy_of_ne hp)
  · exact hostWrite_readOnly s w (by omega) (.inr (.inr (.inr (by omega))))

/-- Settles O22: the offsets listed reach fields of the tree, and the two commands raise before any other check. -/
theorem invalidTreeIsUnobservable : Obligations.InvalidTreeIsUnobservable := by
  intro s hs
  refine ⟨fun o ho => ?_, exec_encode_of_invalid hs, exec_decode_of_invalid hs⟩
  obtain ⟨-, h4⟩ := alignedOffset_lt o
  rw [hostRead_aligned, readTarget_of_invalid hs (showsTree_targetAt s.config h4 ho), ite_self]

/-- Settles O44: the codes of the empty tree, of a single leaf, and of a tree with an internal root. -/
theorem codesAreRootPaths : Obligations.CodesAreRootPaths := by
  refine fun f => ⟨buildTree_code_of_empty, fun x w hr => ?_, fun i y w l r hr x => ?_⟩
  · rw [buildTree_code_of_root hr]
    exact ⟨(codes_leaf_at x w x).trans (if_pos rfl), fun y hy => (codes_leaf_at x w y).trans (if_neg hy)⟩
  · have hn := buildRoot_leaves_nodup hr
    obtain ⟨hpath, habsent⟩ := codes_node_at hn x
    rw [buildTree_code_of_root hr]
    exact ⟨follow_codes_at hn, habsent, hpath⟩

/-- Settles O45: the symbols with a codeword are the leaves, which are the present symbols. -/
theorem codesFormAPrefixCode : Obligations.CodesFormAPrefixCode := by
  intro f
  rcases buildRoot_cases f with ⟨hempty, hr⟩ | ⟨r, hr, -, -, hleaves, -⟩
  · refine ⟨fun x => ?_, fun x y _ hx => absurd (buildTree_code_of_empty hr x) hx⟩
    rw [buildTree_code_of_empty hr, ← mem_presentSymbols, hempty]
    simp
  · have hn := buildRoot_leaves_nodup hr
    rw [buildTree_code_of_root hr]
    simp only [codes_at_ne_nil_iff hn]
    exact ⟨fun x => by rw [hleaves.mem_iff, mem_presentSymbols],
      fun x y hne hx hy h => hne (eq_of_codes_isPrefix hn hx hy h)⟩

end Sys2Proof.Machine
end

section
/-!
SUPPORT. The input bytes and the streams of the encoder: unique parsing, sizes, and the completion of ENCODE at each
of its checks (R81 to R83).
-/

namespace Sys2Proof.Machine

/-! Streams of codewords parse uniquely (R78, R82). -/

/-- No codeword begins another's: R78's second sentence, for any code table. -/
def PrefixFree (code : Table Codeword) : Prop :=
  ∀ x y, code.at x ≠ [] → code.at y ≠ [] → code.at x <+: code.at y → x = y

theorem buildTree_prefixFree (f : Table Word) : PrefixFree (buildTree f).code := by
  intro x y hx hy h
  obtain ⟨-, hfree⟩ := codesFormAPrefixCode f
  by_contra hne
  exact hfree x y hne hx hy h

theorem allCoded_cons {code : Table Codeword} {x : Byte} {xs : List Byte} :
    allCoded code (x :: xs) ↔ code.at x ≠ [] ∧ allCoded code xs := List.forall_mem_cons

/-- Of two streams that agree, the first codewords are comparable, hence equal, and the rests agree. -/
theorem isPrefix_of_emit_isPrefix {code : Table Codeword} (hfree : PrefixFree code) {xs ys : List Byte}
    (hxs : allCoded code xs) (hys : allCoded code ys) (h : emit code xs <+: emit code ys) : xs <+: ys := by
  induction xs generalizing ys with
  | nil => exact List.nil_prefix
  | cons x xs ih =>
    obtain ⟨hx, hxs⟩ := allCoded_cons.1 hxs
    cases ys with
    | nil => exact absurd (List.append_eq_nil_iff.1 (List.prefix_nil.1 h)).1 hx
    | cons y ys =>
      obtain ⟨hy, hcoded⟩ := allCoded_cons.1 hys
      rw [emit, emit] at h
      have hxy : x = y := by
        rcases List.prefix_or_prefix_of_prefix ((List.prefix_append _ _).trans h) (List.prefix_append _ _) with hp | hp
        · exact hfree x y hx hy hp
        · exact (hfree y x hy hx hp).symm
      subst hxy
      exact List.cons_prefix_cons.2 ⟨rfl, ih hxs hcoded ((List.prefix_append_right_inj _).1 h)⟩

/-! The size of a stream (R83). -/

theorem length_emit (code : Table Codeword) (xs : List Byte) :
    (emit code xs).length = (xs.map fun x => (code.at x).length).sum := by
  rw [emit_eq_flatten, List.length_flatten, List.map_map]
  rfl

/-- Every codeword has at least one bit. -/
theorem length_le_length_emit {code : Table Codeword} {xs : List Byte} (h : allCoded code xs) :
    xs.length ≤ (emit code xs).length := by
  rw [length_emit, ← List.length_map fun x => (code.at x).length]
  refine List.length_le_sum_of_one_le _ fun n hn => ?_
  obtain ⟨x, hx, rfl⟩ := List.mem_map.1 hn
  exact List.length_pos_iff.2 (h x hx)

theorem length_emit_le {code : Table Codeword} {k : Nat} (h : ∀ x, (code.at x).length ≤ k) (xs : List Byte) :
    (emit code xs).length ≤ k * xs.length := by
  rw [length_emit, Nat.mul_comm, ← List.length_map fun x => (code.at x).length]
  refine List.sum_le_card_nsmul _ k fun n hn => ?_
  obtain ⟨x, -, rfl⟩ := List.mem_map.1 hn
  exact h x

/-- A sum over the bytes of `xs`, gathered by the entries of a list without repetition that has them all. -/
theorem sum_map_eq_sum_count_mul {l xs : List Byte} (hl : l.Nodup) (hmem : ∀ x ∈ xs, x ∈ l) (g : Byte → Nat) :
    (xs.map g).sum = (l.map fun x => xs.count x * g x).sum := by
  rw [Finset.sum_list_map_count, ← List.sum_toFinset _ hl]
  refine Finset.sum_subset (fun x hx => List.mem_toFinset.2 (hmem x (List.mem_toFinset.1 hx))) fun x _ hx => ?_
  rw [List.count_eq_zero.2 fun h => hx (List.mem_toFinset.2 h), zero_smul]

/-! The input (R81). -/

theorem State.bytesAt_add (s : State) (a m n : Nat) : s.bytesAt a (m + n) = s.bytesAt a m ++ s.bytesAt (a + m) n := by
  simp only [State.bytesAt, List.range_add, List.map_append, List.map_map, Nat.add_assoc]
  rfl

theorem State.bytesAt_succ (s : State) (a n : Nat) : s.bytesAt a (n + 1) = s.readByte a :: s.bytesAt (a + 1) n := by
  rw [Nat.add_comm n 1, State.bytesAt_add]
  rfl

theorem allCoded_bytesAt_iff (code : Table Codeword) (s : State) (a n : Nat) :
    allCoded code (s.bytesAt a n) ↔ ∀ i < n, code.at (s.readByte (a + i)) ≠ [] := by
  simp only [allCoded, State.bytesAt, List.forall_mem_map, List.mem_range]

theorem emit_bytesAt (code : Table Codeword) (s : State) (a n : Nat) :
    emit code (s.bytesAt a n) = ((List.range n).map fun i => code.at (s.readByte (a + i))).flatten := by
  rw [emit_eq_flatten, State.bytesAt, List.map_map]
  rfl

/-- The sizing pass over a range stops at the first byte without a codeword, at its offset (R81). -/
theorem sizing_bytesAt_absent {code : Table Codeword} {s : State} {a n i : Nat} (hi : i < n) (hn : n ≤ 2 ^ 24)
    (habsent : code.at (s.readByte (a + i)) = []) (hcoded : ∀ j < i, code.at (s.readByte (a + j)) ≠ []) :
    sizing code 0 0 (s.bytesAt a n) = .error ⟨.absentSymbol, s.readByte (a + i) ++ BitVec.ofNat 24 i⟩ := by
  obtain ⟨m, rfl⟩ : ∃ m, n = i + (m + 1) := ⟨n - i - 1, by omega⟩
  have hinfo : BitVec.ofNat 32 ((s.readByte (a + i)).toNat * 2 ^ 24 + i) = s.readByte (a + i) ++ BitVec.ofNat 24 i := by
    have hbyte := (s.readByte (a + i)).isLt
    refine BitVec.eq_of_toNat_eq ?_
    rw [BitVec.toNat_append, ← Nat.shiftLeft_add_eq_or_of_lt (BitVec.isLt _), Nat.shiftLeft_eq, BitVec.toNat_ofNat,
      BitVec.toNat_ofNat]
    omega
  rw [State.bytesAt_add, State.bytesAt_succ, sizing_absent ((allCoded_bytesAt_iff code s a i).2 hcoded) habsent,
    State.length_bytesAt, Nat.zero_add, hinfo]

/-! The range checks (R87). -/

theorem State.outputOut_iff (s : State) (n : Nat) : s.outputOut n = true ↔ s.config.bufBytes < s.dst.toNat + n :=
  decide_eq_true_iff

theorem State.overlaps_iff (s : State) (n : Nat) : s.overlaps n = true ↔
    0 < s.len.toNat ∧ 0 < n ∧ s.src.toNat < s.dst.toNat + n ∧ s.dst.toNat < s.src.toNat + s.len.toNat :=
  decide_eq_true_iff

/-! The completion of ENCODE at each of its checks in turn, and at its end (R81). -/

section
variable {s : State} {b : Built} (ht : s.tree = some b)
include ht

theorem exec_encode_of_range (h : s.config.bufBytes < s.src.toNat + s.len.toNat) :
    exec .encode s = .next (s.completed (encode .encode) .range 0#32 0 0 s.buf) := by
  simp only [exec_eq, bodyOf, encodeBody, ht]
  rw [if_pos (s.inputOut_iff.2 h), complete_raised_eq s _ _ (by decide)]

variable (hin : s.src.toNat + s.len.toNat ≤ s.config.bufBytes)
include hin

theorem exec_encode_of_absent {info : Word} (h : sizing b.code 0 0 s.input = .error ⟨.absentSymbol, info⟩) :
    exec .encode s = .next (s.completed (encode .encode) .absentSymbol info 0 0 s.buf) := by
  simp only [exec_eq, bodyOf, encodeBody, ht, h]
  rw [if_neg (s.inputOut_iff.not.2 hin.not_gt), ← complete_raised_eq s _ _ (by decide)]
  rfl

variable (hc : allCoded b.code s.input)
include hc

/-- With every input byte coded, what is left of ENCODE are the checks on the output range. -/
theorem encodeBody_of_allCoded : encodeBody s =
    if s.outputOut (ceilDiv8 (emit b.code s.input).length) then .raised (s.setResult 0 0) .range 1#32
    else if s.overlaps (ceilDiv8 (emit b.code s.input).length) then .raised (s.setResult 0 0) .overlap 0#32
    else .ok (((s.setResult 0 0).putBits s.dst.toNat (emit b.code s.input)).setResult
      (emit b.code s.input).length (ceilDiv8 (emit b.code s.input).length)) := by
  simp only [encodeBody, ht, sizing_ok hc, Nat.zero_add]
  exact if_neg (s.inputOut_iff.not.2 hin.not_gt)

theorem exec_encode_of_outputOut
    (h : s.config.bufBytes < s.dst.toNat + ceilDiv8 (emit b.code s.input).length) :
    exec .encode s = .next (s.completed (encode .encode) .range 1#32 0 0 s.buf) := by
  rw [exec_eq, bodyOf, encodeBody_of_allCoded ht hin hc, if_pos ((s.outputOut_iff _).2 h),
    complete_raised_eq s _ _ (by decide)]

variable (hout : s.dst.toNat + ceilDiv8 (emit b.code s.input).length ≤ s.config.bufBytes)
include hout

theorem exec_encode_of_overlaps (h : s.overlaps (ceilDiv8 (emit b.code s.input).length) = true) :
    exec .encode s = .next (s.completed (encode .encode) .overlap 0#32 0 0 s.buf) := by
  rw [exec_eq, bodyOf, encodeBody_of_allCoded ht hin hc, if_neg ((s.outputOut_iff _).not.2 hout.not_gt), if_pos h,
    complete_raised_eq s _ _ (by decide)]

theorem exec_encode_of_fits (h : ¬ s.overlaps (ceilDiv8 (emit b.code s.input).length) = true) :
    exec .encode s = .next (s.completed (encode .encode) .noError 0#32 (emit b.code s.input).length
      (ceilDiv8 (emit b.code s.input).length) ((s.setResult 0 0).putBits s.dst.toNat (emit b.code s.input)).buf) := by
  rw [exec_eq, bodyOf, encodeBody_of_allCoded ht hin hc, if_neg ((s.outputOut_iff _).not.2 hout.not_gt), if_neg h,
    putBits_eq, ← complete_ok_eq]
  rfl

end

end Sys2Proof.Machine
end

section
/-!
The statements on ENCODE.
-/

namespace Sys2Proof.Machine

/-- Settles O47: the checks in turn, then BUF as PutBits leaves it. -/
theorem encodePacksTheCodewords : Obligations.EncodePacksTheCodewords := by
  refine fun s => ⟨exec_encode_of_invalid, fun b ht => ⟨exec_encode_of_range ht, fun hin => ⟨?_, ?_⟩⟩⟩
  · intro i hi habsent hcoded
    obtain ⟨-, -, hbuf⟩ := bufBytes_range s.config
    exact exec_encode_of_absent ht hin (sizing_bytesAt_absent hi (by omega) habsent hcoded)
  · rintro c _ hcoded hstream rfl
    have hc : allCoded b.code s.input := (allCoded_bytesAt_iff _ _ _ _).2 hcoded
    obtain rfl : c = emit b.code s.input := hstream.trans (emit_bytesAt _ _ _ _).symm
    refine ⟨exec_encode_of_outputOut ht hin hc, fun hout => ⟨fun hov => ?_, fun hov => ?_⟩⟩
    · exact exec_encode_of_overlaps ht hin hc hout ((s.overlaps_iff _).2 hov)
    · refine ⟨_, exec_encode_of_fits ht hin hc hout ((s.overlaps_iff _).not.2 hov), rfl, ?_⟩
      obtain ⟨-, hput⟩ := putBitsPacksMsbFirst
      obtain ⟨hbits, hpad, hframe, -⟩ := hput _ _ s.dst.toNat _ (putBits_eq (s.setResult 0 0) _ _).symm
      refine ⟨fun j hj => ?_, fun j hlen hj => (hpad j hlen hj).2, hframe⟩
      rw [Nat.zero_add]
      exact (hbits j hj).2

/-- Settles O48: no codeword of a built tree begins another's, and equal streams begin each other. -/
theorem streamsParseUniquely : Obligations.StreamsParseUniquely := by
  intro f xs ys hxs hys
  have parse {us vs : List Byte} := isPrefix_of_emit_isPrefix (buildTree_prefixFree f) (xs := us) (ys := vs)
  refine ⟨fun h => ?_, parse hxs hys⟩
  exact (parse hxs hys (h ▸ List.prefix_rfl)).eq_of_length_le
    (parse hys hxs (h ▸ List.prefix_rfl)).length_le

/-- Settles O49: each codeword has 1 to 255 bits, and the counts gather the input's bytes by symbol. -/
theorem encodedSizeBounds : Obligations.EncodedSizeBounds := by
  intro f xs h
  obtain ⟨-, h255⟩ := depthIsBelowTheLeafCount f
  refine ⟨length_le_length_emit h, length_emit_le h255 xs, fun hcount => ?_⟩
  rw [length_emit, sum_map_eq_sum_count_mul symbols_nodup fun x _ => mem_symbols x]
  simp only [hcount]

end Sys2Proof.Machine
end

section
/-!
SUPPORT. The decoder: streams read alike, one symbol and the decoding loop on a stream of codewords, and the completion
of DECODE at each of its checks (R84).
-/

namespace Sys2Proof.Machine

/-! Streams and written bytes. -/

/-- A stream depends on the bytes that hold it only, wherever they stand. -/
theorem State.streamHas_congr {s t : State} {a b n k : Nat} {c : Codeword}
    (h : ∀ j < n, t.readByte (b + j) = s.readByte (a + j)) (hl : k + c.length ≤ 8 * n) :
    t.streamHas b k c ↔ s.streamHas a k c := by
  refine forall₂_congr fun j hj => ?_
  rw [State.bitAt, State.bitAt, h _ (by omega)]

/-- Ranges that read as the same list agree byte by byte. -/
theorem State.readByte_of_bytesAt_eq {s t : State} {a b n : Nat} (h : t.bytesAt b n = s.bytesAt a n) :
    ∀ j < n, t.readByte (b + j) = s.readByte (a + j) :=
  fun j hj => List.map_inj_left.1 h j (List.mem_range.2 hj)

/-- No whole codeword stands in the stream at bit `n` before its end at `limit`. -/
def State.NoCodewordAt (s : State) (code : Table Codeword) (src limit n : Nat) : Prop :=
  ∀ x, code.at x ≠ [] → n + (code.at x).length ≤ limit → ¬ s.streamHas src n (code.at x)

theorem State.NoCodewordAt.congr {s t : State} {code : Table Codeword} {a b len n : Nat}
    (hno : s.NoCodewordAt code a (8 * len) n) (h : ∀ j < len, t.readByte (b + j) = s.readByte (a + j)) :
    t.NoCodewordAt code b (8 * len) n :=
  fun x hx hl hs => hno x hx hl ((State.streamHas_congr h hl).1 hs)

theorem State.bytesAt_writeBytes (s : State) (a : Nat) (vs : List Byte) :
    (s.writeBytes a vs).bytesAt a vs.length = vs := by
  refine State.bytesAt_eq fun i hi => ?_
  rw [State.readByte_writeBytes, if_pos (by omega), Nat.add_sub_cancel_left, List.getD_eq_getElem _ _ hi]

theorem State.readByte_writeBytes_outside (s : State) {a b : Nat} {vs : List Byte} (h : b < a ∨ a + vs.length ≤ b) :
    (s.writeBytes a vs).readByte b = s.readByte b := by
  rw [State.readByte_writeBytes, if_neg (by omega)]

theorem State.readByte_completed_writeBytes (s : State) (a : Nat) (vs : List Byte) (w : Word) (c : Cause) (info : Word)
    (bits bytes b : Nat) :
    (s.completed w c info bits bytes (s.writeBytes a vs).buf).readByte b = (s.writeBytes a vs).readByte b := by
  rw [State.readByte, State.readByte, State.epoch_writeBytes]
  rfl

/-- A command that completed with the bytes `vs` written at `a` left these bytes there and changed no other. -/
theorem State.completed_writeBytes (s : State) (a : Nat) (vs : List Byte) (w : Word) (c : Cause) (info : Word)
    (bits bytes : Nat) :
    (s.completed w c info bits bytes (s.writeBytes a vs).buf).bytesAt a vs.length = vs ∧
      sameBufOutside s (s.completed w c info bits bytes (s.writeBytes a vs).buf) a vs.length := by
  have hread := s.readByte_completed_writeBytes a vs w c info bits bytes
  exact ⟨(State.bytesAt_congr fun i _ => hread (a + i)).trans (s.bytesAt_writeBytes a vs),
    fun k hk => (hread k).trans (s.readByte_writeBytes_outside hk)⟩

/-- A raise after writes to BUF and the result counts is the completed state with that cause. -/
theorem complete_some_eq (s : State) (w : Word) (bits bytes : Nat) (m : Memory) {e : CmdError}
    (h : e.cause ≠ .noError) :
    (Ran.mk { s.setResult bits bytes with buf := m } (some e)).complete w =
      s.completed w e.cause e.info bits bytes m := by
  simp [State.completed, opField, State.setResult, h]

/-! One symbol (R84). -/

/-- The raise of a descent at bit `n` that meets no codeword: BAD_CODE where a single leaf reads a 0, TRUNCATED at the
end of the input. -/
def CodeTree.stop (root : CodeTree) (limit n : Nat) : CmdError :=
  if n < limit ∧ root.isLeaf = true then ⟨.badCode, BitVec.ofNat 32 n⟩ else ⟨.truncated, BitVec.ofNat 32 limit⟩

theorem CodeTree.stop_cause_ne_noError (root : CodeTree) (limit n : Nat) : (root.stop limit n).cause ≠ .noError := by
  rw [CodeTree.stop]
  split <;> exact Cause.noConfusion

section
variable {s : State} {src limit n : Nat} {root : CodeTree} (hn : root.leaves.Nodup)
include hn

/-- A codeword that the stream holds and the input covers gives its symbol. -/
theorem nextSymbol_of_codeword {x : Byte} (hx : (codes (some root)).at x ≠ [])
    (hs : s.streamHas src n ((codes (some root)).at x)) (hl : n + ((codes (some root)).at x).length ≤ limit) :
    nextSymbol s src limit root n = .ok (x, n + ((codes (some root)).at x).length) := by
  have hmem := (codes_at_ne_nil_iff hn x).1 hx
  cases root with
  | leaf y w =>
    obtain rfl : x = y := by simpa using hmem
    rw [codes_leaf_at, if_pos rfl] at hs hl ⊢
    obtain ⟨hbit, -⟩ := (s.streamHas_cons src n true []).1 hs
    rw [nextSymbol, if_neg (Nat.not_le.2 hl), if_pos hbit]
    rfl
  | node i y w l r => exact descend_ok (follow_codes_at hn hmem) hs hl

/-- Where the rest of the stream holds no whole codeword, the next symbol is a raise. -/
theorem nextSymbol_of_no_codeword (hle : n ≤ limit)
    (hno : s.NoCodewordAt (codes (some root)) src limit n) :
    nextSymbol s src limit root n = .error (root.stop limit n) := by
  cases root with
  | leaf y w =>
    rw [nextSymbol, CodeTree.stop]
    rcases hle.eq_or_lt with rfl | hlt
    · rw [if_pos le_rfl, if_neg fun h => lt_irrefl _ h.1]
    · have hbit : ¬ s.bitAt src n = true := fun hbit => by
        have hno := hno y
        rw [codes_leaf_at, if_pos rfl] at hno
        exact hno (by simp) hlt ((s.streamHas_cons src n true []).2 ⟨hbit, fun j hj => absurd hj (Nat.not_lt_zero j)⟩)
      rw [if_neg hlt.not_ge, if_neg hbit, if_pos ⟨hlt, rfl⟩]
  | node i y w l r =>
    rcases descend_cases s src limit (.node i y w l r) hle with ⟨p, x, hp, hs, hl, -⟩ | h
    · obtain rfl := (codes_node_at hn x).1 p hp
      exact absurd hs (hno x (CodeTree.follow_node_ne_nil hp) hl)
    · rw [CodeTree.stop, if_neg fun hleaf => Bool.false_ne_true hleaf.2]
      exact h

/-! The decoding loop (R84). -/

/-- The loop decodes a stream of codewords to their symbols and goes on after them: it writes off the input, so what it
reads next is the stream it was given. -/
theorem decodeLoop_of_emit {dst len i t m : Nat} {xs : List Byte} (hc : allCoded (codes (some root)) xs)
    (hs : s.streamHas src t (emit (codes (some root)) xs))
    (hl : t + (emit (codes (some root)) xs).length ≤ 8 * len)
    (hoff : ∀ j < len, src + j < dst + i ∨ dst + i + xs.length ≤ src + j) :
    decodeLoop src (8 * len) dst root (xs.length + m) i t (s.setResult t i) =
      decodeLoop src (8 * len) dst root m (i + xs.length) (t + (emit (codes (some root)) xs).length)
        ((s.writeBytes (dst + i) xs).setResult (t + (emit (codes (some root)) xs).length) (i + xs.length)) := by
  induction xs generalizing i t s with
  | nil => simp only [List.length_nil, Nat.zero_add, Nat.add_zero, emit, State.writeBytes]
  | cons x xs ih =>
    obtain ⟨hx, hxs⟩ := allCoded_cons.1 hc
    rw [emit, State.streamHas_append] at hs
    rw [emit, List.length_append] at hl
    simp only [List.length_cons] at hoff
    obtain ⟨hsx, hsxs⟩ := hs
    have hread : ∀ j < len, (s.writeByte (dst + i) x).readByte (src + j) = s.readByte (src + j) :=
      fun j hj => s.readByte_writeByte_ne x (by have := hoff j hj; omega)
    have hnext : nextSymbol (s.setResult t i) src (8 * len) root t = _ :=
      nextSymbol_of_codeword hn hx hsx (by omega)
    have hrest := ih (s := s.writeByte (dst + i) x) (i := i + 1) hxs
      ((State.streamHas_congr hread (by omega)).2 hsxs) (by omega) fun j hj => by have := hoff j hj; omega
    rw [List.length_cons, Nat.add_right_comm, decodeLoop, hnext, emit, List.length_append, ← Nat.add_assoc t,
      Nat.add_comm xs.length 1, ← Nat.add_assoc i]
    exact hrest

/-- Where no whole codeword follows, the loop ends with the raise and keeps what it did. -/
theorem decodeLoop_of_no_codeword {dst m i : Nat} (hle : n ≤ limit)
    (hno : s.NoCodewordAt (codes (some root)) src limit n) :
    decodeLoop src limit dst root (m + 1) i n s = ⟨s, some (root.stop limit n)⟩ := by
  rw [decodeLoop, nextSymbol_of_no_codeword hn hle hno]

end

/-! DECODE up to the descent (R84, R91). -/

section
variable {s : State} {b : Built}

theorem decodeRooted_of_outputOut (h : s.config.bufBytes < s.dst.toNat + b.total) :
    decodeRooted s b.root = .raised (s.setResult 0 0) .range 1#32 := by
  obtain ⟨_ | root, code⟩ := b
  all_goals exact if_pos ((s.outputOut_iff _).2 h)

variable (hout : s.dst.toNat + b.total ≤ s.config.bufBytes)
include hout

theorem decodeRooted_of_overlaps (h : s.overlaps b.total = true) :
    decodeRooted s b.root = .raised (s.setResult 0 0) .overlap 0#32 := by
  obtain ⟨_ | root, code⟩ := b
  all_goals exact (if_neg ((s.outputOut_iff _).not.2 hout.not_gt)).trans (if_pos h)

theorem decodeRooted_of_empty (hr : b.root = none) : decodeRooted s b.root = .ok (s.setResult 0 0) := by
  obtain ⟨_, code⟩ := b
  obtain rfl := hr
  have hov : ¬ s.overlaps 0 = true := fun h => lt_irrefl 0 ((s.overlaps_iff 0).1 h).2.1
  exact (if_neg ((s.outputOut_iff _).not.2 hout.not_gt)).trans (if_neg hov)

theorem decodeRooted_of_root {root : CodeTree} (hr : b.root = some root) (h : ¬ s.overlaps b.total = true) :
    decodeRooted s b.root =
      decodeLoop s.src.toNat (8 * s.len.toNat) s.dst.toNat root b.total 0 0 (s.setResult 0 0) := by
  obtain ⟨_, code⟩ := b
  obtain rfl := hr
  exact (if_neg ((s.outputOut_iff _).not.2 hout.not_gt)).trans (if_neg h)

end

section
variable {s : State} {b : Built} (ht : s.tree = some b)
include ht

theorem exec_decode_of_range (h : s.config.bufBytes < s.src.toNat + s.len.toNat) :
    exec .decode s = .next (s.completed (encode .decode) .range 0#32 0 0 s.buf) := by
  simp only [exec_eq, bodyOf, decodeBody, ht]
  rw [if_pos (s.inputOut_iff.2 h), complete_raised_eq s _ _ (by decide)]

variable (hin : s.src.toNat + s.len.toNat ≤ s.config.bufBytes)
include hin

/-- With the input inside BUF, what is left of DECODE depends on the root. -/
theorem exec_decode_of_tree : exec .decode s = .next ((decodeRooted s b.root).complete (encode .decode)) := by
  simp only [exec_eq, bodyOf, decodeBody, ht]
  rw [if_neg (s.inputOut_iff.not.2 hin.not_gt)]

theorem exec_decode_of_outputOut (h : s.config.bufBytes < s.dst.toNat + b.total) :
    exec .decode s = .next (s.completed (encode .decode) .range 1#32 0 0 s.buf) := by
  rw [exec_decode_of_tree ht hin, decodeRooted_of_outputOut h, complete_raised_eq s _ _ (by decide)]

variable (hout : s.dst.toNat + b.total ≤ s.config.bufBytes)
include hout

theorem exec_decode_of_overlaps (h : s.overlaps b.total = true) :
    exec .decode s = .next (s.completed (encode .decode) .overlap 0#32 0 0 s.buf) := by
  rw [exec_decode_of_tree ht hin, decodeRooted_of_overlaps hout h, complete_raised_eq s _ _ (by decide)]

theorem exec_decode_of_empty (hr : b.root = none) :
    exec .decode s = .next (s.completed (encode .decode) .noError 0#32 0 0 s.buf) := by
  rw [exec_decode_of_tree ht hin, decodeRooted_of_empty hout hr, ← complete_ok_eq]
  rfl

end

/-! DECODE of a stream of codewords (R84, R86). -/

section
variable {s : State} {f : Table Word} {xs : List Byte} (hready : s.decodeReady f)
include hready

/-- The input is off every output of at most WEIGHT(ROOT) bytes. -/
theorem State.decodeReady.input_off_output {n : Nat} (hn : n ≤ (buildTree f).total) :
    ∀ j < s.len.toNat, s.src.toNat + j < s.dst.toNat ∨ s.dst.toNat + n ≤ s.src.toNat + j := by
  obtain ⟨-, -, -, hov⟩ := hready
  intro j hj
  omega

variable {c : Codeword} (hc : allCoded (buildTree f).code xs) (hemit : c = emit (buildTree f).code xs)
  (hl : c.length ≤ 8 * s.len.toNat) (hs : s.streamHas s.src.toNat 0 c)
include hc hemit hl hs

/-- DECODE of a stream that begins with the codewords of `xs`: they are written and counted, and the loop goes on after
them for the symbols that are left. -/
theorem exec_decode_of_emit {root : CodeTree} (hr : buildRoot f = some root) {m : Nat}
    (hm : xs.length + m = (buildTree f).total) :
    exec .decode s = .next ((decodeLoop s.src.toNat (8 * s.len.toNat) s.dst.toNat root m xs.length c.length
      ((s.writeBytes s.dst.toNat xs).setResult c.length xs.length)).complete (encode .decode)) := by
  have hoff := hready.input_off_output (n := xs.length) (by omega)
  obtain ⟨ht, hin, hout, hov⟩ := hready
  rw [buildTree_code_of_root hr] at hc hemit
  subst hemit
  rw [exec_decode_of_tree ht hin, decodeRooted_of_root hout hr ((s.overlaps_iff _).not.2 hov), ← hm,
    decodeLoop_of_emit (buildRoot_leaves_nodup hr) hc hs (by rwa [Nat.zero_add]) hoff]
  simp only [Nat.zero_add, Nat.add_zero]

/-- A stream that begins with the codewords of WEIGHT(ROOT) symbols decodes to them. -/
theorem exec_decode_of_whole (hlen : xs.length = (buildTree f).total) :
    exec .decode s = .next (s.completed (encode .decode) .noError 0#32 c.length xs.length
      (s.writeBytes s.dst.toNat xs).buf) := by
  cases hr : buildRoot f with
  | none =>
    obtain ⟨ht, hin, hout, -⟩ := hready
    obtain rfl : xs = [] := List.eq_nil_of_length_eq_zero (by rw [hlen, Built.total, buildTree, hr])
    subst hemit
    exact exec_decode_of_empty ht hin hout hr
  | some root =>
    rw [exec_decode_of_emit hready hc hemit hl hs hr (m := 0) hlen, decodeLoop, State.writeBytes_eq, ← complete_ok_eq]
    rfl

/-- After the codewords of fewer symbols, a stream that holds no whole codeword raises. -/
theorem exec_decode_of_part {root : CodeTree} (hr : buildRoot f = some root) (hlen : xs.length < (buildTree f).total)
    (hno : s.NoCodewordAt (buildTree f).code s.src.toNat (8 * s.len.toNat) c.length) :
    exec .decode s = .next (s.completed (encode .decode) (root.stop (8 * s.len.toNat) c.length).cause
      (root.stop (8 * s.len.toNat) c.length).info c.length xs.length (s.writeBytes s.dst.toNat xs).buf) := by
  obtain ⟨m, hm⟩ := Nat.exists_eq_add_of_lt hlen
  have hread : ∀ j < s.len.toNat, ((s.writeBytes s.dst.toNat xs).setResult c.length xs.length).readByte
      (s.src.toNat + j) = s.readByte (s.src.toNat + j) :=
    fun j hj => s.readByte_writeBytes_outside (hready.input_off_output hlen.le j hj)
  rw [exec_decode_of_emit hready hc hemit hl hs hr (m := m + 1) hm.symm,
    decodeLoop_of_no_codeword (buildRoot_leaves_nodup hr) hl (buildTree_code_of_root hr ▸ hno.congr hread),
    State.writeBytes_eq, ← complete_some_eq s _ _ _ _ (root.stop_cause_ne_noError _ _)]
  rfl

end

/-! The round trip (R85). -/

/-- WEIGHT(ROOT) of a built tree is the sum of FREQ (R71), also when there is no root. -/
theorem total_buildTree (f : Table Word) : (buildTree f).total = freqTotal f := by
  rcases buildRoot_cases f with ⟨hempty, hr⟩ | ⟨r, hr, -⟩
  · rw [Built.total, buildTree, hr, ← sum_presentSymbols, hempty]
    rfl
  · obtain ⟨-, htotal⟩ := weightsAreExactSums f r hr
    rw [Built.total, buildTree, hr]
    exact htotal

/-- An ENCODE that records no cause left the stream of its input's codewords at DST, and counted it (R81). -/
theorem stream_of_encode_noError {s t : State} {b : Built} (ht : s.tree = some b) (h : exec .encode s = .next t)
    (hok : t.errCause = .noError) :
    allCoded b.code s.input ∧ t.tree = some b ∧ t.streamHas s.dst.toNat 0 (emit b.code s.input) ∧
      t.resBits = BitVec.ofNat 32 (emit b.code s.input).length ∧
      (emit b.code s.input).length ≤ 8 * t.resBytes.toNat := by
  obtain rfl := eq_complete_of_exec h
  rw [bodyOf] at hok ⊢
  rcases encodeBody_cases s with ⟨c, info, hcause, hb⟩ | ⟨b', hb', -, hcoded, hout, -, hb⟩
  · rw [hb] at hok
    exact absurd hok hcause
  · obtain rfl : b' = b := Option.some.inj (hb'.symm.trans ht)
    have hfit : s.dst.toNat + ceilDiv8 (emit b'.code s.input).length ≤ s.config.bufBytes :=
      Nat.not_lt.1 ((s.outputOut_iff _).not.1 (Bool.eq_false_iff.1 hout))
    obtain ⟨-, -, hbuf⟩ := bufBytes_range s.config
    rw [hb]
    refine ⟨hcoded, ?_, fun j hj => ?_, rfl, ?_⟩
    · rw [putBits_eq]
      exact ht
    · rw [Nat.zero_add]
      exact bitAt_putBits (s.setResult 0 0) _ _ (by rw [ceilDiv8]; omega)
    · rw [Ran.complete_resBytes, Ran.ok_state, State.setResult_resBytes, BitVec.toNat_ofNat,
        Nat.mod_eq_of_lt (by omega), ceilDiv8]
      omega

/-- A COUNT of a cleared FREQ that records no cause leaves a sum of LEN (R62). -/
theorem freqTotal_of_clrfreq_count {s s1 s1' s2 : State} (hclr : exec .clrfreq s = .next s1) (hf : s1'.freq = s1.freq)
    (hcount : exec .count s1' = .next s2) (hok : s2.errCause = .noError) : freqTotal s2.freq = s1'.len.toNat := by
  obtain ⟨hzero, -⟩ := freqTotalCountsTheBytes s s1
  obtain ⟨-, hsum⟩ := freqTotalCountsTheBytes s1' s2
  rw [hsum hcount hok, hf, hzero hclr, Nat.zero_add]

end Sys2Proof.Machine
end

section
/-!
The statements on DECODE.
-/

namespace Sys2Proof.Machine

/-- Settles O50: the checks in turn, on the total of the tree. -/
theorem decodeChecksInOrder : Obligations.DecodeChecksInOrder := by
  refine fun s => ⟨exec_decode_of_invalid, fun b ht => ⟨exec_decode_of_range ht, fun hin => ?_⟩⟩
  refine ⟨exec_decode_of_outputOut ht hin, fun hout => ⟨fun hov => ?_, exec_decode_of_empty ht hin hout⟩⟩
  exact exec_decode_of_overlaps ht hin hout ((s.overlaps_iff _).2 hov)

/-- Settles O51: the loop decodes the codewords, and WEIGHT(ROOT) symbols are all it was to decode. -/
theorem decodeReadsTheCodewords : Obligations.DecodeReadsTheCodewords := by
  intro s f xs c hready hlen hc hemit hl hs
  exact ⟨_, exec_decode_of_whole hready hc hemit hl hs hlen, rfl, s.completed_writeBytes _ xs _ _ _ _ _⟩

/-- Settles O52: the loop goes on after the symbols it decoded, and the next one raises. -/
theorem decodeStopsWhereTheStreamDoes : Obligations.DecodeStopsWhereTheStreamDoes := by
  intro s f xs c hready hlen hc hemit hl hs hno
  cases hr : buildRoot f with
  | none =>
    rw [Built.total, buildTree, hr] at hlen
    exact absurd hlen (Nat.not_lt_zero _)
  | some root =>
    have hleaf : root.isLeaf = true ↔ ∃ x w, some root = some (.leaf x w) := by
      cases root <;> simp [CodeTree.isLeaf]
    obtain ⟨hbytes, hframe⟩ := s.completed_writeBytes s.dst.toNat xs (encode .decode) _ _ _ _
    refine ⟨_, _, _, exec_decode_of_part hready hc hemit hl hs hr hlen hno, rfl, hbytes, hframe, ?_⟩
    rw [← hleaf, CodeTree.stop]
    exact ⟨fun h => by rw [if_pos h]; exact ⟨rfl, rfl⟩, fun h => by rw [if_neg h]; exact ⟨rfl, rfl⟩⟩

/-- Settles O53: the total of the tree is the length of `xs`, and the stream DECODE reads begins with the codewords that
ENCODE left. -/
theorem roundTripReproducesTheInput : Obligations.RoundTripReproducesTheInput := by
  rintro s s1 s1' s2 s2' s3 s3' s4 s4' xs hclr hf1 hx1 hcount hok2 hf2 hbuild ht3 hx3 hencode hok4 ht4 hstream hlen hin
    hout hapart
  have htree : s3'.tree = some (buildTree s2'.freq) := by
    obtain rfl := eq_complete_of_exec hbuild
    exact ht3
  have htotal : xs.length = (buildTree s2'.freq).total := by
    rw [total_buildTree, hf2, freqTotal_of_clrfreq_count hclr hf1 hcount hok2, ← hx1, State.length_bytesAt]
  obtain ⟨hcoded, htree4, hemit, hbits, hbytes⟩ := stream_of_encode_noError htree hencode hok4
  rw [State.input, hx3] at hcoded hemit hbits hbytes
  have hready : s4'.decodeReady s2'.freq := by
    refine ⟨ht4.trans htree4, hin, htotal ▸ hout, ?_⟩
    rw [← htotal]
    omega
  have hs : s4'.streamHas s4'.src.toNat 0 (emit (buildTree s2'.freq).code xs) :=
    (State.streamHas_congr (State.readByte_of_bytesAt_eq hstream) (by omega)).2 hemit
  obtain ⟨hwritten, -⟩ := s4'.completed_writeBytes s4'.dst.toNat xs (encode .decode) .noError 0#32
    (emit (buildTree s2'.freq).code xs).length xs.length
  obtain ⟨-, -, hbuf⟩ := bufBytes_range s4'.config
  refine ⟨_, exec_decode_of_whole hready hcoded rfl (by omega) hs htotal, rfl, hwritten, ?_, hbits.symm⟩
  exact (BitVec.toNat_ofNat _ _).trans (Nat.mod_eq_of_lt (by omega))

end Sys2Proof.Machine
end

section
/-!
SUPPORT. What one step does to OVR, the turns and PENDING, the result registers as the host reads them, and the end of
a run (spec/60_exceptions.md R87 to R90, R98).
-/

namespace Sys2Proof.Machine

/-! The result registers (R22, R23, R24). -/

theorem hostRead_errinfo (s : State) : hostRead s (off 0x024) = s.errInfo := hostRead_register s (k := 9) (by decide)
theorem hostRead_resBits (s : State) : hostRead s (off 0x028) = s.resBits := hostRead_register s (k := 10) (by decide)
theorem hostRead_resBytes (s : State) : hostRead s (off 0x02C) = s.resBytes := hostRead_register s (k := 11) (by decide)

/-- A completion records the OP field of its word, the word's low four bits (R52, R89). -/
theorem Ran.toNat_complete_errOp (r : Ran) (w : Word) : (r.complete w).errOp.toNat = w.toNat % 16 := by
  rw [Ran.complete_errOp, BitVec.extractLsb'_toNat, Nat.shiftRight_zero]

/-! OVR (R90). -/

/-- What one step does to OVR: nothing, or a refused write sets it, reset clears it, or a host write of STATUS clears it
by bit 3 (R90, R94). -/
theorem step_ovr {s t : State} (h : step s = .next t) :
    t.ovr = s.ovr ∨
      ((s.pending ≠ none ∧ ∃ addr w o ts, s.turns = .write addr w :: ts ∧ busOffset s.config addr = some o ∧
        refusedOffset s.config (alignedOffset o)) ∧ t.ovr = true) ∨
      ((∃ ts, s.turns = .reset :: ts) ∧ t.ovr = false) ∨
      ∃ addr w o ts, s.turns = .write addr w :: ts ∧ busOffset s.config addr = some o ∧ alignedOffset o = 0x00C ∧
        t.ovr = (s.ovr && !w.getLsbD 3) := by
  rcases step_cases h with ⟨ts, w, -, -, he⟩ | ⟨ts, -, -, rfl⟩ | ⟨addr, ts, -, rfl⟩ | ⟨addr, w, ts, hts, rfl⟩ |
    ⟨ts, hts, rfl⟩
  · obtain ⟨-, -, -, -, -, hovr, -⟩ := bodyOf_frame (decode w) (s.setTurns ts)
    rw [eq_complete_of_exec he, Ran.complete_ovr]
    exact .inl hovr
  · exact .inl rfl
  · rw [readStep_eq]; exact .inl rfl
  · rcases writeStep_cases (s.setTurns ts) addr w with he | ⟨o, ho, ⟨hb, hr, he⟩ | ⟨-, he⟩⟩ <;> rw [he]
    · exact .inl rfl
    · exact .inr (.inl ⟨⟨(State.busy_iff s).1 hb, addr, w, o, ts, hts, ho, hr⟩, rfl⟩)
    · obtain ⟨-, -, hovr, -⟩ := writeTarget_effects (s.setTurns ts) w (targetAt (s.setTurns ts).config (alignedOffset o))
      rcases hovr with hovr | ⟨hstatus, hovr⟩
      · exact .inl hovr
      · obtain ⟨-, h4⟩ := alignedOffset_lt o
        exact .inr (.inr (.inr ⟨addr, w, o, ts, hts, ho, targetAt_eq_status h4 hstatus, hovr⟩))
  · exact .inr (.inr (.inl ⟨⟨ts, hts⟩, rfl⟩))

/-! Steps and turns. -/

/-- The engine's step has a next state, with a command pending or without (R93). -/
theorem exists_engineStep (s : State) : ∃ t, engineStep s = .next t := by
  cases hp : s.pending with
  | none => exact ⟨s, by rw [engineStep, State.fetch, hp]⟩
  | some w => exact ⟨_, (engineStep_of_pending hp).trans (exec_eq (decode w) s)⟩

/-- Every state has a next state: each turn has one, and so has the engine's step where no turn is left (R36, R93). -/
theorem exists_step (s : State) : ∃ t, step s = .next t := by
  unfold step
  cases s.turns with
  | nil => exact exists_engineStep s
  | cons a ts =>
    cases a with
    | read addr => exact ⟨_, rfl⟩
    | write addr w => exact ⟨_, rfl⟩
    | engine => exact exists_engineStep (s.setTurns ts)
    | reset => exact ⟨_, rfl⟩

/-- The turns after a step of the engine, be it one of the turns or what comes when none is left. -/
theorem eq_tail_of_engine {turns ts : List Turn} (h : turns = [] ∧ ts = [] ∨ turns = .engine :: ts) : ts = turns.tail := by
  rcases h with ⟨rfl, rfl⟩ | rfl <;> rfl

theorem turns_writeStep (s : State) (addr : Nat) (w : Word) : (writeStep s addr w).turns = s.turns := by
  rcases writeStep_cases s addr w with he | ⟨o, -, ⟨-, -, he⟩ | ⟨-, he⟩⟩ <;> rw [he]
  · rfl
  · obtain ⟨-, hturns, -⟩ := writeTarget_frame s w (targetAt s.config (alignedOffset o))
    exact hturns

/-- A step takes the first turn, if there is one, and leaves the others (R47). -/
theorem step_turns {s t : State} (h : step s = .next t) : t.turns = s.turns.tail := by
  rcases step_cases h with ⟨ts, w, hts, -, he⟩ | ⟨ts, hts, -, rfl⟩ | ⟨addr, ts, hts, rfl⟩ | ⟨addr, w, ts, hts, rfl⟩ |
    ⟨ts, hts, rfl⟩
  · obtain ⟨-, -, -, -, -, -, -, -, -, -, -, -, hturns, -⟩ := bodyOf_frame (decode w) (s.setTurns ts)
    rw [eq_complete_of_exec he, Ran.complete_turns, hturns]
    exact eq_tail_of_engine hts
  · exact eq_tail_of_engine hts
  · rw [readStep_eq, hts]; rfl
  · rw [turns_writeStep, hts]; rfl
  · rw [hts]; rfl

/-- With no turn left a step leaves no command pending: it completes one, or there was none (R108, log entry 2). -/
theorem step_pending_of_no_turn {s t : State} (hs : s.turns = []) (h : step s = .next t) : t.pending = none := by
  rcases step_cases h with ⟨ts, w, -, -, he⟩ | ⟨ts, -, hp, rfl⟩ | ⟨addr, ts, hts, -⟩ | ⟨addr, w, ts, hts, -⟩ |
    ⟨ts, hts, -⟩
  · rw [eq_complete_of_exec he, Ran.complete_pending]
  · exact hp
  all_goals rw [hs] at hts; cases hts

/-- Induction along a run: a property holds of every state if it holds where a single step leaves neither turn nor
pending command, and holds of a state whose step takes a turn when it holds of the next one. -/
theorem State.turns_induction {P : State → Prop}
    (last : ∀ s t : State, s.turns = [] → step s = .next t → t.turns = [] → t.pending = none → P s)
    (taken : ∀ s t : State, step s = .next t → s.turns.length = t.turns.length + 1 → P t → P s) (s : State) : P s := by
  obtain ⟨t, ht⟩ := exists_step s
  have hturns := step_turns ht
  induction hts : s.turns generalizing s t with
  | nil =>
    rw [hts] at hturns
    exact last s t hts ht hturns (step_pending_of_no_turn hts ht)
  | cons a ts ih =>
    rw [hts, List.tail_cons] at hturns
    obtain ⟨u, hu⟩ := exists_step t
    exact taken s t ht (by rw [hts, hturns, List.length_cons]) (ih t u hu (step_turns hu) hturns)

/-! The end of a run (R98). -/

theorem State.endsIn_zero {s : State} (h : s.final) : s.endsIn 0 s :=
  ⟨rfl, h, fun _ hk => absurd hk (Nat.not_lt_zero _)⟩

/-- A run whose first state is not final ends where the run from the second one does. -/
theorem State.endsIn_succ {s u t : State} {n : Nat} (hs : ¬ s.final) (hstep : step s = .next u) (h : u.endsIn n t) :
    s.endsIn (n + 1) t := by
  obtain ⟨hrun, hfinal, hfirst⟩ := h
  refine ⟨(core_run_succ hstep n).trans hrun, hfinal, fun k hk v hv => ?_⟩
  cases k with
  | zero => cases hv; exact hs
  | succ k => exact hfirst k (by omega) v ((core_run_succ hstep k).symm.trans hv)

/-- If the run from the next state ends, the run from this one ends at most one step later. -/
theorem State.exists_endsIn_of_step {s u t : State} {n : Nat} (hstep : step s = .next u) (h : u.endsIn n t) :
    ∃ m v, m ≤ n + 1 ∧ s.endsIn m v := by
  by_cases hs : s.final
  · exact ⟨0, s, Nat.zero_le _, State.endsIn_zero hs⟩
  · exact ⟨n + 1, t, le_rfl, State.endsIn_succ hs hstep h⟩

/-- The run from every state ends within one step for each turn and one more (R98, R108). -/
theorem exists_endsIn (s : State) : ∃ n t, n ≤ s.turns.length + 1 ∧ s.endsIn n t := by
  induction s using State.turns_induction with
  | last s t hs hstep hturns hp =>
    have ht : t.final := ⟨by rw [hturns]; exact fun _ h => absurd h List.not_mem_nil, hp⟩
    obtain ⟨m, v, hm, hv⟩ := State.exists_endsIn_of_step hstep (State.endsIn_zero ht)
    exact ⟨m, v, by omega, hv⟩
  | taken s u hstep hlen ih =>
    obtain ⟨n, t, hn, hends⟩ := ih
    obtain ⟨m, v, hm, hv⟩ := State.exists_endsIn_of_step hstep hends
    exact ⟨m, v, by omega, hv⟩

/-- One step for each turn and one more leave no turn and no pending command (R108, log entry 2). -/
theorem exists_run_no_turn (s : State) :
    ∃ t : State, Sys2Proof.core.run (s.turns.length + 1) s = .next t ∧ t.turns = [] ∧ t.pending = none := by
  induction s using State.turns_induction with
  | last s t hs hstep hturns hp =>
    rw [hs]
    exact ⟨t, core_run_succ hstep 0, hturns, hp⟩
  | taken s u hstep hlen ih =>
    obtain ⟨t, hrun, hend⟩ := ih
    rw [hlen]
    exact ⟨t, (core_run_succ hstep _).trans hrun, hend⟩

/-- A step from a final state takes an idle engine's turn or none, or is reset, and the next state is final. -/
theorem State.final.step {s t : State} (h : s.final) (hstep : Machine.step s = .next t) :
    t.final ∧ ((∃ ts, s.turns = .reset :: ts) ∨ t = { s with turns := s.turns.tail }) := by
  obtain ⟨hidle, hp⟩ := h
  have htail : ∀ a ∈ t.turns, a.isAccess = false := fun a ha =>
    hidle a (List.mem_of_mem_tail (step_turns hstep ▸ ha))
  have notAccess : ∀ {a ts}, s.turns = a :: ts → a.isAccess = false := fun {a ts} hts =>
    hidle a (hts ▸ List.mem_cons_self)
  rcases step_cases hstep with ⟨ts, w, -, hw, -⟩ | ⟨ts, hts, -, rfl⟩ | ⟨addr, ts, hts, -⟩ | ⟨addr, w, ts, hts, -⟩ |
    ⟨ts, hts, rfl⟩
  · rw [hp] at hw; cases hw
  · exact ⟨⟨htail, hp⟩, .inr (congrArg s.setTurns (eq_tail_of_engine hts))⟩
  · cases notAccess hts
  · cases notAccess hts
  · exact ⟨⟨htail, rfl⟩, .inl ⟨ts, hts⟩⟩

end Sys2Proof.Machine
end

section
/-!
The statements on acceptance, completion, OVR and the end of a run.
-/

namespace Sys2Proof.Machine

/-- Settles O26: each turn has a next state, and so has the engine's step. -/
theorem everyStepIsSafe : Obligations.EveryStepIsSafe := exists_step

/-- Settles O13: CMD is a register that R43 refuses while BUSY. -/
theorem acceptanceLatchesEveryWord : Obligations.AcceptanceLatchesEveryWord := by
  refine fun s w => ⟨fun hp => hostWrite_register_idle hp (k := 4) (by decide) w, fun hp => ?_⟩
  exact hostWrite_of_refused (State.busy_of_ne hp) w (.inl (by decide))

/-- Settles O16: of the four things a step can do to OVR, the refused write sets it, the STATUS write and reset clear
it. -/
theorem ovrIsSetByRefusedWritesAndSticky : Obligations.OvrIsSetByRefusedWritesAndSticky := by
  refine ⟨fun s o w hp hr => hostWrite_of_refused (State.busy_of_ne hp) w hr, fun s t hstep => ?_⟩
  rcases step_ovr hstep with he | ⟨hrefused, he⟩ | ⟨hreset, he⟩ | ⟨addr, w, o, ts, hts, ho, ha, he⟩ <;> rw [he]
  · exact ⟨fun h0 h1 => by simp [h0] at h1, fun h1 h0 => by simp [h1] at h0⟩
  · exact ⟨fun _ _ => hrefused, fun _ h => absurd h.symm Bool.false_ne_true⟩
  · exact ⟨fun _ h => absurd h Bool.false_ne_true, fun _ _ => .inl hreset⟩
  · exact ⟨fun h0 h1 => by simp [h0] at h1,
      fun h1 h0 => .inr ⟨addr, w, o, ts, hts, ho, ha, by rw [h1] at h0; simpa using h0⟩⟩

/-- Settles O28: the causes' numbers by evaluation, the reads register by register, and a completion's record from its
OP field and its outcome. -/
theorem completionRecordsTheOutcome : Obligations.CompletionRecordsTheOutcome := by
  refine ⟨rfl, rfl, rfl, rfl, rfl, rfl, rfl, rfl, rfl, fun s => ?_, fun i s => ?_⟩
  · exact ⟨hostRead_errcode s, hostRead_errinfo s, hostRead_resBits s, hostRead_resBytes s⟩
  · refine ⟨_, exec_eq i s, Ran.complete_pending _ _, Ran.complete_done _ _, ?_, ?_⟩
    · rw [hostRead_errcode, toNat_errCodeWord, Ran.toNat_complete_errOp]
    · rw [hostRead_errinfo]
      rcases complete_outcome i s with ⟨hcause, hinfo, herr⟩ | ⟨hcause, herr⟩
      · exact ⟨fun _ => ⟨hinfo, herr⟩, fun h => absurd hcause h⟩
      · exact ⟨fun h => absurd h hcause, fun _ => herr⟩

/-- Settles O27: both bounds by induction along the run, since each step takes a turn and the step after the last turn
completes what is pending; a final state's step is an idle engine's or reset. -/
theorem everyRunEnds : Obligations.EveryRunEnds := by
  refine ⟨exists_endsIn, fun s t hfinal hstep => ?_, exists_run_no_turn⟩
  obtain ⟨ht, hreset | he⟩ := hfinal.step hstep
  · obtain ⟨ts, hts⟩ := hreset
    exact ⟨ht, fun hne => absurd hts (hne ts)⟩
  · exact ⟨ht, fun _ => he⟩

end Sys2Proof.Machine
end

section
/-!
SUPPORT. The reset values as the host reads them, and what one step does to FREQ, TREE and the bytes of BUF
(spec/70_reset_and_hazards.md R99, R104).
-/

namespace Sys2Proof.Machine

/-! Reset (R99). -/

/-- Of the reads that R43 does not mask, only CONFIG shows the parameters, and none the number of resets, the turns or
the record of reads. -/
theorem readTarget_congr_of_not_masked (s : State) (c : Config) (e : Nat) (ts : List Turn) (g : List Word) {t : Target}
    (h : t.readMasked = false) (hconfig : t ≠ .config) :
    ({ s with config := c, epoch := e, turns := ts, got := g } : State).readTarget t = s.readTarget t := by
  cases t with
  | config => exact absurd rfl hconfig
  | freq | codeLen | codeBits | node | buf => cases h
  | _ => rfl

/-- The fourteen registers from CTRL on: none is masked or is CONFIG, and each reads 0 at power-on (R43, R99). -/
theorem readTarget_register_reset : ∀ n < 14,
    (registers.getD (2 + n) .reserved).readMasked = false ∧ registers.getD (2 + n) .reserved ≠ .config ∧
      State.reset.readTarget (registers.getD (2 + n) .reserved) = 0#32 := by decide

/-- The reset values read as R99 says, whatever the parameters, the number of resets, the turns and the record of
reads. -/
theorem State.atReset_of_reset_values (c : Config) (e : Nat) (ts : List Turn) (g : List Word) :
    ({ State.reset with config := c, epoch := e, turns := ts, got := g } : State).AtReset where
  id := hostRead_id _
  config := hostRead_config _
  registers n hn := by
    have hoff : 0x008 + 4 * n = 4 * (2 + n) := by omega
    obtain ⟨hmasked, hconfig, hzero⟩ := readTarget_register_reset n hn
    rw [hoff, hostRead_register _ (by omega), readTarget_congr_of_not_masked State.reset c e ts g hmasked hconfig,
      hzero]
  freq x := Table.at_replicate _ x
  tree := rfl
  pending := rfl
  buf _ := rfl
  irq := rfl

theorem State.resetBlock_atReset (s : State) : s.resetBlock.AtReset :=
  State.atReset_of_reset_values s.config (s.epoch + 1) s.turns s.got

/-- A reset turn resets the block, whatever is pending (R100). -/
theorem step_reset {s : State} {ts : List Turn} (h : s.turns = .reset :: ts) :
    step s = .next (s.setTurns ts).resetBlock := by
  rw [step, h]
  rfl

/-- The power-on state meets the invariant: what the invariant speaks of is as a reset turn leaves it. -/
theorem State.inv_reset : State.reset.Inv := by
  have h := State.reset.inv_resetBlock
  exact ⟨h.bufCanonical, h.bufInRange, h.treeOfFreq, h.pendingIsCmd, h.infoZero⟩

/-! FREQ and TREE (R104). -/

/-- Only its own word decodes to an instruction (R53, R54). -/
theorem eq_encode_of_decode {w : Word} {i : Instr} (h : decode w = i) : w = encode i := by rw [← h, encode_decode]

/-- What one step does to FREQ and TREE: nothing, or TREE becomes INVALID, or BUILD completes and makes the tree of the
same FREQ. -/
theorem step_freq_tree {s t : State} (h : step s = .next t) :
    (t.freq = s.freq ∧ t.tree = s.tree) ∨ t.tree = none ∨
      (s.pending = some (encode .build) ∧ t.freq = s.freq ∧ t.tree = some (buildTree s.freq)) := by
  rcases step_cases h with ⟨ts, w, -, hp, he⟩ | ⟨ts, -, -, rfl⟩ | ⟨addr, ts, -, rfl⟩ | ⟨addr, w, ts, -, rfl⟩ |
    ⟨ts, -, rfl⟩
  · rw [eq_complete_of_exec he, Ran.complete_freq, Ran.complete_tree]
    refine (bodyOf_freq_tree (decode w) (s.setTurns ts)).imp_right (.imp_right ?_)
    rintro ⟨hbuild, hfreq, htree⟩
    exact ⟨eq_encode_of_decode hbuild ▸ hp, hfreq, htree⟩
  · exact .inl ⟨rfl, rfl⟩
  · rw [readStep_eq]; exact .inl ⟨rfl, rfl⟩
  · rcases writeStep_cases (s.setTurns ts) addr w with he | ⟨o, -, ⟨-, -, he⟩ | ⟨-, he⟩⟩ <;> rw [he]
    · exact .inl ⟨rfl, rfl⟩
    · exact .inl ⟨rfl, rfl⟩
    · obtain ⟨-, -, -, htables⟩ :=
        writeTarget_effects (s.setTurns ts) w (targetAt (s.setTurns ts).config (alignedOffset o))
      exact htables.imp_right .inl
  · exact .inr (.inl rfl)

/-! The bytes of BUF (R29, R99). -/

/-- A host write changes no byte of BUF but those of the BUF word it reaches (R40). -/
theorem readByte_writeTarget (s : State) (w : Word) (t : Target) (a : Nat) :
    (s.writeTarget w t).readByte a = s.readByte a ∨ ∃ b, t = .buf b ∧ b ≤ a ∧ a < b + 4 := by
  cases t with
  | buf b =>
    by_cases hab : b ≤ a ∧ a < b + 4
    · exact .inr ⟨b, rfl, hab⟩
    · exact .inl (readByte_writeBufWord_outside s b w (by omega))
  | _ => exact .inl rfl

/-- A write turn changes a byte of BUF only by the BUF-window word that holds it (R40, R43). -/
theorem readByte_writeStep (s : State) (addr : Nat) (w : Word) (a : Nat) :
    (writeStep s addr w).readByte a = s.readByte a ∨
      ∃ o, busOffset s.config addr = some o ∧ alignedOffset o = 0x10000 + 4 * (a / 4) := by
  rcases writeStep_cases s addr w with he | ⟨o, ho, ⟨-, -, he⟩ | ⟨-, he⟩⟩ <;> rw [he]
  · exact .inl rfl
  · exact .inl rfl
  · refine (readByte_writeTarget s w _ a).imp_right ?_
    rintro ⟨b, hbuf, hle, hlt⟩
    obtain ⟨-, h4⟩ := alignedOffset_lt o
    obtain ⟨hoff, -⟩ := targetAt_eq_buf h4 hbuf
    exact ⟨o, ho, by omega⟩

/-- A command changes a byte of BUF only if it is ENCODE or DECODE and RES_BYTES bytes from DST on hold it (R56). -/
theorem readByte_bodyOf (i : Instr) (s : State) (a : Nat) :
    (bodyOf i s).state.readByte a = s.readByte a ∨
      ((i = .encode ∨ i = .decode) ∧ s.dst.toNat ≤ a ∧ a < s.dst.toNat + (bodyOf i s).state.resBytes.toNat) := by
  by_cases hi : i = .encode ∨ i = .decode
  · by_cases hin : s.dst.toNat ≤ a ∧ a < s.dst.toNat + (bodyOf i s).state.resBytes.toNat
    · exact .inr ⟨hi, hin⟩
    · exact .inl (bodyOf_sameBufOutside s hi a (by omega))
  · rw [not_or] at hi
    obtain ⟨hencode, hdecode⟩ := hi
    exact .inl (bodyOf_readByte s hencode hdecode a)

/-- What one step does to a byte of BUF: nothing, or reset draws it, or a host write of its BUF-window word or the
completion of an ENCODE or DECODE with the byte in its output writes it. -/
theorem step_readByte {s t : State} (h : step s = .next t) (a : Nat) :
    t.readByte a = s.readByte a ∨ (∃ ts, s.turns = .reset :: ts) ∨
      (∃ addr w o ts, s.turns = .write addr w :: ts ∧ busOffset s.config addr = some o ∧
        alignedOffset o = 0x10000 + 4 * (a / 4)) ∨
      ((s.pending = some (encode .encode) ∨ s.pending = some (encode .decode)) ∧ t.pending = none ∧
        s.dst.toNat ≤ a ∧ a < s.dst.toNat + t.resBytes.toNat) := by
  rcases step_cases h with ⟨ts, w, -, hp, he⟩ | ⟨ts, -, -, rfl⟩ | ⟨addr, ts, -, rfl⟩ | ⟨addr, w, ts, hts, rfl⟩ |
    ⟨ts, hts, -⟩
  · rw [eq_complete_of_exec he, State.readByte_complete, Ran.complete_pending, Ran.complete_resBytes, hp]
    refine (readByte_bodyOf (decode w) (s.setTurns ts) a).imp_right fun ⟨hi, hrange⟩ => .inr (.inr ⟨?_, rfl, hrange⟩)
    exact hi.imp (fun h => congrArg some (eq_encode_of_decode h)) fun h => congrArg some (eq_encode_of_decode h)
  · exact .inl rfl
  · rw [readStep_eq]; exact .inl rfl
  · refine (readByte_writeStep (s.setTurns ts) addr w a).imp_right ?_
    rintro ⟨o, ho, hoff⟩
    exact .inr (.inl ⟨addr, w, o, ts, hts, ho, hoff⟩)
  · exact .inr (.inl ⟨ts, hts⟩)

end Sys2Proof.Machine
end

section
/-!
The statements on reset, on what keeps BUF and TREE between steps, and on the invariant at reset.
-/

namespace Sys2Proof.Machine

/-- Settles O1: both kinds of reset leave the reset values, and of the things a step can do to a byte of BUF the two
that are left without a reset are those named. -/
theorem resetPutsEveryRegisterAtItsResetValue : Obligations.ResetPutsEveryRegisterAtItsResetValue := by
  refine ⟨State.atReset_of_reset_values _ _ _ _, fun s ts hts => ?_, fun s t a hstep hreset hne => ?_⟩
  · exact ⟨_, step_reset hts, State.resetBlock_atReset _, rfl, rfl, rfl⟩
  · rcases step_readByte hstep a with he | ⟨ts, hts⟩ | hwritten
    · exact absurd he hne
    · exact absurd hts (hreset ts)
    · exact hwritten

/-- Settles O33: of the three things a step can do to FREQ and TREE, only the one that makes TREE INVALID may change
FREQ, and only the completion of BUILD makes a valid tree. -/
theorem treeFollowsFreq : Obligations.TreeFollowsFreq := by
  intro s t hstep
  rcases step_freq_tree hstep with ⟨hfreq, htree⟩ | hinvalid | ⟨hbuild, hfreq, htree⟩
  · exact ⟨fun h => absurd hfreq h, fun h => absurd htree h⟩
  · exact ⟨fun _ => hinvalid, fun _ h => absurd hinvalid h⟩
  · exact ⟨fun h => absurd hfreq h, fun _ _ => ⟨hbuild, htree⟩⟩

/-- Settles O57: the reset values by field, and the canonical form by what `Memory.wf` decides. -/
theorem invariantHoldsAtReset : Obligations.InvariantHoldsAtReset := ⟨State.inv_reset, Memory.wf_iff⟩

end Sys2Proof.Machine
end
